-- ==== Sys2Proof/Word.lean ====
section
/-! DEFINITION. The word types of the block: the widths fixed by 00_scope.md R11 and the vector widths
K = 3 and N = 6 fixed by 00_scope.md R8. -/

namespace Sys2Proof

/-- A command word or a response word (R11, R51, R52). -/
abbrev Word := BitVec 32

/-- A sequence number, a queue slot, a queue index, a queue size or a wire byte (R11, R41). -/
abbrev Byte := BitVec 8

/-- SENT_COUNT, a unit index, a timer or a buffer length (R11, R120). -/
abbrev Half := BitVec 16

/-- A loss draw (R11, R54). -/
abbrev Draw := BitVec 16

/-- A K-bit information symbol, m1 = bit 2 (R13). -/
abbrev Symbol := BitVec 3

/-- An N-bit codeword, c1 = bit 5 (R13). -/
abbrev Codeword := BitVec 6

/-- An (N-K)-bit syndrome, s1 = bit 2 (R13). -/
abbrev Syndrome := BitVec 3

end Sys2Proof
end

