-- ==== Sys2Proof/Config.lean ====
section
/-! DEFINITION. The build configuration `cfg` of the block (00_scope.md R8, 41_fec.md R100). It is fixed at
build time: no command writes it. Which configurations are legal is Machine/Build.lean's `Cfg.valid` (R9).
The values are parameters (93 I1, I4): the model takes them from the state's field `cfg` and fixes none. -/

namespace Sys2Proof

/-- The ARQ variant, R8 `MODE`: stop-and-wait, Go-Back-N, selective repeat, sliding window with delayed ACK. -/
inductive Mode where
  | sw
  | gbn
  | sr
  | slw
deriving DecidableEq, Repr

/-- The block code `CODE = (G, H, SYNTAB, R)` (41_fec.md R100), as data. Bit numbering: 00_scope.md R13. -/
structure Code where
  /-- Row of G for m1 (`sym[2]`). -/
  g1 : Codeword
  /-- Row of G for m2 (`sym[1]`). -/
  g2 : Codeword
  /-- Row of G for m3 (`sym[0]`). -/
  g3 : Codeword
  /-- Row of H for s1 (`syn[2]`). -/
  h1 : Codeword
  /-- Row of H for s2 (`syn[1]`). -/
  h2 : Codeword
  /-- Row of H for s3 (`syn[0]`). -/
  h3 : Codeword
  /-- SYNTAB: the partial map from nonzero syndromes to bit positions `c[p]`, one pair per entry. -/
  synTab : List (Syndrome × Fin 6)
  /-- Row of R for c1 (`c[5]`). -/
  r1 : Symbol
  /-- Row of R for c2 (`c[4]`). -/
  r2 : Symbol
  /-- Row of R for c3 (`c[3]`). -/
  r3 : Symbol
  /-- Row of R for c4 (`c[2]`). -/
  r4 : Symbol
  /-- Row of R for c5 (`c[1]`). -/
  r5 : Symbol
  /-- Row of R for c6 (`c[0]`). -/
  r6 : Symbol
deriving DecidableEq, Repr

/-- The configuration record of 00_scope.md R8. The numbers are mathematical integers (R12); their legal ranges
are checked by `Cfg.valid`. -/
structure Cfg where
  /-- `CODE`: the block code (R100). -/
  code : Code
  /-- `MODE`: the ARQ variant. -/
  mode : Mode
  /-- `W`: send-window size, the capacity of TXQ (R10). -/
  w : Nat
  /-- `LENM`: size of the sequence-number space. -/
  lenm : Nat
  /-- `BASE`: first sequence number. -/
  base : Nat
  /-- `D`: receiver delay depth, the capacity of RXQ (R10). -/
  d : Nat
  /-- `M`: message length in units. -/
  m : Nat
  /-- `DATALEN`: payload bytes per data frame. -/
  dataLen : Nat
  /-- `TICK_MS`: polling interval per tick. -/
  tickMs : Nat
  /-- `ACKTIMEOUT`: ACK-timer threshold in ms. -/
  ackTimeout : Nat
  /-- `TXTIMEOUT`: transmit-timer threshold in ms. -/
  txTimeout : Nat
  /-- `P_DATA`: drop threshold of outbound data frames. -/
  pData : Nat
  /-- `P_ACKOUT`: drop threshold of outbound ACK frames. -/
  pAckOut : Nat
  /-- `P_ACKIN`: drop threshold of inbound ACK frames. -/
  pAckIn : Nat
deriving DecidableEq, Repr

end Sys2Proof
end

