-- ==== Sys2Proof/Syntax.lean ====
section
/-! DEFINITION. The commands of the block: one constructor per row of spec/opcode_table.json (30_encoding.md
R55), with the named operands of R60 at their exact widths. -/

namespace Sys2Proof

/-- Queue select, `SEL[0]` of the Q.* commands (30_encoding.md R59). -/
inductive QSel where
  /-- `SEL[0] = 0`: the sender's unacknowledged window. -/
  | txq
  /-- `SEL[0] = 1`: the receiver's delayed-ACK window. -/
  | rxq
deriving DecidableEq, Repr

/-- A command (30_encoding.md R55, R60). -/
inductive Instr where
  /-- `NOP` (R180). -/
  | nop
  /-- `FEC.ENC sym` (R107). -/
  | fecEnc (sym : Symbol)
  /-- `FEC.SYN cw` (R108). -/
  | fecSyn (cw : Codeword)
  /-- `FEC.COR cw` (R109). -/
  | fecCor (cw : Codeword)
  /-- `FEC.DEC cw` (R110). -/
  | fecDec (cw : Codeword)
  /-- `Q.ENQ q, v` (R87). -/
  | qEnq (q : QSel) (v : Byte)
  /-- `Q.DEQ q` (R88). -/
  | qDeq (q : QSel)
  /-- `Q.FRONT q` (R89). -/
  | qFront (q : QSel)
  /-- `Q.REAR q` (R90). -/
  | qRear (q : QSel)
  /-- `Q.CLEAR q` (R91). -/
  | qClear (q : QSel)
  /-- `Q.SIZE q` (R92). -/
  | qSize (q : QSel)
  /-- `FRM.CLASS len` (R120). -/
  | frmClass (len : Half)
  /-- `ARQ.CTRL b0, b1` (R140, R141). -/
  | arqCtrl (b0 b1 : Byte)
  /-- `ARQ.RXDATA seq` (R155). -/
  | arqRxdata (seq : Byte)
  /-- `ARQ.RXACK seq, mark` (R145). -/
  | arqRxack (seq mark : Byte)
  /-- `ARQ.TICK` (R150). -/
  | arqTick
  /-- `ARQ.EOM` (R158). -/
  | arqEom
  /-- `ARQ.DISC` (R160). -/
  | arqDisc
  /-- `REG.RD r` (R181). -/
  | regRd (r : Byte)
  /-- `REG.CLRERR mask` (R182). -/
  | regClrerr (mask : BitVec 5)
deriving DecidableEq, Repr

end Sys2Proof
end

