-- ==== Sys2Proof/WellFormed.lean ====
section
/-! DEFINITION. Which commands are well formed. Every named operand is legal at every value of its width, except
the register number of REG.RD (30_encoding.md R56, R60). -/

namespace Sys2Proof

/-- The highest register number REG.RD defines (45_system.md R181). -/
def maxReg : Byte := 0x11#8

/-- R56 and R60: REG.RD is legal only for `r ≤ 0x11`; every other operand value is legal. -/
def Instr.wellFormed : Instr → Bool
  | .nop => true
  | .fecEnc _ => true
  | .fecSyn _ => true
  | .fecCor _ => true
  | .fecDec _ => true
  | .qEnq _ _ => true
  | .qDeq _ => true
  | .qFront _ => true
  | .qRear _ => true
  | .qClear _ => true
  | .qSize _ => true
  | .frmClass _ => true
  | .arqCtrl _ _ => true
  | .arqRxdata _ => true
  | .arqRxack _ _ => true
  | .arqTick => true
  | .arqEom => true
  | .arqDisc => true
  | .regRd r => decide (r ≤ maxReg)
  | .regClrerr _ => true

end Sys2Proof
end

