-- ==== Sys2Proof/Decode.lean ====
section
/-! DEFINITION. Decoding of command words and, after it, their encoding, both from the opcode map of
30_encoding.md R55 (fields R51, operands R59 and R60). -/

namespace Sys2Proof

/-! ## Fields of a command word (R51) -/

/-- `OPC = cmd_data[31:24]`. -/
def opcField (w : Word) : Byte := w.extractLsb' 24 8

/-- `SEL = cmd_data[23:16]`. -/
def selField (w : Word) : Byte := w.extractLsb' 16 8

/-- `OPD = cmd_data[15:0]`. -/
def opdField (w : Word) : Half := w.extractLsb' 0 16

/-! ## Decoding -/

/-- Why a word is no command of the opcode map. Both are ILLEGAL commands for the machine (R58). -/
inductive DecodeError where
  /-- The OPC value is not in the opcode map (R57). -/
  | undefinedOpcode (opc : Byte)
  /-- The OPC value is in the map, but a reserved field is not zero (R56). -/
  | reservedField (opc : Byte)
deriving DecidableEq, Repr

/-- Accept `i` when its reserved fields are zero, else reject the word by name (R56). -/
def acceptIf (reservedZero : Bool) (o : Byte) (i : Instr) : Except DecodeError Instr :=
  if reservedZero then .ok i else .error (.reservedField o)

/-- `SEL[0]` (R59). -/
def queueSelect (w : Word) : QSel := if w.getLsbD 16 then .rxq else .txq

/-- SEL and OPD are both reserved. -/
def bareOk (w : Word) : Bool := selField w == 0#8 && opdField w == 0#16

/-- SEL is reserved; OPD is all operand. -/
def selOk (w : Word) : Bool := selField w == 0#8

/-- `SEL[7:1]` is reserved, as in every Q.* command. -/
def queueSelOk (w : Word) : Bool := w.extractLsb' 17 7 == 0#7

/-- Decoding by OPC, with the reserved fields of R55 checked. A REG.RD word decodes whatever its register number
is; a number above 0x11 is not `Instr.wellFormed`, and the command's meaning is then ILLEGAL (R56, R181). -/
def decode (w : Word) : Except DecodeError Instr :=
  let o := opcField w
  if o = 0x00#8 then acceptIf (bareOk w) o .nop
  else if o = 0x10#8 then acceptIf (selOk w && w.extractLsb' 3 13 == 0#13) o (.fecEnc (w.extractLsb' 0 3))
  else if o = 0x11#8 then acceptIf (selOk w && w.extractLsb' 6 10 == 0#10) o (.fecSyn (w.extractLsb' 0 6))
  else if o = 0x12#8 then acceptIf (selOk w && w.extractLsb' 6 10 == 0#10) o (.fecCor (w.extractLsb' 0 6))
  else if o = 0x13#8 then acceptIf (selOk w && w.extractLsb' 6 10 == 0#10) o (.fecDec (w.extractLsb' 0 6))
  else if o = 0x20#8 then
    acceptIf (queueSelOk w && w.extractLsb' 8 8 == 0#8) o (.qEnq (queueSelect w) (w.extractLsb' 0 8))
  else if o = 0x21#8 then acceptIf (queueSelOk w && opdField w == 0#16) o (.qDeq (queueSelect w))
  else if o = 0x22#8 then acceptIf (queueSelOk w && opdField w == 0#16) o (.qFront (queueSelect w))
  else if o = 0x23#8 then acceptIf (queueSelOk w && opdField w == 0#16) o (.qRear (queueSelect w))
  else if o = 0x24#8 then acceptIf (queueSelOk w && opdField w == 0#16) o (.qClear (queueSelect w))
  else if o = 0x25#8 then acceptIf (queueSelOk w && opdField w == 0#16) o (.qSize (queueSelect w))
  else if o = 0x30#8 then acceptIf (selOk w) o (.frmClass (w.extractLsb' 0 16))
  else if o = 0x40#8 then acceptIf (selOk w) o (.arqCtrl (w.extractLsb' 8 8) (w.extractLsb' 0 8))
  else if o = 0x41#8 then acceptIf (selOk w && w.extractLsb' 8 8 == 0#8) o (.arqRxdata (w.extractLsb' 0 8))
  else if o = 0x42#8 then acceptIf (selOk w) o (.arqRxack (w.extractLsb' 8 8) (w.extractLsb' 0 8))
  else if o = 0x43#8 then acceptIf (bareOk w) o .arqTick
  else if o = 0x44#8 then acceptIf (bareOk w) o .arqEom
  else if o = 0x45#8 then acceptIf (bareOk w) o .arqDisc
  else if o = 0x50#8 then acceptIf (opdField w == 0#16) o (.regRd (w.extractLsb' 16 8))
  else if o = 0x51#8 then acceptIf (selOk w && w.extractLsb' 5 11 == 0#11) o (.regClrerr (w.extractLsb' 0 5))
  else .error (.undefinedOpcode o)

/-- The host's reading of a table word: the low `nbits` bits of `w`, zero above, given to `decode`. The block's
commands are one 32-bit word presented whole (R51, 20_memory.md R43), so no byte order is involved. -/
def decodeTableWord (nbits w : Nat) : Option Instr :=
  match decode (BitVec.ofNat 32 (w % 2 ^ nbits)) with
  | .ok i => some i
  | .error _ => none

/-! ## Encoding -/

/-- `{OPC, SEL, OPD}` (R51). -/
def packWord (o s : Byte) (d : Half) : Word := o.setWidth 32 <<< 24 ||| s.setWidth 32 <<< 16 ||| d.setWidth 32

/-- Two wire bytes in OPD: byte 0 in `OPD[15:8]`, byte 1 in `OPD[7:0]` (20_memory.md R42). -/
def packBytes (b0 b1 : Byte) : Half := b0.setWidth 16 <<< 8 ||| b1.setWidth 16

/-- The SEL field of a Q.* command: `SEL[7:1] = 0`, `SEL[0]` the queue (R59). -/
def queueSelBits : QSel → Byte
  | .txq => 0x00#8
  | .rxq => 0x01#8

/-- The command word of an instruction (R55, R67). -/
def encode : Instr → Word
  | .nop => packWord 0x00#8 0#8 0#16
  | .fecEnc sym => packWord 0x10#8 0#8 (sym.setWidth 16)
  | .fecSyn cw => packWord 0x11#8 0#8 (cw.setWidth 16)
  | .fecCor cw => packWord 0x12#8 0#8 (cw.setWidth 16)
  | .fecDec cw => packWord 0x13#8 0#8 (cw.setWidth 16)
  | .qEnq q v => packWord 0x20#8 (queueSelBits q) (v.setWidth 16)
  | .qDeq q => packWord 0x21#8 (queueSelBits q) 0#16
  | .qFront q => packWord 0x22#8 (queueSelBits q) 0#16
  | .qRear q => packWord 0x23#8 (queueSelBits q) 0#16
  | .qClear q => packWord 0x24#8 (queueSelBits q) 0#16
  | .qSize q => packWord 0x25#8 (queueSelBits q) 0#16
  | .frmClass len => packWord 0x30#8 0#8 len
  | .arqCtrl b0 b1 => packWord 0x40#8 0#8 (packBytes b0 b1)
  | .arqRxdata seq => packWord 0x41#8 0#8 (seq.setWidth 16)
  | .arqRxack seq mark => packWord 0x42#8 0#8 (packBytes seq mark)
  | .arqTick => packWord 0x43#8 0#8 0#16
  | .arqEom => packWord 0x44#8 0#8 0#16
  | .arqDisc => packWord 0x45#8 0#8 0#16
  | .regRd r => packWord 0x50#8 r 0#16
  | .regClrerr mask => packWord 0x51#8 0#8 (mask.setWidth 16)

/-! ## The opcode table's match and mask (R55) -/

/-- One row of spec/opcode_table.json: a word `w` is the row's when `w AND mask = pattern`. -/
structure OpcodeRow where
  mnemonic : String
  pattern : Word
  mask : Word
deriving DecidableEq, Repr

/-- The rows of spec/opcode_table.json, in its order. The mask covers OPC and every reserved bit (R55). -/
def opcodeRows : List OpcodeRow :=
  [ ⟨"NOP", 0x00000000#32, 0xFFFFFFFF#32⟩,
    ⟨"FEC.ENC", 0x10000000#32, 0xFFFFFFF8#32⟩,
    ⟨"FEC.SYN", 0x11000000#32, 0xFFFFFFC0#32⟩,
    ⟨"FEC.COR", 0x12000000#32, 0xFFFFFFC0#32⟩,
    ⟨"FEC.DEC", 0x13000000#32, 0xFFFFFFC0#32⟩,
    ⟨"Q.ENQ", 0x20000000#32, 0xFFFEFF00#32⟩,
    ⟨"Q.DEQ", 0x21000000#32, 0xFFFEFFFF#32⟩,
    ⟨"Q.FRONT", 0x22000000#32, 0xFFFEFFFF#32⟩,
    ⟨"Q.REAR", 0x23000000#32, 0xFFFEFFFF#32⟩,
    ⟨"Q.CLEAR", 0x24000000#32, 0xFFFEFFFF#32⟩,
    ⟨"Q.SIZE", 0x25000000#32, 0xFFFEFFFF#32⟩,
    ⟨"FRM.CLASS", 0x30000000#32, 0xFFFF0000#32⟩,
    ⟨"ARQ.CTRL", 0x40000000#32, 0xFFFF0000#32⟩,
    ⟨"ARQ.RXDATA", 0x41000000#32, 0xFFFFFF00#32⟩,
    ⟨"ARQ.RXACK", 0x42000000#32, 0xFFFF0000#32⟩,
    ⟨"ARQ.TICK", 0x43000000#32, 0xFFFFFFFF#32⟩,
    ⟨"ARQ.EOM", 0x44000000#32, 0xFFFFFFFF#32⟩,
    ⟨"ARQ.DISC", 0x45000000#32, 0xFFFFFFFF#32⟩,
    ⟨"REG.RD", 0x50000000#32, 0xFF00FFFF#32⟩,
    ⟨"REG.CLRERR", 0x51000000#32, 0xFFFFFFE0#32⟩ ]

/-- The row's mnemonic of a command, as the table spells it. -/
def mnemonic : Instr → String
  | .nop => "NOP"
  | .fecEnc _ => "FEC.ENC"
  | .fecSyn _ => "FEC.SYN"
  | .fecCor _ => "FEC.COR"
  | .fecDec _ => "FEC.DEC"
  | .qEnq _ _ => "Q.ENQ"
  | .qDeq _ => "Q.DEQ"
  | .qFront _ => "Q.FRONT"
  | .qRear _ => "Q.REAR"
  | .qClear _ => "Q.CLEAR"
  | .qSize _ => "Q.SIZE"
  | .frmClass _ => "FRM.CLASS"
  | .arqCtrl _ _ => "ARQ.CTRL"
  | .arqRxdata _ => "ARQ.RXDATA"
  | .arqRxack _ _ => "ARQ.RXACK"
  | .arqTick => "ARQ.TICK"
  | .arqEom => "ARQ.EOM"
  | .arqDisc => "ARQ.DISC"
  | .regRd _ => "REG.RD"
  | .regClrerr _ => "REG.CLRERR"

/-- The word has the row's pattern under the row's mask. -/
def OpcodeRow.fits (row : OpcodeRow) (w : Word) : Bool := w &&& row.mask == row.pattern

end Sys2Proof
end

