-- ==== Sys2Proof/Machine/Codec.lean ====
section
/-! DEFINITION. The block-code functions over GF(2) (41_fec.md R102 to R106), for any code. A row-vector times a
matrix is the GF(2) sum of the rows that the vector selects; vector bits are numbered as 00_scope.md R13 says. -/

namespace Sys2Proof.Machine

/-- `b · row` over GF(2): AND of one bit with every bit of a row (R106). -/
def gf2Scale {n : Nat} (b : Bool) (row : BitVec n) : BitVec n := if b then row else 0#n

/-- `enc(m) = m · G` (R102). -/
def enc (k : Code) (m : Symbol) : Codeword :=
  gf2Scale (m.getLsbD 2) k.g1 ^^^ gf2Scale (m.getLsbD 1) k.g2 ^^^ gf2Scale (m.getLsbD 0) k.g3

/-- `⊕_j c_j`: the GF(2) sum of the bits of a 6-bit vector (R106). -/
def parity (v : Codeword) : Bool :=
  v.getLsbD 5 ^^ v.getLsbD 4 ^^ v.getLsbD 3 ^^ v.getLsbD 2 ^^ v.getLsbD 1 ^^ v.getLsbD 0

/-- The row vector (s1, s2, s3), s1 = bit 2 (R13). -/
def packSyndrome (s1 s2 s3 : Bool) : Syndrome :=
  (BitVec.ofBool s1).setWidth 3 <<< 2 ||| (BitVec.ofBool s2).setWidth 3 <<< 1 ||| (BitVec.ofBool s3).setWidth 3

/-- `syn(c) = c · Hᵗ`: bit i of the syndrome is `⊕_j (c_j · H[i][j])` (R103). -/
def syn (k : Code) (c : Codeword) : Syndrome :=
  packSyndrome (parity (c &&& k.h1)) (parity (c &&& k.h2)) (parity (c &&& k.h3))

/-- The three outcomes of the corrector (R104). -/
inductive CorResult where
  /-- The syndrome is zero: the codeword unchanged. -/
  | clean (c : Codeword)
  /-- SYNTAB names a bit position: the codeword with that bit flipped. -/
  | fixed (c : Codeword) (p : Fin 6)
  /-- Nonzero syndrome absent from SYNTAB. -/
  | uncorrectable
deriving DecidableEq, Repr

/-- `SYNTAB[s]` (R100). -/
def synPosition (k : Code) (s : Syndrome) : Option (Fin 6) := k.synTab.lookup s

/-- `cor(c)` (R104). -/
def cor (k : Code) (c : Codeword) : CorResult :=
  if syn k c = 0#3 then .clean c
  else
    match synPosition k (syn k c) with
    | some p => .fixed (c ^^^ (1#6 <<< p.val)) p
    | none => .uncorrectable

/-- `dec(c) = c · R`: no check and no correction (R105). -/
def dec (k : Code) (c : Codeword) : Symbol :=
  gf2Scale (c.getLsbD 5) k.r1 ^^^ gf2Scale (c.getLsbD 4) k.r2 ^^^ gf2Scale (c.getLsbD 3) k.r3 ^^^
    gf2Scale (c.getLsbD 2) k.r4 ^^^ gf2Scale (c.getLsbD 1) k.r5 ^^^ gf2Scale (c.getLsbD 0) k.r6

/-- Column of H for bit position p, as a syndrome (s1, s2, s3) (R9 d, R13). -/
def hColumn (k : Code) (p : Fin 6) : Syndrome :=
  packSyndrome (k.h1.getLsbD p.val) (k.h2.getLsbD p.val) (k.h3.getLsbD p.val)

end Sys2Proof.Machine
end

