-- ==== Sys2Proof/Machine/Build.lean ====
section
/-! DEFINITION. Which configurations are a myece4532-RDE (00_scope.md R8, R9), the default code of 41_fec.md R101,
and the configuration that `State.reset` is built for (log entry 1). -/

namespace Sys2Proof

/-- R is a selection matrix: it "picks out the k systematic bits" (41_fec.md R100), so each of its three columns holds
exactly one 1. With decode(encode(x)) = x the codeword bit selected is the information bit (R9 e; log entry 14). -/
def Code.selects (k : Code) : Bool :=
  (List.range 3).all fun j => ([k.r1, k.r2, k.r3, k.r4, k.r5, k.r6].filter fun r => r.getLsbD j).length == 1

/-- R9 (c), (d), (e), and SYNTAB a partial map on the nonzero syndromes (41_fec.md R100). -/
def Code.valid (k : Code) : Bool :=
  -- (c) G · Hᵗ = 0
  Machine.syn k k.g1 == 0#3 && Machine.syn k k.g2 == 0#3 && Machine.syn k k.g3 == 0#3 &&
  -- (d) an entry only where the column of H is the syndrome; one entry a syndrome; no entry for 0
  k.synTab.all (fun e => e.1 != 0#3 && Machine.hColumn k e.2 == e.1) &&
  decide ((k.synTab.map Prod.fst).Nodup) &&
  -- (e) R selects: one codeword bit for each information bit; and decode(encode(x)) = x
  k.selects &&
  (List.range 8).all (fun x =>
    Machine.dec k (Machine.enc k (BitVec.ofNat 3 x)) == BitVec.ofNat 3 x)

/-- The legal ranges of the table of R8. -/
def Cfg.inRange (c : Cfg) : Bool :=
  decide (1 ≤ c.w ∧ c.w ≤ 16) && decide (2 ≤ c.lenm ∧ c.lenm ≤ 255) && decide (c.base ≤ 1) &&
  decide (1 ≤ c.d ∧ c.d ≤ 255) && decide (c.m ≤ 65535) && decide (1 ≤ c.dataLen ∧ c.dataLen ≤ 65534) &&
  decide (1 ≤ c.tickMs ∧ c.tickMs ≤ 65535) && decide (c.ackTimeout ≤ 65534 * c.tickMs) &&
  decide (c.txTimeout ≤ 65534 * c.tickMs) && decide (c.pData ≤ 65536) && decide (c.pAckOut ≤ 65536) &&
  decide (c.pAckIn ≤ 65536)

/-- R9: a valid configuration. -/
def Cfg.valid (c : Cfg) : Bool :=
  c.inRange && c.code.valid &&
  -- (a)
  decide (c.w < c.lenm) &&
  -- (b)
  decide (c.base + c.lenm - 1 ≤ 255) &&
  -- (f)
  decide (c.mode = .sw → c.w = 1) &&
  -- (g)
  decide (c.mode ≠ .slw → c.d = 1) &&
  -- (h)
  decide (c.ackTimeout / c.tickMs + 1 ≤ 65535) && decide (c.txTimeout / c.tickMs + 1 ≤ 65535)

/-- `DEFAULT_CODE` (41_fec.md R101). -/
def Code.standard : Code where
  g1 := 0b110100#6
  g2 := 0b011010#6
  g3 := 0b101001#6
  h1 := 0b100101#6
  h2 := 0b010110#6
  h3 := 0b001011#6
  synTab := [(0b100#3, 5), (0b010#3, 4), (0b001#3, 3), (0b110#3, 2), (0b011#3, 1), (0b101#3, 0)]
  r1 := 0b000#3
  r2 := 0b000#3
  r3 := 0b000#3
  r4 := 0b100#3
  r5 := 0b010#3
  r6 := 0b001#3

/-- DESIGN CHOICE (unsafe, log entry 1): the configuration of `State.reset` is CFG-A of 95_test_vectors.md, with
DEFAULT_CODE. The spec leaves every value a parameter (93 I4). -/
def Cfg.resetCfg : Cfg where
  code := Code.standard
  mode := .sw
  w := 1
  lenm := 10
  base := 0
  d := 1
  m := 26
  dataLen := 16
  tickMs := 10
  ackTimeout := 100
  txTimeout := 50
  pData := 0
  pAckOut := 0
  pAckIn := 0

end Sys2Proof
end

