-- ==== Sys2Proof/Machine/State.lean ====
section
/-! DEFINITION. The state of the block (10_state.md R20) beside its build configuration and its ports, the reasons a
step can stop, and the state after hardware reset (R36, 70_reset_and_hazards.md R212). -/

namespace Sys2Proof.Machine

/-- Why the machine takes no step. -/
inductive Fault where
  /-- Raised by a command that needs a loss draw when `draws` is empty (R132). The spec's treatment is `stuck`:
  "the model makes no step", for the whole command (93 I11, 70_reset_and_hazards.md R220). Safe: a fault carries no
  state, so nothing can be claimed of a command that the random source has not answered (log entry 4). A hardware reset
  abandons the waiting command (R210, Machine/Port.lean). -/
  | drawStall
deriving DecidableEq, Repr

/-- Why the model gives a state or an instruction no meaning. -/
inductive Refusal where
  /-- Raised only by an arm of `exec` for an instruction that has no meaning yet. No arm does. Safe. -/
  | notModelled (mnemonic : String)
  /-- Raised by `step` on a state whose configuration violates 00_scope.md R8 or R9: "a model must refuse to build the
  machine for it" (93 I12). Safe: nothing is claimed of a machine that the spec says does not exist (log entry 8). -/
  | invalidConfiguration
deriving DecidableEq, Repr

/-- FSM, the ARQ sender state (10_state.md R21). -/
inductive Fsm where
  /-- `FSM = 0`. -/
  | idle
  /-- `FSM = 1`, the source's `active`. -/
  | transmitting
deriving DecidableEq, Repr

/-- A circular queue (10_state.md R27). Its capacity is the configuration's, not a field (00_scope.md R10). -/
structure Queue where
  /-- `slot[0..C-1]`. -/
  slot : List Byte
  /-- Index of the oldest entry. -/
  front : Byte
  /-- Index of the newest entry. -/
  rear : Byte
  /-- Number of entries. -/
  size : Byte
deriving DecidableEq, Repr

/-- An event of the event port (30_encoding.md R53). -/
inductive Event where
  /-- `Data(seq, unit, drop)`. -/
  | data (seq : Byte) (unit : Half) (drop : Bool)
  /-- `Ack(seq, drop)`. -/
  | ack (seq : Byte) (drop : Bool)
  /-- `Accept(seq)`. -/
  | accept (seq : Byte)
deriving DecidableEq, Repr

/-- The response status codes (30_encoding.md R52). -/
inductive Status where
  | ok
  | corrected
  | uncorrectable
  | qFull
  | qEmpty
  | busy
  | ctrlIgnored
  | idleIgnored
  | ackDropped
  | ackBadmark
  | ackNomatch
  | ackDuplicate
  | rxOutOfOrder
  | classAmbiguous
  | classNone
  | illegal
deriving DecidableEq, Repr

/-- A response: STATUS and DATA (30_encoding.md R52). -/
structure Response where
  status : Status
  data : BitVec 24
deriving DecidableEq, Repr

/-- What the environment can do to the block. -/
inductive Input where
  /-- The host offers a command word on the command port (30_encoding.md R50, R51). -/
  | command (w : Word)
  /-- `rst = 1` at a rising edge of `clk` (70_reset_and_hazards.md R210), with no command in progress, or with the one
  before it in progress because it waits for a draw. -/
  | hardReset
  /-- The host offers a command word, and `rst = 1` comes while that command is in progress, when the host has taken
  `events` of its events and the random source has given `draws` of its draws (R210, log entry 6). -/
  | abandoned (w : Word) (events draws : Nat)
deriving DecidableEq, Repr

/-- The state: the elements of 10_state.md R20, the build configuration (00_scope.md R8), and the ports (the model's own
fields, log entries 1, 3, 4 and 5). -/
structure State where
  /-- The build configuration; no command writes it (R8). -/
  cfg : Cfg
  /-- `FSM`. -/
  fsm : Fsm
  /-- `NEXT_SEQ`. -/
  nextSeq : Byte
  /-- `SENT_COUNT`. -/
  sentCount : Half
  /-- `RX_EXP`. -/
  rxExp : Byte
  /-- `ACK_TIMER`. -/
  ackTimer : Half
  /-- `TX_TIMER`. -/
  txTimer : Half
  /-- `TXQ`: the sender's unacknowledged window. -/
  txq : Queue
  /-- `ACKBIT`: bit i belongs to TXQ slot i (R29). -/
  ackbits : BitVec 16
  /-- `RXQ`: the receiver's delayed-ACK window. -/
  rxq : Queue
  /-- `ERR`: the sticky error bits (R32). -/
  err : BitVec 5
  /-- What the environment will do next, oldest first (log entry 3). -/
  inputs : List Input
  /-- The draws the random source will answer, next one first (30_encoding.md R54, log entry 4). -/
  draws : List Draw
  /-- Every event taken from the event port so far, oldest first (60_exceptions.md R200, log entry 5). -/
  events : List Event
  /-- Every response taken from the response port so far, oldest first (log entry 5). -/
  rsps : List Response
deriving DecidableEq, Repr

/-- What one step answers. -/
abbrev Result := Host.Outcome State Fault Refusal

/-- The empty queue after hardware reset (10_state.md R36). The slots are unspecified in the spec; zero is a DESIGN
CHOICE, unsafe (log entry 2). -/
def Queue.resetOf (capacity : Nat) : Queue where
  slot := List.replicate capacity 0#8
  front := 0#8
  rear := BitVec.ofNat 8 (capacity - 1)
  size := 0#8

/-- The state after hardware reset of a block built for `c` (10_state.md R36, 70_reset_and_hazards.md R212), with
nothing on its ports (log entries 3, 4 and 5). -/
def State.resetOf (c : Cfg) : State where
  cfg := c
  fsm := .idle
  nextSeq := BitVec.ofNat 8 c.base
  sentCount := 0#16
  rxExp := BitVec.ofNat 8 c.base
  ackTimer := 0#16
  txTimer := 0#16
  txq := Queue.resetOf c.w
  ackbits := 0#16
  rxq := Queue.resetOf c.d
  err := 0#5
  inputs := []
  draws := []
  events := []
  rsps := []

/-- The machine right after reset, for the configuration of log entry 1. -/
def State.reset : State := State.resetOf Cfg.resetCfg

end Sys2Proof.Machine
end

