-- ==== Sys2Proof/Machine/Operands.lean ====
section
/-! DEFINITION. What the operands of a command name: a queue and its capacity (30_encoding.md R59, 00_scope.md R10), a
register (45_system.md R181), and the fixed wire bytes (30_encoding.md R62, R63). -/

namespace Sys2Proof.Machine

/-- The queue a selector names (R59). -/
def State.queue (s : State) : QSel → Queue
  | .txq => s.txq
  | .rxq => s.rxq

/-- Replace the queue a selector names. -/
def State.setQueue (s : State) (sel : QSel) (q : Queue) : State :=
  match sel with
  | .txq => { s with txq := q }
  | .rxq => { s with rxq := q }

/-- `C_TX = W` and `C_RX = D` (R10). -/
def capacity (c : Cfg) : QSel → Nat
  | .txq => c.w
  | .rxq => c.d

/-- The registers REG.RD can name (R181). -/
inductive Reg where
  | status
  | err
  | nextSeq
  | sentCount
  | rxExp
  | ackTimer
  | txTimer
  | txqSize
  | txqFront
  | txqRear
  | txqAckbits
  | rxqSize
  | rxqFront
  | rxqRear
  | cfgWin
  | cfgRx
  | cfgMsg
  | cfgDatalen
deriving DecidableEq, Repr

/-- The register map, in order of number, 0x00 to 0x11 (R181). -/
def regMap : List Reg :=
  [ .status, .err, .nextSeq, .sentCount, .rxExp, .ackTimer, .txTimer, .txqSize, .txqFront, .txqRear, .txqAckbits,
    .rxqSize, .rxqFront, .rxqRear, .cfgWin, .cfgRx, .cfgMsg, .cfgDatalen ]

/-- The register of a number; none for a number above 0x11 (R56, R181). -/
def regOfNumber (r : Byte) : Option Reg := regMap[r.toNat]?

/-- The ack marker: the ASCII ACK control code (R62). -/
def ackMarker : Byte := 0x06#8

/-- First byte of the begin-experiment control signal (R63). -/
def startByte0 : Byte := 0x02#8

/-- Second byte of the begin-experiment control signal (R63). -/
def startByte1 : Byte := 0x47#8

end Sys2Proof.Machine
end

