-- ==== Sys2Proof/Machine/Flags.lean ====
section
/-! DEFINITION. The status bits of the block: ERR (60_exceptions.md R190), ACKBIT (10_state.md R29), EOM (R24), the
response status codes (30_encoding.md R52), and the register views made of them (45_system.md R181). -/

namespace Sys2Proof.Machine

/-! ## ERR -/

/-- The bits of ERR (R190). -/
inductive ErrBit where
  | fecFault
  | qFull
  | qEmpty
  | ambig
  | illegal
deriving DecidableEq, Repr

/-- The bit number in ERR (R190). -/
def ErrBit.number : ErrBit → Nat
  | .fecFault => 0
  | .qFull => 1
  | .qEmpty => 2
  | .ambig => 3
  | .illegal => 4

/-- `setERR(b)` (00_scope.md R12): the bit is sticky. -/
def setErr (b : ErrBit) (s : State) : State := { s with err := s.err ||| (1#5 <<< b.number) }

/-! ## ACKBIT -/

/-- `ACKBIT[i]` (R29). -/
def ackBit (s : State) (i : Nat) : Bool := s.ackbits.getLsbD i

/-- `ACKBIT[i] <- 1`. -/
def setAckBit (i : Nat) (s : State) : State := { s with ackbits := s.ackbits ||| (1#16 <<< i) }

/-- `ACKBIT[i] <- 0`. -/
def clearAckBit (i : Nat) (s : State) : State := { s with ackbits := s.ackbits &&& ~~~(1#16 <<< i) }

/-- `ACKBIT[i] <- 0` for all i. -/
def clearAckBits (s : State) : State := { s with ackbits := 0#16 }

/-! ## FSM, EOM and MODE -/

/-- FSM as a bit (R21). -/
def Fsm.bit : Fsm → BitVec 1
  | .idle => 0#1
  | .transmitting => 1#1

/-- `EOM = (SENT_COUNT = M)`, derived and not stored (R24). -/
def eom (s : State) : Bool := decide (s.sentCount.toNat = s.cfg.m)

/-- MODE in the STATUS register (R181). -/
def modeBits : Mode → BitVec 2
  | .sw => 0#2
  | .gbn => 1#2
  | .sr => 2#2
  | .slw => 3#2

/-! ## Response status codes -/

/-- The code of a status (R52). -/
def Status.code : Status → Byte
  | .ok => 0x00#8
  | .corrected => 0x01#8
  | .uncorrectable => 0x02#8
  | .qFull => 0x03#8
  | .qEmpty => 0x04#8
  | .busy => 0x05#8
  | .ctrlIgnored => 0x06#8
  | .idleIgnored => 0x07#8
  | .ackDropped => 0x08#8
  | .ackBadmark => 0x09#8
  | .ackNomatch => 0x0A#8
  | .ackDuplicate => 0x0B#8
  | .rxOutOfOrder => 0x0C#8
  | .classAmbiguous => 0x0D#8
  | .classNone => 0x0E#8
  | .illegal => 0xFF#8

/-- `rsp_data[31:24] = STATUS`, `rsp_data[23:0] = DATA` (R52). -/
def Response.word (r : Response) : Word := r.status.code.setWidth 32 <<< 24 ||| r.data.setWidth 32

/-! ## The register views -/

/-- ACKBIT[i] for i < C_TX, every other bit 0 (R181, log entry 11). -/
def ackBitsView (s : State) : BitVec 16 := s.ackbits &&& BitVec.ofNat 16 (2 ^ s.cfg.w - 1)

/-- `REGVAL(r)` (R181): every bit not listed is 0. -/
def regVal (s : State) : Reg → BitVec 24
  | .status =>
    (modeBits s.cfg.mode).setWidth 24 <<< 2 ||| (BitVec.ofBool (eom s)).setWidth 24 <<< 1 ||| s.fsm.bit.setWidth 24
  | .err => s.err.setWidth 24
  | .nextSeq => s.nextSeq.setWidth 24
  | .sentCount => s.sentCount.setWidth 24
  | .rxExp => s.rxExp.setWidth 24
  | .ackTimer => s.ackTimer.setWidth 24
  | .txTimer => s.txTimer.setWidth 24
  | .txqSize => s.txq.size.setWidth 24
  | .txqFront => s.txq.front.setWidth 24
  | .txqRear => s.txq.rear.setWidth 24
  | .txqAckbits => (ackBitsView s).setWidth 24
  | .rxqSize => s.rxq.size.setWidth 24
  | .rxqFront => s.rxq.front.setWidth 24
  | .rxqRear => s.rxq.rear.setWidth 24
  | .cfgWin =>
    (BitVec.ofNat 1 s.cfg.base).setWidth 24 <<< 16 ||| (BitVec.ofNat 8 s.cfg.lenm).setWidth 24 <<< 8 |||
      (BitVec.ofNat 8 s.cfg.w).setWidth 24
  | .cfgRx => (BitVec.ofNat 8 s.cfg.d).setWidth 24
  | .cfgMsg => (BitVec.ofNat 16 s.cfg.m).setWidth 24
  | .cfgDatalen => (BitVec.ofNat 16 s.cfg.dataLen).setWidth 24

end Sys2Proof.Machine
end

