-- ==== Sys2Proof/Machine/Ops.lean ====
section
/-! DEFINITION. The shared operations of the block: responding and emitting (30_encoding.md R52, R53), the ILLEGAL
outcome (R58) which stands where other machines take an exception, hardware reset (70_reset_and_hazards.md R210), the
queue primitives (40_queue.md R80 to R86), the loss simulator (43_arq.md R131, R132), and the ARQ procedures
(43_arq.md R130 to R139). There is no exception entry and no return from one (60_exceptions.md R193, R194). -/

namespace Sys2Proof.Machine

/-! ## Responses and events -/

/-- `respond(st, d)` (00_scope.md R12, 30_encoding.md R52). -/
def respond (st : Status) (d : BitVec 24) (s : State) : State := { s with rsps := s.rsps ++ [⟨st, d⟩] }

/-- `emit E` (00_scope.md R12, 30_encoding.md R53). -/
def emit (e : Event) (s : State) : State := { s with events := s.events ++ [e] }

/-! ## ILLEGAL, hardware reset and the command port -/

/-- The whole effect of an ILLEGAL command (30_encoding.md R58). -/
def illegal (s : State) : State := respond .illegal 0#24 (setErr .illegal s)

/-- Hardware reset of a running block (70_reset_and_hazards.md R210, R212): every element of the state record takes its
reset value. The configuration is not reset state; the ports' history and future stay; the slot contents stay as they
were (R211 d; DEDUCED, log entry 7). -/
def hardReset (s : State) : State :=
  { State.resetOf s.cfg with
    txq := { Queue.resetOf s.cfg.w with slot := s.txq.slot }
    rxq := { Queue.resetOf s.cfg.d with slot := s.rxq.slot }
    inputs := s.inputs
    draws := s.draws
    events := s.events
    rsps := s.rsps }

/-- The next input, and the state in which the port has taken it (30_encoding.md R50; log entry 3). -/
def nextInput (s : State) : Option (Input × State) :=
  match s.inputs with
  | [] => none
  | i :: rest => some (i, { s with inputs := rest })

/-- The host offers one command word before everything it was going to do, with the random source ready to answer
(70_reset_and_hazards.md R213 item 3): 256 draws of 0xFFFF stand behind those it would answer anyway, more than any
command takes. DESIGN CHOICE, log entry 12. -/
def offerCommand (w : Word) (s : State) : State :=
  { s with inputs := .command w :: s.inputs, draws := s.draws ++ List.replicate 256 0xFFFF#16 }

/-- Only a valid configuration is a machine; any other is refused (00_scope.md R8, R9; log entry 8). -/
def ifValid (c : Cfg) (r : Result) : Result := if c.valid then r else .refused .invalidConfiguration

/-! ## The sequence space -/

/-- `nextseq(s)` (10_state.md R26). -/
def nextSeqOf (c : Cfg) (x : Byte) : Byte :=
  if x.toNat = c.base + c.lenm - 1 then BitVec.ofNat 8 c.base else x + 1#8

/-! ## The queues -/

/-- `slot[i]`. Beyond the list (in no state a run reaches, log entry 10) it reads 0. -/
def Queue.slotAt (q : Queue) (i : Nat) : Byte := q.slot.getD i 0#8

/-- The slot index of the entry at offset j from the front (10_state.md R28). -/
def Queue.entryIndex (q : Queue) (cap j : Nat) : Nat := (q.front.toNat + j) % cap

/-- The entry at offset j from the front (10_state.md R28). -/
def Queue.entry (q : Queue) (cap j : Nat) : Byte := q.slotAt (q.entryIndex cap j)

/-- The empty state of `qclear`; slot contents stay (40_queue.md R80). -/
def Queue.cleared (q : Queue) (cap : Nat) : Queue :=
  { q with front := 0#8, rear := BitVec.ofNat 8 (cap - 1), size := 0#8 }

/-- The slot index the next enqueue writes: `(rear + 1) mod C` (40_queue.md R81). -/
def Queue.nextRear (q : Queue) (cap : Nat) : Nat := (q.rear.toNat + 1) % cap

/-- The queue after an enqueue that is not refused (40_queue.md R81). -/
def Queue.pushed (q : Queue) (cap : Nat) (v : Byte) : Queue :=
  { q with
    slot := q.slot.set (q.nextRear cap) v
    rear := BitVec.ofNat 8 (q.nextRear cap)
    size := q.size + 1#8 }

/-- The queue after a dequeue that is not refused; the removed value stays in its slot (40_queue.md R82). -/
def Queue.popped (q : Queue) (cap : Nat) : Queue :=
  { q with front := BitVec.ofNat 8 ((q.front.toNat + 1) % cap), size := q.size - 1#8 }

/-- `if Q = TXQ: ACKBIT[i] <- 0`. -/
def clearSlotAck (sel : QSel) (i : Nat) (s : State) : State :=
  match sel with
  | .txq => clearAckBit i s
  | .rxq => s

/-- `if Q = TXQ`, every ACKBIT is cleared. -/
def clearQueueAcks (sel : QSel) (s : State) : State :=
  match sel with
  | .txq => clearAckBits s
  | .rxq => s

/-- `qclear(Q)` (40_queue.md R80). -/
def qclear (sel : QSel) (s : State) : State :=
  clearQueueAcks sel (s.setQueue sel ((s.queue sel).cleared (capacity s.cfg sel)))

/-- What `qenq` returns (R81). -/
inductive EnqResult where
  | ok
  | full
deriving DecidableEq, Repr

/-- `qenq(Q, v)` (40_queue.md R81). -/
def qenq (sel : QSel) (v : Byte) (s : State) : EnqResult × State :=
  let cap := capacity s.cfg sel
  let q := s.queue sel
  if q.size.toNat = cap then (.full, setErr .qFull s)
  else (.ok, clearSlotAck sel (q.nextRear cap) (s.setQueue sel (q.pushed cap v)))

/-- What `qdeq` returns (R82). -/
inductive DeqResult where
  | ok
  | empty
deriving DecidableEq, Repr

/-- `qdeq(Q)` (40_queue.md R82). -/
def qdeq (sel : QSel) (s : State) : DeqResult × State :=
  let q := s.queue sel
  if q.size = 0#8 then (.empty, setErr .qEmpty s)
  else (.ok, (clearSlotAck sel q.front.toNat s).setQueue sel (q.popped (capacity s.cfg sel)))

/-- What `qfront` and `qrear` return (R83, R84). -/
inductive PeekResult where
  | value (v : Byte)
  | empty
deriving DecidableEq, Repr

/-- `qfront(Q)` (40_queue.md R83). -/
def qfront (sel : QSel) (s : State) : PeekResult × State :=
  let q := s.queue sel
  if q.size = 0#8 then (.empty, setErr .qEmpty s) else (.value (q.slotAt q.front.toNat), s)

/-- `qrear(Q)` (40_queue.md R84). -/
def qrear (sel : QSel) (s : State) : PeekResult × State :=
  let q := s.queue sel
  if q.size = 0#8 then (.empty, setErr .qEmpty s) else (.value (q.slotAt q.rear.toNat), s)

/-- `qsize(Q)` (40_queue.md R85). -/
def qsize (sel : QSel) (s : State) : Byte := (s.queue sel).size

/-- `qfind(Q, v)`: the least offset of an entry equal to v (40_queue.md R85). -/
def qfind (sel : QSel) (v : Byte) (s : State) : Option Nat :=
  (List.range (s.queue sel).size.toNat).find? fun j => (s.queue sel).entry (capacity s.cfg sel) j == v

/-- The BUSY guard: while `FSM = 1` only `respond(BUSY, 0)`, else the command (40_queue.md R86). -/
def unlessBusy (f : State → State) (s : State) : State :=
  match s.fsm with
  | .transmitting => respond .busy 0#24 s
  | .idle => f s

/-! ## The loss simulator -/

/-- `drop(u, P) = (u < P)` (43_arq.md R131). -/
def dropped (u : Draw) (p : Nat) : Bool := decide (u.toNat < p)

/-- `draw()` with the comparison against a threshold (43_arq.md R131, R132): the loss decision, and the state in which
the draw has been taken; none while the random source answers no draw (70_reset_and_hazards.md R220). -/
def drawLoss (p : Nat) (s : State) : Option (Bool × State) :=
  match s.draws with
  | [] => none
  | u :: rest => some (dropped u p, { s with draws := rest })

/-- The result of a command that takes draws: without its draws the whole command makes no step (R220). -/
def completing (o : Option State) : Result :=
  match o with
  | none => .fault .drawStall
  | some t => .next t

/-! ## ARQ procedures -/

/-- The DATA of `arqrsp`: `{0b0000000, FSM, TXQ.size[7:0], nev[7:0]}` (43_arq.md R130). -/
def arqData (s : State) (nev : Nat) : BitVec 24 :=
  s.fsm.bit.setWidth 24 <<< 16 ||| s.txq.size.setWidth 24 <<< 8 ||| (BitVec.ofNat 8 nev).setWidth 24

/-- `arqrsp(st)` at the end of a command that began in `s0`: `nev` counts the events since (43_arq.md R130). -/
def arqRsp (s0 : State) (st : Status) (s : State) : State :=
  respond st (arqData s (s.events.length - s0.events.length)) s

/-- `emit_data(s, u)` (43_arq.md R133). -/
def emitData (x : Byte) (u : Half) (s : State) : Option State :=
  match drawLoss s.cfg.pData s with
  | none => none
  | some (d, t) => some (emit (.data x u d) t)

/-- `send_new()` (43_arq.md R134). -/
def sendNew (s : State) : Option State :=
  match emitData s.nextSeq s.sentCount s with
  | none => none
  | some t =>
    let t := (qenq .txq s.nextSeq t).2
    some { t with nextSeq := nextSeqOf s.cfg s.nextSeq, sentCount := s.sentCount + 1#16 }

/-- `TXQ.size < W and SENT_COUNT < M`: the condition of every first transmission (43_arq.md R134, R135, R150). -/
def canSend (s : State) : Bool := decide (s.txq.size.toNat < s.cfg.w) && decide (s.sentCount.toNat < s.cfg.m)

/-- The loop of `fill()`, at most `n` times round (43_arq.md R135). -/
def fillLoop : Nat → State → Option State
  | 0, s => some s
  | n + 1, s =>
    if canSend s then
      match sendNew s with
      | none => none
      | some t => fillLoop n t
    else some s

/-- `fill()`: each round adds an entry to TXQ, so W rounds end the loop (43_arq.md R135). -/
def fill (s : State) : Option State := fillLoop s.cfg.w s

/-- Whether `retransmit()` re-emits the entry in slot i: every entry in SW and GBN, those without ACKBIT in SR and SLW
(43_arq.md R136). -/
def resends (s : State) (i : Nat) : Bool :=
  match s.cfg.mode with
  | .sw => true
  | .gbn => true
  | .sr => !ackBit s i
  | .slw => !ackBit s i

/-- The unit of the TXQ entry at offset j: `SENT_COUNT - TXQ.size + j` (10_state.md R30). -/
def unitOf (s : State) (j : Nat) : Half := s.sentCount - s.txq.size.setWidth 16 + BitVec.ofNat 16 j

/-- The body of `retransmit()` for the offsets listed, in that order (43_arq.md R136). -/
def retransmitAt : List Nat → State → Option State
  | [], s => some s
  | j :: js, s =>
    if resends s (s.txq.entryIndex s.cfg.w j) then
      match emitData (s.txq.entry s.cfg.w j) (unitOf s j) s with
      | none => none
      | some t => retransmitAt js t
    else retransmitAt js s

/-- `retransmit()` (43_arq.md R136). -/
def retransmit (s : State) : Option State := retransmitAt (List.range s.txq.size.toNat) s

/-- `check_done()` (43_arq.md R137). -/
def checkDone (s : State) : State :=
  if s.fsm = .transmitting ∧ s.sentCount.toNat = s.cfg.m ∧ s.txq.size = 0#8 then
    { s with fsm := .idle, ackTimer := 0#16, txTimer := 0#16 }
  else s

/-- `emit_ack()` (43_arq.md R138). -/
def emitAck (s : State) : Option State :=
  match drawLoss s.cfg.pAckOut s with
  | none => none
  | some (d, t) => some (qdeq .rxq (emit (.ack (s.rxq.slotAt s.rxq.front.toNat) d) t)).2

/-- The loop of ARQ.EOM, at most `n` times round (43_arq.md R158). -/
def drainLoop : Nat → State → Option State
  | 0, s => some s
  | n + 1, s =>
    if s.rxq.size = 0#8 then some s
    else
      match emitAck s with
      | none => none
      | some t => drainLoop n t

/-- `while RXQ.size > 0: emit_ack()`: each round pops an entry (43_arq.md R158). -/
def drain (s : State) : Option State := drainLoop s.rxq.size.toNat s

/-- `fires(t, T) = (t * TICK_MS > T)`, over the integers (43_arq.md R139). -/
def fires (c : Cfg) (t : Half) (threshold : Nat) : Bool := decide (threshold < t.toNat * c.tickMs)

/-- The assignments that the ARQ reset signal and ARQ.DISC share: both windows and both timers cleared, the counters at
their starting values (43_arq.md R140, R160). -/
def resetSession (s : State) : State :=
  { qclear .rxq (qclear .txq s) with
    ackTimer := 0#16
    txTimer := 0#16
    nextSeq := BitVec.ofNat 8 s.cfg.base
    sentCount := 0#16
    rxExp := BitVec.ofNat 8 s.cfg.base }

/-! ### Taking an ACK -/

/-- The outcome of matching an ACK against the window (43_arq.md R145). -/
inductive AckResult where
  /-- The sequence number matches no entry the mode may take. -/
  | noMatch
  /-- SR and SLW: the entry's ACK was already taken. -/
  | duplicate
  /-- ACK progress, and the window after it. -/
  | progress (s : State)

/-- `repeat n times: qdeq(TXQ)`. -/
def popTimes : Nat → State → State
  | 0, s => s
  | n + 1, s => popTimes n (qdeq .txq s).2

/-- The loop `while TXQ.size > 0 and ACKBIT[TXQ.front] = 1: qdeq(TXQ)`, at most `n` times round. -/
def slideLoop : Nat → State → State
  | 0, s => s
  | n + 1, s =>
    if s.txq.size = 0#8 then s
    else if ackBit s s.txq.front.toNat then slideLoop n (qdeq .txq s).2
    else s

/-- Slide the window over its acknowledged prefix; each round pops an entry. -/
def slide (s : State) : State := slideLoop s.txq.size.toNat s

/-- SW: only the front entry (R145). -/
def takeAckFront (x : Byte) (s : State) : AckResult :=
  if s.txq.size ≠ 0#8 ∧ s.txq.slotAt s.txq.front.toNat = x then .progress (qdeq .txq s).2 else .noMatch

/-- GBN: cumulative, the entry found and every earlier one (R145). -/
def takeAckCumulative (x : Byte) (s : State) : AckResult :=
  match qfind .txq x s with
  | none => .noMatch
  | some j => .progress (popTimes (j + 1) s)

/-- SR and SLW: the entry found is marked, then the marked prefix leaves (R145). -/
def takeAckSelective (x : Byte) (s : State) : AckResult :=
  match qfind .txq x s with
  | none => .noMatch
  | some j =>
    if ackBit s (s.txq.entryIndex s.cfg.w j) then .duplicate
    else .progress (slide (setAckBit (s.txq.entryIndex s.cfg.w j) s))

/-- `case MODE of` in R145. -/
def takeAck (x : Byte) (s : State) : AckResult :=
  match s.cfg.mode with
  | .sw => takeAckFront x s
  | .gbn => takeAckCumulative x s
  | .sr => takeAckSelective x s
  | .slw => takeAckSelective x s

/-! ### One tick -/

/-- The increments of ARQ.TICK: ACK_TIMER only while TXQ is non-empty (43_arq.md R150). -/
def countTick (s : State) : State :=
  { s with
    ackTimer := if s.txq.size = 0#8 then s.ackTimer else s.ackTimer + 1#16
    txTimer := s.txTimer + 1#16 }

/-- The ACK timer's test, and what it fires (43_arq.md R150). -/
def ackTimerTest (s : State) : Option State :=
  if s.txq.size ≠ 0#8 ∧ fires s.cfg s.ackTimer s.cfg.ackTimeout then retransmit { s with ackTimer := 0#16 } else some s

/-- The transmit timer's test, and what it fires (43_arq.md R150). -/
def txTimerTest (s : State) : Option State :=
  if fires s.cfg s.txTimer s.cfg.txTimeout then
    if canSend s then sendNew { s with txTimer := 0#16 } else some { s with txTimer := 0#16 }
  else some s

/-! ## The port view of an event -/

/-- `ev_kind` (30_encoding.md R53). -/
def Event.kind : Event → BitVec 2
  | .data _ _ _ => 0#2
  | .ack _ _ => 1#2
  | .accept _ => 2#2

/-- `ev_seq` (R53). -/
def Event.seq : Event → Byte
  | .data x _ _ => x
  | .ack x _ => x
  | .accept x => x

/-- The event's frame goes through the loss simulator: DATA and ACK events (43_arq.md R132). -/
def Event.lossy : Event → Bool
  | .data _ _ _ => true
  | .ack _ _ => true
  | .accept _ => false

/-- `ev_unit`: the unit of a DATA event, else 0 (R50, R53). -/
def Event.unit : Event → Half
  | .data _ u _ => u
  | .ack _ _ => 0#16
  | .accept _ => 0#16

/-- `ev_drop`: the loss decision, 0 for ACCEPT (R53). -/
def Event.drop : Event → Bool
  | .data _ _ d => d
  | .ack _ d => d
  | .accept _ => false

end Sys2Proof.Machine
end

