-- ==== Sys2Proof/Machine/Arq.lean ====
section
/-! DEFINITION. The ARQ engine family (43_arq.md R140 to R160), over the procedures of Machine/Ops.lean. -/

namespace Sys2Proof.Machine

/-- The state in which the ARQ reset signal starts to fill the window (R140). -/
def startSession (s : State) : State := { resetSession s with fsm := .transmitting }

/-- `ARQ.CTRL b0, b1` (R140, R141). -/
def execArqCtrl (b0 b1 : Byte) (s : State) : Result :=
  if b0 = startByte0 ∧ b1 = startByte1 then
    completing ((fill (startSession s)).map fun t => arqRsp s .ok (checkDone t))
  else .next (arqRsp s .ctrlIgnored s)

/-- An in-order frame: `emit Accept(seq)`, `RX_EXP <- nextseq(RX_EXP)` (R155). -/
def acceptFrame (x : Byte) (s : State) : State :=
  { emit (.accept x) s with rxExp := nextSeqOf s.cfg s.rxExp }

/-- The status of an accepted frame: Q_FULL when the enqueue is refused (R155). -/
def acceptStatus : EnqResult → Status
  | .ok => .ok
  | .full => .qFull

/-- `if RXQ.size >= D: emit_ack()` (R155). -/
def ackWhenDeep (s : State) : Option State := if s.cfg.d ≤ s.rxq.size.toNat then emitAck s else some s

/-- `ARQ.RXDATA seq` (R155). -/
def execArqRxdata (x : Byte) (s : State) : Result :=
  if x ≠ s.rxExp then .next (arqRsp s .rxOutOfOrder s)
  else
    match qenq .rxq x (acceptFrame x s) with
    | (r, t) => completing ((ackWhenDeep t).map (arqRsp s (acceptStatus r)))

/-- What follows ACK progress: `ACK_TIMER <- 0; check_done()` (R145). -/
def ackProgress (s : State) : State := checkDone { s with ackTimer := 0#16 }

/-- `ARQ.RXACK seq, mark`, after the channel delivered it (R145). -/
def deliverAck (x mark : Byte) (s0 s : State) : State :=
  if mark ≠ ackMarker then arqRsp s0 .ackBadmark s
  else
    match takeAck x s with
    | .noMatch => arqRsp s0 .ackNomatch s
    | .duplicate => arqRsp s0 .ackDuplicate s
    | .progress t => arqRsp s0 .ok (ackProgress t)

/-- `ARQ.RXACK seq, mark` (R145): the checks in the order of 60_exceptions.md R192. -/
def execArqRxack (x mark : Byte) (s : State) : Result :=
  match s.fsm with
  | .idle => .next (arqRsp s .idleIgnored s)
  | .transmitting =>
    match drawLoss s.cfg.pAckIn s with
    | none => .fault .drawStall
    | some (true, t) => .next (arqRsp s .ackDropped t)
    | some (false, t) => .next (deliverAck x mark s t)

/-- `ARQ.TICK` (R150): the ACK timer is tested before the transmit timer. -/
def execArqTick (s : State) : Result :=
  match s.fsm with
  | .idle => .next (arqRsp s .idleIgnored s)
  | .transmitting => completing (((ackTimerTest (countTick s)).bind txTimerTest).map (arqRsp s .ok))

/-- `ARQ.EOM` (R158). -/
def execArqEom (s : State) : Result := completing ((drain s).map (arqRsp s .ok))

/-- `ARQ.DISC` (R160). -/
def execArqDisc (s : State) : Result := .next (arqRsp s .ok { resetSession s with fsm := .idle })

end Sys2Proof.Machine
end

