-- ==== Sys2Proof/Machine/Fec.lean ====
section
/-! DEFINITION. The block-code codec family (41_fec.md R107 to R110), over the code of the configuration. -/

namespace Sys2Proof.Machine

/-- `FEC.ENC sym` (R107). -/
def execFecEnc (sym : Symbol) (s : State) : Result :=
  .next (respond .ok ((enc s.cfg.code sym).setWidth 24) s)

/-- `FEC.SYN cw` (R108). -/
def execFecSyn (cw : Codeword) (s : State) : Result :=
  .next (respond .ok ((syn s.cfg.code cw).setWidth 24) s)

/-- The DATA of FEC.COR: `{0b00000, p[2:0], 0b00000, s, 0b00, c}` (R109). -/
def corData (p : BitVec 3) (sy : Syndrome) (c : Codeword) : BitVec 24 :=
  p.setWidth 24 <<< 16 ||| sy.setWidth 24 <<< 8 ||| c.setWidth 24

/-- `FEC.COR cw` (R109). -/
def execFecCor (cw : Codeword) (s : State) : Result :=
  match cor s.cfg.code cw with
  | .clean c => .next (respond .ok (corData 0#3 (syn s.cfg.code cw) c) s)
  | .fixed c p => .next (respond .corrected (corData (BitVec.ofNat 3 p.val) (syn s.cfg.code cw) c) s)
  | .uncorrectable =>
    .next (respond .uncorrectable (corData 0#3 (syn s.cfg.code cw) 0#6) (setErr .fecFault s))

/-- `FEC.DEC cw` (R110). -/
def execFecDec (cw : Codeword) (s : State) : Result :=
  .next (respond .ok ((dec s.cfg.code cw).setWidth 24) s)

end Sys2Proof.Machine
end

