-- ==== Sys2Proof/Machine/Frame.lean ====
section
/-! DEFINITION. The frame classification family (42_frame.md R120). -/

namespace Sys2Proof.Machine

/-- What the length rule says of a buffer (R120). -/
inductive FrameClass where
  | dataFrames (count : Nat)
  | ackFrames (count : Nat)
  | ambiguous
  | unclassified
deriving DecidableEq, Repr

/-- `SD`: the size of a data frame (R120, 30_encoding.md R61). -/
def dataFrameSize (c : Cfg) : Nat := c.dataLen + 1

/-- `SA`: the size of an ACK frame (R120, 30_encoding.md R62). -/
def ackFrameSize : Nat := 2

/-- The length rule, with its distinct ambiguous outcome (R120). -/
def classify (c : Cfg) (len : Nat) : FrameClass :=
  let isD := decide (0 < len ∧ len % dataFrameSize c = 0)
  let isA := decide (0 < len ∧ len % ackFrameSize = 0)
  if isD && isA then .ambiguous
  else if isD then .dataFrames (len / dataFrameSize c)
  else if isA then .ackFrames (len / ackFrameSize)
  else .unclassified

/-- `{0b000000, kind, count}` (R120). -/
def classData (kind : BitVec 2) (count : Nat) : BitVec 24 :=
  kind.setWidth 24 <<< 16 ||| (BitVec.ofNat 16 count).setWidth 24

/-- `FRM.CLASS len` (R120). -/
def execFrmClass (len : Half) (s : State) : Result :=
  match classify s.cfg len.toNat with
  | .ambiguous => .next (respond .classAmbiguous 0#24 (setErr .ambig s))
  | .dataFrames n => .next (respond .ok (classData 1#2 n) s)
  | .ackFrames n => .next (respond .ok (classData 2#2 n) s)
  | .unclassified => .next (respond .classNone 0#24 s)

end Sys2Proof.Machine
end

