-- ==== Sys2Proof/Machine/QueueCmd.lean ====
section
/-! DEFINITION. The circular queue family (40_queue.md R87 to R92), over the primitives of Machine/Ops.lean. -/

namespace Sys2Proof.Machine

/-- `Q.ENQ` past the BUSY guard (R87). -/
def enqCommand (q : QSel) (v : Byte) (s : State) : State :=
  match qenq q v s with
  | (.ok, t) => respond .ok ((qsize q t).setWidth 24) t
  | (.full, t) => respond .qFull (BitVec.ofNat 24 (capacity s.cfg q)) t

/-- `Q.ENQ q, v` (R86, R87). -/
def execQEnq (q : QSel) (v : Byte) (s : State) : Result := .next (unlessBusy (enqCommand q v) s)

/-- `Q.DEQ` past the BUSY guard (R88): the response carries no value. -/
def deqCommand (q : QSel) (s : State) : State :=
  match qdeq q s with
  | (.ok, t) => respond .ok ((qsize q t).setWidth 24) t
  | (.empty, t) => respond .qEmpty 0#24 t

/-- `Q.DEQ q` (R86, R88). -/
def execQDeq (q : QSel) (s : State) : Result := .next (unlessBusy (deqCommand q) s)

/-- The response to a read of one end of a queue (R89, R90). -/
def peekResponse : PeekResult × State → State
  | (.value v, t) => respond .ok (v.setWidth 24) t
  | (.empty, t) => respond .qEmpty 0#24 t

/-- `Q.FRONT q` (R89). -/
def execQFront (q : QSel) (s : State) : Result := .next (peekResponse (qfront q s))

/-- `Q.REAR q` (R90). -/
def execQRear (q : QSel) (s : State) : Result := .next (peekResponse (qrear q s))

/-- `Q.CLEAR` past the BUSY guard (R91). -/
def clearCommand (q : QSel) (s : State) : State := respond .ok 0#24 (qclear q s)

/-- `Q.CLEAR q` (R86, R91). -/
def execQClear (q : QSel) (s : State) : Result := .next (unlessBusy (clearCommand q) s)

/-- `Q.SIZE q` (R92). -/
def execQSize (q : QSel) (s : State) : Result := .next (respond .ok ((qsize q s).setWidth 24) s)

end Sys2Proof.Machine
end

