-- ==== Sys2Proof/Machine/System.lean ====
section
/-! DEFINITION. The system family (45_system.md R180 to R182). -/

namespace Sys2Proof.Machine

/-- `NOP` (R180). -/
def execNop (s : State) : Result := .next (respond .ok 0#24 s)

/-- `REG.RD r` (R181): a number above 0x11 is ILLEGAL. -/
def execRegRd (r : Byte) (s : State) : Result :=
  match regOfNumber r with
  | none => .next (illegal s)
  | some reg => .next (respond .ok (regVal s reg) s)

/-- `ERR <- ERR AND NOT mask` (R182). -/
def clearErr (mask : BitVec 5) (s : State) : State := { s with err := s.err &&& ~~~mask }

/-- `REG.CLRERR mask` (R182): the response carries ERR after clearing. -/
def execRegClrerr (mask : BitVec 5) (s : State) : Result :=
  .next (respond .ok ((clearErr mask s).err.setWidth 24) (clearErr mask s))

end Sys2Proof.Machine
end

