-- ==== Sys2Proof/Machine/Dispatch.lean ====
section
/-! DEFINITION. One arm per command, each one call of its meaning. -/

namespace Sys2Proof.Machine

def exec (i : Instr) (s : State) : Host.Outcome State Fault Refusal :=
  match i with
  | .nop => Sys2Proof.Machine.execNop s
  | .fecEnc sym => Sys2Proof.Machine.execFecEnc sym s
  | .fecSyn cw => Sys2Proof.Machine.execFecSyn cw s
  | .fecCor cw => Sys2Proof.Machine.execFecCor cw s
  | .fecDec cw => Sys2Proof.Machine.execFecDec cw s
  | .qEnq q v => Sys2Proof.Machine.execQEnq q v s
  | .qDeq q => Sys2Proof.Machine.execQDeq q s
  | .qFront q => Sys2Proof.Machine.execQFront q s
  | .qRear q => Sys2Proof.Machine.execQRear q s
  | .qClear q => Sys2Proof.Machine.execQClear q s
  | .qSize q => Sys2Proof.Machine.execQSize q s
  | .frmClass len => Sys2Proof.Machine.execFrmClass len s
  | .arqCtrl b0 b1 => Sys2Proof.Machine.execArqCtrl b0 b1 s
  | .arqRxdata seq => Sys2Proof.Machine.execArqRxdata seq s
  | .arqRxack seq mark => Sys2Proof.Machine.execArqRxack seq mark s
  | .arqTick => Sys2Proof.Machine.execArqTick s
  | .arqEom => Sys2Proof.Machine.execArqEom s
  | .arqDisc => Sys2Proof.Machine.execArqDisc s
  | .regRd r => Sys2Proof.Machine.execRegRd r s
  | .regClrerr mask => Sys2Proof.Machine.execRegClrerr mask s

end Sys2Proof.Machine
end

