-- ==== Sys2Proof/Machine/Port.lean ====
section
/-! DEFINITION. What the block does with an input of its ports (30_encoding.md R50): a command word run to completion, and
a command that a hardware reset abandons (70_reset_and_hazards.md R210, R220). -/

namespace Sys2Proof.Machine

/-- A command word run to completion: an undefined or malformed word is ILLEGAL (30_encoding.md R57, R58). -/
def runWord (w : Word) (s : State) : Result :=
  match decode w with
  | .ok i => exec i s
  | .error _ => .next (illegal s)

/-! ## A command that a hardware reset abandons -/

/-- The state with 256 further draws, more than any command takes: what the whole command would do. No event that depends
on one of them is ever presented. -/
def answering (s : State) : State := { s with draws := s.draws ++ List.replicate 256 0#16 }

/-- The events that the block can have presented when it has taken `n` draws, in emission order: an event that depends on
a draw is presented only after that draw has been taken (30_encoding.md R50). -/
def presentable : Nat → List Event → List Event
  | _, [] => []
  | n, e :: es =>
    if e.lossy then
      match n with
      | 0 => []
      | n + 1 => e :: presentable n es
    else e :: presentable n es

/-- A hardware reset during the command `w`: no response, the events not yet transferred are lost, and every state element
takes its reset value (70_reset_and_hazards.md R210). The host has taken up to `nEvents` events and the random source has
given up to `nDraws` draws; neither number exceeds what the command could have come to
(DESIGN CHOICE, log entry 6). -/
def abandon (w : Word) (nEvents nDraws : Nat) (s : State) : State :=
  match runWord w (answering s) with
  | .next t =>
    let taken := min nDraws (min ((answering s).draws.length - t.draws.length) s.draws.length)
    hardReset { s with
      draws := s.draws.drop taken
      events := s.events ++ (presentable taken (t.events.drop s.events.length)).take nEvents }
  | .fault _ => hardReset s
  | .refused _ => hardReset s

/-- A command that waits for a draw waits without limit (70_reset_and_hazards.md R220), unless the next thing to happen is
a hardware reset: that abandons it, after the host has taken every event presented (one ACCEPT at most, and one event a
draw): DESIGN CHOICE, unsafe, log entry 6. -/
def abandonIfStalled (w : Word) (s : State) (r : Result) : Result :=
  match r with
  | .fault .drawStall =>
    match nextInput s with
    | some (.hardReset, t) => .next (abandon w (t.draws.length + 1) t.draws.length t)
    | some (.command _, _) => r
    | some (.abandoned _ _ _, _) => r
    | none => r
  | .next _ => r
  | .refused _ => r

/-- The command taken from the port, in the state after it is taken. -/
def runCommand (w : Word) (s : State) : Result := abandonIfStalled w s (runWord w s)

end Sys2Proof.Machine
end

