-- ==== Sys2Proof/Machine/Step.lean ====
section
/-! DEFINITION. One step of the block: the next input is taken and run to completion (00_scope.md R3, 20_memory.md
R48). The block fetches nothing (10_state.md R34): a command comes from the command port (log entry 3). -/

namespace Sys2Proof.Machine

/-- One step. An invalid configuration is refused (00_scope.md R8). With no input the block waits and holds its state
(60_exceptions.md R201). A command that must wait for a draw makes no step (`Fault.drawStall`), unless a hardware reset
abandons it. -/
def step (s : State) : Host.Outcome State Fault Refusal :=
  match nextInput s with
  | none => ifValid s.cfg (.next s)
  | some (.hardReset, t) => ifValid s.cfg (.next (hardReset t))
  | some (.command w, t) => ifValid s.cfg (runCommand w t)
  | some (.abandoned w nEvents nDraws, t) => ifValid s.cfg (.next (abandon w nEvents nDraws t))

/-- The host offers the table's word `w` (its low `nbits` bits, zero above) as the very next command. -/
def State.withFetchWord (s : State) (nbits w : Nat) : State := offerCommand (BitVec.ofNat 32 (w % 2 ^ nbits)) s

end Sys2Proof.Machine
end

