-- ==== Sys2Proof/Machine/Asm.lean ====
section
/-! DEFINITION. The assembler syntax and the pseudo-instructions (30_encoding.md R67, R68): one command per line,
`MNEMONIC operand, operand`, a semicolon starting a comment. What R67 leaves open is in log entry 17. The machine's
step does not use this file. -/

namespace Sys2Proof.Machine

/-! ## Pseudo-instructions -/

/-- `ARQ.START` (R68). -/
def arqStart : List Instr := [.arqCtrl startByte0 startByte1]

/-- `ARQ.ACK seq` (R68). -/
def arqAck (x : Byte) : List Instr := [.arqRxack x ackMarker]

/-- `ARQ.TICKS n` (R68). -/
def arqTicks (n : Nat) : List Instr := List.replicate n .arqTick

/-- `REG.CLRALL` (R68). -/
def regClrall : List Instr := [.regClrerr 0x1F#5]

/-! ## Operands in text -/

/-- The value of a digit, up to 15. -/
def digitValue (ch : Char) : Option Nat :=
  ['0', '1', '2', '3', '4', '5', '6', '7', '8', '9', 'a', 'b', 'c', 'd', 'e', 'f'].findIdx? (· == ch.toLower)

/-- A number's digits in a base, after those already read. -/
def readDigits (base : Nat) : Nat → List Char → Option Nat
  | acc, [] => some acc
  | acc, ch :: rest =>
    match digitValue ch with
    | none => none
    | some d => if d < base then readDigits base (acc * base + d) rest else none

/-- Decimal, `0x` hex or `0b` binary (R67). -/
def readNumber : List Char → Option Nat
  | [] => none
  | ['0', 'x'] => none
  | ['0', 'b'] => none
  | '0' :: 'x' :: ds => readDigits 16 0 ds
  | '0' :: 'b' :: ds => readDigits 2 0 ds
  | ds => readDigits 10 0 ds

/-- A number that fits an operand field of n bits. -/
def readField (n : Nat) (cs : List Char) : Option (BitVec n) :=
  match readNumber cs with
  | none => none
  | some v => if v < 2 ^ n then some (BitVec.ofNat n v) else none

/-- `TXQ` or `RXQ` (R67). -/
def readQueue (cs : List Char) : Option QSel :=
  if cs = "TXQ".toList then some .txq else if cs = "RXQ".toList then some .rxq else none

/-- The names of the registers, in order of number (45_system.md R181). -/
def regNames : List String :=
  [ "STATUS", "ERR", "NEXT_SEQ", "SENT_COUNT", "RX_EXP", "ACK_TIMER", "TX_TIMER", "TXQ_SIZE", "TXQ_FRONT", "TXQ_REAR",
    "TXQ_ACKBITS", "RXQ_SIZE", "RXQ_FRONT", "RXQ_REAR", "CFG_WIN", "CFG_RX", "CFG_MSG", "CFG_DATALEN" ]

/-- A register's number or its name (R67). -/
def readReg (cs : List Char) : Option Byte :=
  match regNames.findIdx? (fun n => n.toList == cs) with
  | some i => some (BitVec.ofNat 8 i)
  | none =>
    match readField 8 cs with
    | none => none
    | some r => if r ≤ maxReg then some r else none

/-! ## Lines -/

/-- White space inside a line. -/
def isBlank (ch : Char) : Bool := ch == ' ' || ch == '\t' || ch == '\r'

/-- Without the white space at both ends. -/
def trimChars (cs : List Char) : List Char := ((cs.dropWhile isBlank).reverse.dropWhile isBlank).reverse

/-- The operands of a line, separated by commas. -/
def operandsOf (cs : List Char) : List (List Char) :=
  if (trimChars cs).isEmpty then [] else (cs.splitOn ',').map trimChars

/-- The commands of a mnemonic and its operands, in the operand order of R67; pseudo-instructions expand (R68). -/
def commandsOf (name : List Char) (args : List (List Char)) : Option (List Instr) :=
  match args with
  | [] =>
    if name = "NOP".toList then some [.nop]
    else if name = "ARQ.TICK".toList then some [.arqTick]
    else if name = "ARQ.EOM".toList then some [.arqEom]
    else if name = "ARQ.DISC".toList then some [.arqDisc]
    else if name = "ARQ.START".toList then some arqStart
    else if name = "REG.CLRALL".toList then some regClrall
    else none
  | [a] =>
    if name = "FEC.ENC".toList then (readField 3 a).map fun v => [.fecEnc v]
    else if name = "FEC.SYN".toList then (readField 6 a).map fun v => [.fecSyn v]
    else if name = "FEC.COR".toList then (readField 6 a).map fun v => [.fecCor v]
    else if name = "FEC.DEC".toList then (readField 6 a).map fun v => [.fecDec v]
    else if name = "Q.DEQ".toList then (readQueue a).map fun q => [.qDeq q]
    else if name = "Q.FRONT".toList then (readQueue a).map fun q => [.qFront q]
    else if name = "Q.REAR".toList then (readQueue a).map fun q => [.qRear q]
    else if name = "Q.CLEAR".toList then (readQueue a).map fun q => [.qClear q]
    else if name = "Q.SIZE".toList then (readQueue a).map fun q => [.qSize q]
    else if name = "FRM.CLASS".toList then (readField 16 a).map fun v => [.frmClass v]
    else if name = "ARQ.RXDATA".toList then (readField 8 a).map fun v => [.arqRxdata v]
    else if name = "REG.RD".toList then (readReg a).map fun r => [.regRd r]
    else if name = "REG.CLRERR".toList then (readField 5 a).map fun v => [.regClrerr v]
    else if name = "ARQ.ACK".toList then (readField 8 a).map arqAck
    else if name = "ARQ.TICKS".toList then (readNumber a).map arqTicks
    else none
  | [a, b] =>
    if name = "Q.ENQ".toList then
      match readQueue a, readField 8 b with
      | some q, some v => some [.qEnq q v]
      | _, _ => none
    else if name = "ARQ.CTRL".toList then
      match readField 8 a, readField 8 b with
      | some x, some y => some [.arqCtrl x y]
      | _, _ => none
    else if name = "ARQ.RXACK".toList then
      match readField 8 a, readField 8 b with
      | some x, some y => some [.arqRxack x y]
      | _, _ => none
    else none
  | _ => none

/-- The commands of one line; none for a line that is not of the syntax. -/
def assembleLine (line : List Char) : Option (List Instr) :=
  let code := trimChars (line.takeWhile (· != ';'))
  if code.isEmpty then some []
  else commandsOf (code.takeWhile fun ch => !isBlank ch) (operandsOf (code.dropWhile fun ch => !isBlank ch))

/-- The commands of consecutive lines. -/
def assembleLines : List (List Char) → Option (List Instr)
  | [] => some []
  | l :: ls =>
    match assembleLine l, assembleLines ls with
    | some a, some b => some (a ++ b)
    | _, _ => none

/-- A source text as commands (R67). -/
def assemble (text : String) : Option (List Instr) := assembleLines (text.toList.splitOn '\n')

/-- A source text as command words (R67, R68). -/
def assembleWords (text : String) : Option (List Word) := (assemble text).map (·.map encode)

end Sys2Proof.Machine
end

