-- ==== Sys2Proof/Machine/Wire.lean ====
section
/-! DEFINITION. The wire side of the block's contract with its host: the frame layouts of 30_encoding.md R61 to R63, what
the host sends for an event (R64), and how the host turns a received buffer into commands (42_frame.md R121, R122).
The machine's step does not use this file (log entry 16). -/

namespace Sys2Proof.Machine

/-- `[sequence: 1 byte][payload: DATALEN bytes]`, "total size DATALEN+1" (R61). -/
def dataFrame (c : Cfg) (x : Byte) (payload : Vector Byte c.dataLen) : List Byte := x :: payload.toList

/-- `[sequence: 1 byte][ack_marker: 1 byte]` (R62). -/
def ackFrame (x : Byte) : List Byte := [x, ackMarker]

/-- The begin-experiment control signal `[0x02, 0x47]` (R63). -/
def startSignal : List Byte := [startByte0, startByte1]

/-- What the host sends to the peer for an event: the frame of an undropped DATA or ACK event, else nothing (R64). The
payloads of the message units, DATALEN bytes each, are the external message store's (00_scope.md R6). -/
def wireFrame (c : Cfg) (payloadOf : Half → Vector Byte c.dataLen) : Event → Option (List Byte)
  | .data x u false => some (dataFrame c x (payloadOf u))
  | .data _ _ true => none
  | .ack x false => some (ackFrame x)
  | .ack _ true => none
  | .accept _ => none

/-- The first `n` frames of `size` bytes of a buffer, in buffer order: frame i is bytes `i·S .. i·S+S-1` (R121). -/
def cutFrames (size : Nat) : Nat → List Byte → List (List Byte)
  | 0, _ => []
  | n + 1, buf => buf.take size :: cutFrames size n (buf.drop size)

/-- The command for one data frame: the block sees only the sequence byte (R64, R121). -/
def rxdataOf (frame : List Byte) : Instr := .arqRxdata (frame.getD 0 0#8)

/-- The command for one ACK frame (R121, 20_memory.md R42). -/
def rxackOf (frame : List Byte) : Instr := .arqRxack (frame.getD 0 0#8) (frame.getD 1 0#8)

/-- The commands the host issues for a received buffer of frames: one a frame, in order (R121); none for a buffer that is
ambiguous (R122) or fits no frame (93 I14). DESIGN CHOICE, log entry 21: a buffer longer than 65535 bytes, which FRM.CLASS
cannot be asked about, is classified by its length as an integer and cut all the same. -/
def bufferCommands (c : Cfg) (buf : List Byte) : List Instr :=
  match classify c buf.length with
  | .dataFrames n => (cutFrames (dataFrameSize c) n buf).map rxdataOf
  | .ackFrames n => (cutFrames ackFrameSize n buf).map rxackOf
  | .ambiguous => []
  | .unclassified => []

/-- The command the host passes the begin-experiment control signal on as (R63). -/
def startCommand : Instr := .arqCtrl startByte0 startByte1

/-- The commands the host issues for whatever it has received. A buffer that is exactly the begin-experiment signal is that
signal (R63), before any length rule. DESIGN CHOICE, log entry 20: the spec does not say how the host tells the signal
from one ACK frame of the same two bytes, nor, with DATALEN = 1, from one data frame of these two bytes, where the length
rule alone makes the buffer ambiguous and R122 drops it; the signal is taken. Every other buffer is one of frames (R121). -/
def receivedCommands (c : Cfg) (buf : List Byte) : List Instr :=
  if buf = startSignal then [startCommand] else bufferCommands c buf

end Sys2Proof.Machine
end

