-- ==== Sys2Proof/Safety.lean ====
section
/-! DEFINITION. What statements about the machine are said with: the invariants of 10_state.md R22 to R31, the window
bound of 43_arq.md R165, equality up to slots that hold no entry (R28), and the numbers and lists that statements
compute from a state. -/

namespace Sys2Proof.Machine

/-! ## Queues (10_state.md R27) -/

/-- The invariants of R27 for a queue of capacity `cap`. -/
structure Queue.Wf (cap : Nat) (q : Queue) : Prop where
  slots : q.slot.length = cap
  size_le : q.size.toNat ≤ cap
  front_lt : q.front.toNat < cap
  rear_lt : q.rear.toNat < cap
  rear_eq : q.rear.toNat = (q.front.toNat + q.size.toNat + cap - 1) % cap

/-- Slot `i` holds an entry (R28). -/
def Queue.holds (cap : Nat) (q : Queue) (i : Nat) : Prop := ∃ j, j < q.size.toNat ∧ q.entryIndex cap j = i

/-- Both queues are well formed for the capacities of the configuration (R10, R27). -/
structure QueuesWf (s : State) : Prop where
  txq : s.txq.Wf s.cfg.w
  rxq : s.rxq.Wf s.cfg.d

/-! ## The sequence space (10_state.md R22, R26, R30) -/

/-- `BASE..BASE+LENM-1` (R26). -/
def inSeqSpace (c : Cfg) (x : Byte) : Prop := c.base ≤ x.toNat ∧ x.toNat ≤ c.base + c.lenm - 1

/-- The sequence number of unit u: `BASE + (u mod LENM)` (R30, R166). -/
def seqOfUnit (c : Cfg) (u : Nat) : Byte := BitVec.ofNat 8 (c.base + u % c.lenm)

/-- The unit of the TXQ entry at offset j, over the integers (R30). -/
def unitAt (s : State) (j : Nat) : Nat := s.sentCount.toNat - s.txq.size.toNat + j

/-! ## The machine's invariant -/

/-- What holds after reset and after every step. -/
structure Inv (s : State) : Prop where
  /-- The block is built for a valid configuration (00_scope.md R9). -/
  cfg_valid : s.cfg.valid = true
  /-- R27. -/
  queues : QueuesWf s
  /-- R23: `SENT_COUNT` is in 0..M. -/
  sent_le : s.sentCount.toNat ≤ s.cfg.m
  /-- R22: `NEXT_SEQ = BASE + (SENT_COUNT mod LENM)`. -/
  next_seq : s.nextSeq = seqOfUnit s.cfg s.sentCount.toNat
  /-- R31: RX_EXP is in the sequence space. -/
  rx_exp : inSeqSpace s.cfg s.rxExp
  /-- R30: while Transmitting, every TXQ entry carries a unit already sent. -/
  units_sent : s.fsm = .transmitting → s.txq.size.toNat ≤ s.sentCount.toNat
  /-- R30: while Transmitting, the entry at offset j has the sequence number of its unit. -/
  entries : s.fsm = .transmitting →
    ∀ j, j < s.txq.size.toNat → s.txq.entry s.cfg.w j = seqOfUnit s.cfg (unitAt s j)
  /-- R29: an ACKBIT is set only for a slot that holds an entry, in SR or SLW, while Transmitting. -/
  ackbits_held : ∀ i, ackBit s i = true →
    s.fsm = .transmitting ∧ (s.cfg.mode = .sr ∨ s.cfg.mode = .slw) ∧ s.txq.holds s.cfg.w i
  /-- R145: the window has slid past every acknowledged front entry. -/
  front_unacked : s.txq.size ≠ 0#8 → ackBit s s.txq.front.toNat = false
  /-- R25: when Transmitting with nothing outstanding, ACK_TIMER is 0. -/
  timer_stopped : s.fsm = .transmitting → s.txq.size = 0#8 → s.ackTimer = 0#16
  /-- R137: a finished transfer is not Transmitting. -/
  unfinished : s.fsm = .transmitting → ¬(s.sentCount.toNat = s.cfg.m ∧ s.txq.size = 0#8)
  /-- R137, R160: in Idle both timers are 0. -/
  idle_timers : s.fsm = .idle → s.ackTimer = 0#16 ∧ s.txTimer = 0#16
  /-- R139, R150: neither timer stands above its threshold after a command. -/
  ack_timer_below : fires s.cfg s.ackTimer s.cfg.ackTimeout = false
  tx_timer_below : fires s.cfg s.txTimer s.cfg.txTimeout = false

/-- R165: at most D - 1 entries wait in RXQ. -/
def ReceiverWindowBelowDepth (s : State) : Prop := s.rxq.size.toNat < s.cfg.d

/-! ## What statements compute from a state -/

/-- The entries of a queue, oldest first (R28). -/
def Queue.entries (cap : Nat) (q : Queue) : List Byte := (List.range q.size.toNat).map (q.entry cap)

/-- The ACKBITs of the TXQ entries, oldest first (R29). -/
def ackMarks (s : State) : List Bool := (List.range s.txq.size.toNat).map fun j => ackBit s (s.txq.entryIndex s.cfg.w j)

/-- The length of the longest prefix of marked entries. -/
def markedPrefix (marks : List Bool) : Nat := (marks.takeWhile id).length

/-- FSM as a number (R21). -/
def fsmNumber : Fsm → Nat
  | .idle => 0
  | .transmitting => 1

/-- MODE as a number (R181). -/
def modeNumber : Mode → Nat
  | .sw => 0
  | .gbn => 1
  | .sr => 2
  | .slw => 3

/-- The content of register `r` as a number, column by column of the table of 45_system.md R181. -/
def regContent (s : State) (r : Nat) : Nat :=
  match r with
  | 0x00 => fsmNumber s.fsm + 2 * (if s.sentCount.toNat = s.cfg.m then 1 else 0) + 4 * modeNumber s.cfg.mode
  | 0x01 => s.err.toNat
  | 0x02 => s.nextSeq.toNat
  | 0x03 => s.sentCount.toNat
  | 0x04 => s.rxExp.toNat
  | 0x05 => s.ackTimer.toNat
  | 0x06 => s.txTimer.toNat
  | 0x07 => s.txq.size.toNat
  | 0x08 => s.txq.front.toNat
  | 0x09 => s.txq.rear.toNat
  | 0x0A => s.ackbits.toNat % 2 ^ s.cfg.w
  | 0x0B => s.rxq.size.toNat
  | 0x0C => s.rxq.front.toNat
  | 0x0D => s.rxq.rear.toNat
  | 0x0E => s.cfg.w + 256 * s.cfg.lenm + 65536 * s.cfg.base
  | 0x0F => s.cfg.d
  | 0x10 => s.cfg.m
  | 0x11 => s.cfg.dataLen
  | _ => 0

/-- The DATA of an ARQ response as a number: FSM at bit 16, TXQ.size at bit 8, the event count at bit 0 (43_arq.md
R130). -/
def arqNumber (fsm : Fsm) (size nev : Nat) : BitVec 24 := BitVec.ofNat 24 (65536 * fsmNumber fsm + 256 * size + nev % 256)

/-- The DATA events of frames (sequence number, unit), each with the draw it takes, under threshold `p` (R131, R133). -/
def dataEvents (p : Nat) (frames : List (Byte × Half)) (us : List Draw) : List Event :=
  List.zipWith (fun f u => .data f.1 f.2 (decide (u.toNat < p))) frames us

/-- The ACK events of sequence numbers, each with the draw it takes, under threshold `p` (R131, R138). -/
def ackEvents (p : Nat) (xs : List Byte) (us : List Draw) : List Event :=
  List.zipWith (fun x u => .ack x (decide (u.toNat < p))) xs us

/-- Whether the entry at offset j is sent again on an ACK timeout (43_arq.md R136). -/
def sentAgain (s : State) (j : Nat) : Bool :=
  match s.cfg.mode with
  | .sw => true
  | .gbn => true
  | .sr => !ackBit s (s.txq.entryIndex s.cfg.w j)
  | .slw => !ackBit s (s.txq.entryIndex s.cfg.w j)

/-- The outstanding frames that an ACK timeout sends again, oldest first: entry and unit (43_arq.md R136). -/
def outstandingFrames (s : State) : List (Byte × Half) :=
  ((List.range s.txq.size.toNat).filter (sentAgain s)).map fun j =>
    (s.txq.entry s.cfg.w j, BitVec.ofNat 16 (unitAt s j))

/-- The entries of the queue a selector names, oldest first (R28). -/
def State.entriesOf (s : State) (q : QSel) : List Byte := (s.queue q).entries (capacity s.cfg q)

/-! ### One tick (43_arq.md R150), in numbers -/

/-- The ACK timer fires on the next tick (R139, R150). -/
def ackFires (s : State) : Bool :=
  decide (s.txq.size ≠ 0#8) && decide (s.cfg.ackTimeout < (s.ackTimer.toNat + 1) * s.cfg.tickMs)

/-- The transmit timer fires on the next tick (R139, R150). -/
def txFires (s : State) : Bool := decide (s.cfg.txTimeout < (s.txTimer.toNat + 1) * s.cfg.tickMs)

/-- The next tick sends a new frame (R150). -/
def newFrameDue (s : State) : Bool :=
  txFires s && decide (s.txq.size.toNat < s.cfg.w) && decide (s.sentCount.toNat < s.cfg.m)

/-- The frames the next tick emits, in order: the retransmissions, then the new frame (R150). -/
def tickFrames (s : State) : List (Byte × Half) :=
  (if ackFires s then outstandingFrames s else []) ++ if newFrameDue s then [(s.nextSeq, s.sentCount)] else []

/-! ### ACK progress (43_arq.md R145), in numbers -/

/-- Taking the last ACK of the message: EOM, and no entry left (43_arq.md R137). -/
def lastAck (s : State) (n : Nat) : Bool := decide (s.sentCount.toNat = s.cfg.m ∧ s.txq.size.toNat = n)

/-- The state after ACK progress that takes `n` entries off the window, the draws `us` being left (R137, R145). -/
def windowAdvanced (s : State) (us : List Draw) (n : Nat) : State :=
  { s with
    fsm := if lastAck s n then .idle else .transmitting
    ackTimer := 0#16
    txTimer := if lastAck s n then 0#16 else s.txTimer
    txq := { s.txq with
      front := BitVec.ofNat 8 ((s.txq.front.toNat + n) % s.cfg.w)
      size := BitVec.ofNat 8 (s.txq.size.toNat - n) }
    draws := us
    rsps := s.rsps ++
      [⟨.ok, arqNumber (if lastAck s n then .idle else .transmitting) (s.txq.size.toNat - n) 0⟩] }

/-- `n` first transmissions one after the other (43_arq.md R134). -/
def sendTimes : Nat → State → Option State
  | 0, s => some s
  | n + 1, s =>
    match sendNew s with
    | none => none
    | some t => sendTimes n t

/-- The ERR bits a command may set (60_exceptions.md R190). -/
def errBitsOf : Instr → BitVec 5
  | .nop => 0b00000#5
  | .fecEnc _ => 0b00000#5
  | .fecSyn _ => 0b00000#5
  | .fecCor _ => 0b00001#5
  | .fecDec _ => 0b00000#5
  | .qEnq _ _ => 0b00010#5
  | .qDeq _ => 0b00100#5
  | .qFront _ => 0b00100#5
  | .qRear _ => 0b00100#5
  | .qClear _ => 0b00000#5
  | .qSize _ => 0b00000#5
  | .frmClass _ => 0b01000#5
  | .arqCtrl _ _ => 0b00000#5
  | .arqRxdata _ => 0b00010#5
  | .arqRxack _ _ => 0b00000#5
  | .arqTick => 0b00000#5
  | .arqEom => 0b00000#5
  | .arqDisc => 0b00000#5
  | .regRd _ => 0b10000#5
  | .regClrerr _ => 0b00000#5

/-! ## Slots that hold no entry (10_state.md R28, R36) -/

/-- Two queues that differ at most in slots that hold no entry. -/
structure Queue.SameEntries (cap : Nat) (a b : Queue) : Prop where
  slots : a.slot.length = b.slot.length
  front : a.front = b.front
  rear : a.rear = b.rear
  size : a.size = b.size
  entries : ∀ j, j < a.size.toNat → a.entry cap j = b.entry cap j

/-- Two states that differ at most in queue slots that hold no entry. -/
structure SameButFreeSlots (s t : State) : Prop where
  rest : { s with txq := t.txq, rxq := t.rxq } = t
  txq : s.txq.SameEntries s.cfg.w t.txq
  rxq : s.rxq.SameEntries s.cfg.d t.rxq

/-- Two results alike: next states that `SameButFreeSlots` relates, or the same stop. -/
def SameResult : Result → Result → Prop
  | .next s, .next t => SameButFreeSlots s t
  | .fault a, .fault b => a = b
  | .refused a, .refused b => a = b
  | .next _, .fault _ => False
  | .next _, .refused _ => False
  | .fault _, .next _ => False
  | .fault _, .refused _ => False
  | .refused _, .next _ => False
  | .refused _, .fault _ => False

/-! ## Fresh states -/

/-- A block built for `c`, after hardware reset, with the given draws at hand. -/
def freshWith (c : Cfg) (us : List Draw) : State := { State.resetOf c with draws := us }

end Sys2Proof.Machine
end

