-- ==== Sys2Proof/Certificates/Slice0/Obligations.lean ====
section
/-! DEFINITION. The statements for the provers, family by family. Each names the rule of spec/ that it formalises. -/

open Sys2Proof Sys2Proof.Machine

/-! ## Commands and their encoding (30_encoding.md) -/

/-- R55, R60, R67: decoding the word of a command gives the command back, with every operand at every value. -/
def Obligations.DecodeOfEncode : Prop := ∀ i : Instr, decode (encode i) = .ok i

/-- R55, R66: a word that decodes is the word of the command it decodes to. -/
def Obligations.EncodeOfDecode : Prop := ∀ (w : Word) (i : Instr), decode w = .ok i → encode i = w

/-- R55: a word decodes exactly when it matches a row of the opcode table, to a command of that row; and no word matches
two rows. -/
def Obligations.DecodeFollowsTheOpcodeTable : Prop :=
  (∀ w i, decode w = .ok i → ∃ row ∈ opcodeRows, row.fits w = true ∧ row.mnemonic = mnemonic i) ∧
  (∀ w, ∀ row ∈ opcodeRows, row.fits w = true → ∃ i, decode w = .ok i ∧ mnemonic i = row.mnemonic) ∧
  (∀ w, ∀ r₁ ∈ opcodeRows, ∀ r₂ ∈ opcodeRows, r₁.fits w = true → r₂.fits w = true → r₁ = r₂)

/-- R57: the undefined opcodes are exactly the ranges listed. -/
def Obligations.UndefinedOpcodes : Prop :=
  ∀ w : Word, decode w = .error (.undefinedOpcode (opcField w)) ↔
    (0x01 ≤ (opcField w).toNat ∧ (opcField w).toNat ≤ 0x0F) ∨ (0x14 ≤ (opcField w).toNat ∧ (opcField w).toNat ≤ 0x1F) ∨
    (0x26 ≤ (opcField w).toNat ∧ (opcField w).toNat ≤ 0x2F) ∨ (0x31 ≤ (opcField w).toNat ∧ (opcField w).toNat ≤ 0x3F) ∨
    (0x46 ≤ (opcField w).toNat ∧ (opcField w).toNat ≤ 0x4F) ∨ 0x52 ≤ (opcField w).toNat

/-- R67: words of the spec's examples decode to their commands. -/
def Obligations.SampleWordsDecode : Prop :=
  decode 0x00000000#32 = .ok .nop ∧ decode 0x10000004#32 = .ok (.fecEnc 0b100#3) ∧
  decode 0x12000035#32 = .ok (.fecCor 0b110101#6) ∧ decode 0x20010005#32 = .ok (.qEnq .rxq 5#8) ∧
  decode 0x22000000#32 = .ok (.qFront .txq) ∧ decode 0x30000022#32 = .ok (.frmClass 34#16) ∧
  decode 0x40000247#32 = .ok (.arqCtrl 0x02#8 0x47#8) ∧ decode 0x42000006#32 = .ok (.arqRxack 0#8 0x06#8) ∧
  decode 0x50020000#32 = .ok (.regRd 0x02#8) ∧ decode 0x51000001#32 = .ok (.regClrerr 0b00001#5)

/-- R58: a word that matches no row of the opcode table, and a REG.RD word with a register number above 0x11, set ERR[4],
respond ILLEGAL with 0, and do nothing else. -/
def Obligations.IllegalWordOnlySetsErr4AndResponds : Prop :=
  ∀ (w : Word) (rest : List Input) (s : State), s.cfg.valid = true → s.inputs = .command w :: rest →
    ((∀ row ∈ opcodeRows, row.fits w = false) ∨ (opcField w = 0x50#8 ∧ 0x11#8 < selField w)) →
    step s = .next { s with inputs := rest, err := s.err ||| 0b10000#5, rsps := s.rsps ++ [⟨.illegal, 0#24⟩] }

/-- R68: the pseudo-instructions, as commands and as words. -/
def Obligations.PseudoInstructionsExpand : Prop :=
  (arqStart = [.arqCtrl 0x02#8 0x47#8] ∧ arqStart.map encode = [0x40000247#32]) ∧
  (∀ x : Byte, arqAck x = [.arqRxack x 0x06#8] ∧ (arqAck x).map encode = [0x42000006#32 ||| x.setWidth 32 <<< 8]) ∧
  (∀ n : Nat, arqTicks n = List.replicate n .arqTick ∧ (arqTicks n).map encode = List.replicate n 0x43000000#32) ∧
  (regClrall = [.regClrerr 0x1F#5] ∧ regClrall.map encode = [0x5100001F#32])

/-- R52: where STATUS and DATA stand in the response word, and the code of each status. -/
def Obligations.ResponseWordLayout : Prop :=
  (∀ r : Response, r.word.extractLsb' 24 8 = r.status.code ∧ r.word.extractLsb' 0 24 = r.data) ∧
  [Status.ok, .corrected, .uncorrectable, .qFull, .qEmpty, .busy, .ctrlIgnored, .idleIgnored, .ackDropped, .ackBadmark,
    .ackNomatch, .ackDuplicate, .rxOutOfOrder, .classAmbiguous, .classNone, .illegal].map Status.code =
  [0x00#8, 0x01#8, 0x02#8, 0x03#8, 0x04#8, 0x05#8, 0x06#8, 0x07#8, 0x08#8, 0x09#8, 0x0A#8, 0x0B#8, 0x0C#8, 0x0D#8,
    0x0E#8, 0xFF#8]

/-- R61, R62, R64: what the host puts on the wire for an event, the message store holding DATALEN bytes a unit. -/
def Obligations.WireFrameOfAnEvent : Prop :=
  ∀ (c : Cfg) (payload : Half → Vector Byte c.dataLen) (x : Byte) (u : Half),
    wireFrame c payload (.data x u false) = some ([x] ++ (payload u).toList) ∧
    ([x] ++ (payload u).toList).length = c.dataLen + 1 ∧
    wireFrame c payload (.ack x false) = some [x, 0x06#8] ∧
    wireFrame c payload (.data x u true) = none ∧ wireFrame c payload (.ack x true) = none ∧
    wireFrame c payload (.accept x) = none

/-! ## Steps (00_scope.md R3, 20_memory.md R48) -/

/-- When the next input is a command word that decodes to i, the step is i's effect with the word taken from the port; so
the k-th step runs the k-th command. The one exception is R220 with R210: a command that waits for a draw when the next
input is a hardware reset, which abandons it (StepsThatRunNoCommand). -/
def Obligations.StepRunsTheDecodedCommand : Prop :=
  ∀ (s : State) (w : Word) (rest : List Input) (i : Instr), s.cfg.valid = true → s.inputs = .command w :: rest →
    decode w = .ok i →
    (∀ t, exec i { s with inputs := rest } = .next t → step s = .next t) ∧
    (rest.head? ≠ some .hardReset → step s = exec i { s with inputs := rest })

/-- The model's own choices about a step that completes no command: with no input the block holds its state (log entry 3,
after 60_exceptions.md R201); a state with an invalid configuration is refused (log entry 8, after 00_scope.md R8); a
hardware reset leaves the slot contents, the draws to come and what the ports have already given (log entries 4 to 7); a
hardware reset that abandons a command, or one that comes while a command waits for a draw, leaves no response of it, the
draws not taken, and of its events some first ones: those that the host had taken, none of which depends on a draw not
taken (log entry 6, after R210 and R220). Which events a command has is said by every run of it that completes, with
whatever further draws, and there is such a run. -/
def Obligations.StepsThatRunNoCommand : Prop :=
  (∀ s : State, s.cfg.valid = true → s.inputs = [] → step s = .next s) ∧
  (∀ s : State, s.cfg.valid = false → step s = .refused .invalidConfiguration) ∧
  (∀ (s : State) (rest : List Input), s.cfg.valid = true → s.inputs = .hardReset :: rest →
    ∃ t, step s = .next t ∧ t.inputs = rest ∧ t.txq.slot = s.txq.slot ∧ t.rxq.slot = s.rxq.slot ∧ t.draws = s.draws ∧
      t.events = s.events ∧ t.rsps = s.rsps) ∧
  (∀ (s : State) (rest : List Input) (w : Word) (nEvents nDraws : Nat), s.cfg.valid = true →
    s.inputs = .abandoned w nEvents nDraws :: rest →
    (∃ vs u, runWord w { s with inputs := rest, draws := s.draws ++ vs } = .next u) ∧
    ∀ (vs : List Draw) (u : State), runWord w { s with inputs := rest, draws := s.draws ++ vs } = .next u →
      ∃ (k : Nat) (evs more : List Event),
        k = min nDraws (min (s.draws.length + vs.length - u.draws.length) s.draws.length) ∧
        evs = (presentable k (u.events.drop s.events.length)).take nEvents ∧
        u.events = s.events ++ evs ++ more ∧ (evs.filter Event.lossy).length ≤ k ∧
        step s = .next { hardReset s with inputs := rest, draws := s.draws.drop k, events := s.events ++ evs }) ∧
  (∀ (s : State) (rest : List Input) (w : Word), s.cfg.valid = true → s.inputs = .command w :: .hardReset :: rest →
    runWord w { s with inputs := .hardReset :: rest } = .fault .drawStall →
    (∃ vs u, runWord w { s with inputs := rest, draws := s.draws ++ vs } = .next u) ∧
    ∀ (vs : List Draw) (u : State), runWord w { s with inputs := rest, draws := s.draws ++ vs } = .next u →
      ∃ evs more : List Event, evs = presentable s.draws.length (u.events.drop s.events.length) ∧
        u.events = s.events ++ evs ++ more ∧ (evs.filter Event.lossy).length ≤ s.draws.length ∧
        step s = .next { hardReset s with inputs := rest, draws := [], events := s.events ++ evs })

/-- R212: the complete reset state after hardware reset, the slots left open; the same when the reset abandons a command. -/
def Obligations.HardwareResetState : Prop :=
  ∀ (s : State) (rest : List Input), s.cfg.valid = true →
    s.inputs = .hardReset :: rest ∨ (∃ w nEvents nDraws, s.inputs = .abandoned w nEvents nDraws :: rest) →
    ∃ t, step s = .next t ∧ t.fsm = .idle ∧ t.nextSeq.toNat = s.cfg.base ∧ t.sentCount = 0#16 ∧
      t.rxExp.toNat = s.cfg.base ∧ t.ackTimer = 0#16 ∧ t.txTimer = 0#16 ∧ t.txq.front = 0#8 ∧
      t.txq.rear.toNat = s.cfg.w - 1 ∧ t.txq.size = 0#8 ∧ (∀ i, ackBit t i = false) ∧ t.rxq.front = 0#8 ∧
      t.rxq.rear.toNat = s.cfg.d - 1 ∧ t.rxq.size = 0#8 ∧ t.err = 0#5 ∧ t.cfg = s.cfg

/-- 60_exceptions.md R193, R52: with draws at hand every command runs to its end, appends exactly one response and some
events, takes its draws from the front, and leaves the configuration and the rest of the input. -/
def Obligations.EveryCommandCompletesWithOneResponse : Prop :=
  ∀ (i : Instr) (s : State), s.cfg.valid = true → 256 ≤ s.draws.length →
    ∃ (t : State) (r : Response) (evs : List Event) (k : Nat), exec i s = .next t ∧ t.rsps = s.rsps ++ [r] ∧
      t.events = s.events ++ evs ∧ t.draws = s.draws.drop k ∧ k ≤ 256 ∧ t.cfg = s.cfg ∧ t.inputs = s.inputs

/-- R132, R220: only a command that draws can stall (the fault of log entry 4); no command is refused. -/
def Obligations.OnlyDrawingCommandsStall : Prop :=
  (∀ (i : Instr) (s : State) (r : Refusal), exec i s ≠ .refused r) ∧
  (∀ (i : Instr) (s : State) (f : Fault), exec i s = .fault f → f = .drawStall ∧
    (i = .arqCtrl 0x02#8 0x47#8 ∨ (i = .arqRxdata s.rxExp ∧ s.cfg.d ≤ s.rxq.size.toNat + 1) ∨
      ((∃ x m, i = .arqRxack x m) ∧ s.fsm = .transmitting) ∨ (i = .arqTick ∧ s.fsm = .transmitting) ∨
      (i = .arqEom ∧ s.rxq.size ≠ 0#8)))

/-- R132: a command takes its draws from the front, one for each DATA and ACK event and one for an ARQ.RXACK that finds
FSM = 1, and how many it takes does not depend on their values. -/
def Obligations.DrawsTakenDoNotDependOnTheirValues : Prop :=
  ∀ (i : Instr) (s t t' : State) (us vs : List Draw),
    exec i { s with draws := us } = .next t → exec i { s with draws := vs } = .next t' →
    ∃ (k : Nat) (evs : List Event), k ≤ us.length ∧ t.draws = us.drop k ∧ t'.draws = vs.drop k ∧
      t.events = s.events ++ evs ∧
      ((∃ x m, i = .arqRxack x m) ∧ s.fsm = .transmitting → k = (evs.filter Event.lossy).length + 1) ∧
      (¬((∃ x m, i = .arqRxack x m) ∧ s.fsm = .transmitting) → k = (evs.filter Event.lossy).length)

/-! ## The system family (45_system.md) -/

/-- R180. -/
def Obligations.NopOnlyResponds : Prop :=
  decode 0x00000000#32 = .ok .nop ∧
  (∀ w : Word, opcField w = 0x00#8 → w ≠ 0x00000000#32 → ∀ s : State,
    runWord w s = .next { s with err := s.err ||| 0b10000#5, rsps := s.rsps ++ [⟨.illegal, 0#24⟩] }) ∧
  (∀ s : State, exec .nop s = .next { s with rsps := s.rsps ++ [⟨.ok, 0#24⟩] })

/-- R181: REG.RD answers the register's content, and is ILLEGAL above 0x11; the ACKBIT of a slot that holds no entry reads
as 0. -/
def Obligations.RegReadAnswersTheRegister : Prop :=
  (∀ r : Byte, decode (0x50000000#32 ||| r.setWidth 32 <<< 16) = .ok (.regRd r)) ∧
  (∀ (r : Byte) (s : State), s.cfg.valid = true → r ≤ 0x11#8 →
    exec (.regRd r) s = .next { s with rsps := s.rsps ++ [⟨.ok, BitVec.ofNat 24 (regContent s r.toNat)⟩] }) ∧
  (∀ (r : Byte) (s : State), 0x11#8 < r →
    exec (.regRd r) s = .next { s with err := s.err ||| 0b10000#5, rsps := s.rsps ++ [⟨.illegal, 0#24⟩] }) ∧
  (∀ (i : Nat) (s : State), Inv s → ¬s.txq.holds s.cfg.w i → (regContent s 0x0A).testBit i = false)

/-- R182: REG.CLRERR clears the bits of the mask and answers ERR after clearing; with a reserved bit set it is ILLEGAL and
sets ERR[4]. -/
def Obligations.ClrerrClearsTheMaskedBits : Prop :=
  (∀ mask : BitVec 5, decode (0x51000000#32 ||| mask.setWidth 32) = .ok (.regClrerr mask)) ∧
  (∀ (mask : BitVec 5) (s : State), exec (.regClrerr mask) s = .next { s with
    err := s.err &&& ~~~mask
    rsps := s.rsps ++ [⟨.ok, (s.err &&& ~~~mask).setWidth 24⟩] }) ∧
  (∀ (w : Word) (s : State), opcField w = 0x51#8 → w &&& 0x00FFFFE0#32 ≠ 0#32 →
    runWord w s = .next { s with err := s.err ||| 0b10000#5, rsps := s.rsps ++ [⟨.illegal, 0#24⟩] })

/-! ## The block-code codec (41_fec.md) -/

/-- R102, R103: encoder and syndrome are the products over GF(2), bit by bit, and give the formulas stated for the default
code. -/
def Obligations.EncodeAndSyndromeAreMatrixProducts : Prop :=
  (∀ (k : Code) (m : Symbol) (j : Fin 6), (enc k m).getLsbD j.val =
    ((m.getLsbD 2 && k.g1.getLsbD j.val) ^^ (m.getLsbD 1 && k.g2.getLsbD j.val) ^^ (m.getLsbD 0 && k.g3.getLsbD j.val))) ∧
  (∀ (k : Code) (c : Codeword),
    (syn k c).getLsbD 2 = ((List.range 6).map fun j => c.getLsbD j && k.h1.getLsbD j).foldl xor false ∧
    (syn k c).getLsbD 1 = ((List.range 6).map fun j => c.getLsbD j && k.h2.getLsbD j).foldl xor false ∧
    (syn k c).getLsbD 0 = ((List.range 6).map fun j => c.getLsbD j && k.h3.getLsbD j).foldl xor false) ∧
  (∀ m : Symbol, let c := enc Code.standard m
    c.getLsbD 5 = (m.getLsbD 2 ^^ m.getLsbD 0) ∧ c.getLsbD 4 = (m.getLsbD 2 ^^ m.getLsbD 1) ∧
    c.getLsbD 3 = (m.getLsbD 1 ^^ m.getLsbD 0) ∧ c.getLsbD 2 = m.getLsbD 2 ∧ c.getLsbD 1 = m.getLsbD 1 ∧
    c.getLsbD 0 = m.getLsbD 0) ∧
  (∀ c : Codeword, let s := syn Code.standard c
    s.getLsbD 2 = (c.getLsbD 5 ^^ c.getLsbD 2 ^^ c.getLsbD 0) ∧ s.getLsbD 1 = (c.getLsbD 4 ^^ c.getLsbD 2 ^^ c.getLsbD 1) ∧
    s.getLsbD 0 = (c.getLsbD 3 ^^ c.getLsbD 1 ^^ c.getLsbD 0))

/-- R107: FEC.ENC, for every code; the symbol 0 encodes to 0. -/
def Obligations.FecEncAnswersTheCodeword : Prop :=
  (∀ sym : Symbol, decode (0x10000000#32 ||| sym.setWidth 32) = .ok (.fecEnc sym)) ∧
  (∀ (sym : Symbol) (s : State), exec (.fecEnc sym) s =
    .next { s with rsps := s.rsps ++ [⟨.ok, (enc s.cfg.code sym).setWidth 24⟩] }) ∧
  (∀ k : Code, enc k 0#3 = 0#6) ∧ enc Code.standard 0b100#3 = 0b110100#6

/-- R103, R108: FEC.SYN, for every code. Under a valid code the syndrome depends only on the error pattern, and is 0 on
codewords. -/
def Obligations.FecSynAnswersTheSyndrome : Prop :=
  (∀ cw : Codeword, decode (0x11000000#32 ||| cw.setWidth 32) = .ok (.fecSyn cw)) ∧
  (∀ (cw : Codeword) (s : State), exec (.fecSyn cw) s =
    .next { s with rsps := s.rsps ++ [⟨.ok, (syn s.cfg.code cw).setWidth 24⟩] }) ∧
  (∀ (k : Code) (m : Symbol) (e : Codeword), k.valid = true → syn k (enc k m ^^^ e) = syn k e ∧ syn k (enc k m) = 0#3) ∧
  syn Code.standard 0b110101#6 = 0b101#3

/-- R104, R109: FEC.COR answers the codeword unchanged when the syndrome is 0, flips the bit that SYNTAB names, and else
answers UNCORRECTABLE with the zero codeword and sets ERR[0]. -/
def Obligations.FecCorDetectsAndCorrects : Prop :=
  (∀ cw : Codeword, decode (0x12000000#32 ||| cw.setWidth 32) = .ok (.fecCor cw)) ∧
  (∀ (cw : Codeword) (s : State), syn s.cfg.code cw = 0#3 →
    exec (.fecCor cw) s = .next { s with rsps := s.rsps ++ [⟨.ok, BitVec.ofNat 24 cw.toNat⟩] }) ∧
  (∀ (cw : Codeword) (p : Fin 6) (s : State), s.cfg.valid = true → (syn s.cfg.code cw, p) ∈ s.cfg.code.synTab →
    exec (.fecCor cw) s = .next { s with rsps := s.rsps ++ [⟨.corrected, BitVec.ofNat 24
      (65536 * p.val + 256 * (syn s.cfg.code cw).toNat + (cw ^^^ (1#6 <<< p.val)).toNat)⟩] }) ∧
  (∀ (cw : Codeword) (s : State), syn s.cfg.code cw ≠ 0#3 →
    (∀ p : Fin 6, (syn s.cfg.code cw, p) ∉ s.cfg.code.synTab) →
    exec (.fecCor cw) s = .next { s with
      err := s.err ||| 0b00001#5
      rsps := s.rsps ++ [⟨.uncorrectable, BitVec.ofNat 24 (256 * (syn s.cfg.code cw).toNat)⟩] })

/-- R105, R110: FEC.DEC applies R to any word, with no correction; for the default code it reads the low three bits. -/
def Obligations.FecDecAppliesTheSelector : Prop :=
  (∀ cw : Codeword, decode (0x13000000#32 ||| cw.setWidth 32) = .ok (.fecDec cw)) ∧
  (∀ (cw : Codeword) (s : State), exec (.fecDec cw) s =
    .next { s with rsps := s.rsps ++ [⟨.ok, (dec s.cfg.code cw).setWidth 24⟩] }) ∧
  (∀ (k : Code) (c : Codeword) (j : Fin 3), (dec k c).getLsbD j.val =
    ([(5, k.r1), (4, k.r2), (3, k.r3), (2, k.r4), (1, k.r5), (0, k.r6)].map fun e =>
      c.getLsbD e.1 && e.2.getLsbD j.val).foldl xor false) ∧
  (∀ c : Codeword, dec Code.standard c = c.extractLsb' 0 3) ∧
  (∀ (k : Code) (m : Symbol), k.valid = true → dec k (enc k m) = m) ∧ dec Code.standard 0b110100#6 = 0b100#3

/-- R9 c to e, R104: under every valid code each single-bit error that SYNTAB covers is corrected to the codeword sent,
decoding a codeword gives its symbol, and R selects: for each information bit there is one codeword bit that carries it and
that decoding reads. -/
def Obligations.ValidCodeCorrectsCoveredSingleErrors : Prop :=
  (∀ (k : Code) (m : Symbol) (p : Fin 6), k.valid = true → (hColumn k p, p) ∈ k.synTab →
    cor k (enc k m ^^^ (1#6 <<< p.val)) = .fixed (enc k m) p) ∧
  (∀ (k : Code) (m : Symbol), k.valid = true → cor k (enc k m) = .clean (enc k m) ∧ dec k (enc k m) = m) ∧
  (∀ (k : Code) (j : Fin 3), k.valid = true → ∃ p : Fin 6, (∀ c, (dec k c).getLsbD j.val = c.getLsbD p.val) ∧
    ∀ m, (enc k m).getLsbD p.val = m.getLsbD j.val)

/-- R111: the codewords of the default code, its minimum distance 3, and that every single-bit error is corrected. -/
def Obligations.DefaultCodeTable : Prop :=
  (List.range 8).map (fun x => enc Code.standard (BitVec.ofNat 3 x)) =
    [0x00#6, 0x29#6, 0x1A#6, 0x33#6, 0x34#6, 0x1D#6, 0x2E#6, 0x07#6] ∧
  (∀ m : Symbol, m ≠ 0#3 → 3 ≤ ((List.range 6).filter fun j => (enc Code.standard m).getLsbD j).length) ∧
  (∃ m : Symbol, m ≠ 0#3 ∧ ((List.range 6).filter fun j => (enc Code.standard m).getLsbD j).length = 3) ∧
  (∀ (m : Symbol) (p : Fin 6), cor Code.standard (enc Code.standard m ^^^ (1#6 <<< p.val)) =
    .fixed (enc Code.standard m) p) ∧
  (∃ (m : Symbol) (p q : Fin 6) (c : Codeword) (r : Fin 6), p ≠ q ∧
    cor Code.standard (enc Code.standard m ^^^ (1#6 <<< p.val) ^^^ (1#6 <<< q.val)) = .fixed c r ∧
    c ≠ enc Code.standard m)

/-- R222: of the 15 two-bit errors on any codeword of the default code, exactly the 3 with syndrome 0b111 are
uncorrectable, and the other 12 are corrected to a wrong codeword. -/
def Obligations.DefaultCodeMiscorrectsTwelveDoubleErrors : Prop :=
  let pairs : List Codeword := (List.range 64).map (BitVec.ofNat 6) |>.filter fun e =>
    ((List.range 6).filter fun j => e.getLsbD j).length == 2
  pairs.length = 15 ∧
  ∀ m : Symbol,
    (pairs.filter fun e => cor Code.standard (enc Code.standard m ^^^ e) == .uncorrectable).length = 3 ∧
    ∀ e ∈ pairs, (cor Code.standard (enc Code.standard m ^^^ e) = .uncorrectable ↔ syn Code.standard e = 0b111#3) ∧
      (syn Code.standard e ≠ 0b111#3 → ∃ c p, cor Code.standard (enc Code.standard m ^^^ e) = .fixed c p ∧
        c ≠ enc Code.standard m)

/-! ## The circular queues (40_queue.md) -/

/-- R81, R87: Q.ENQ in Idle, on a queue that is not full and on a full one; BUSY while Transmitting. -/
def Obligations.EnqueueWritesTheNextSlot : Prop :=
  (∀ (q : QSel) (v : Byte),
    decode (0x20000000#32 ||| (queueSelBits q).setWidth 32 <<< 16 ||| v.setWidth 32) = .ok (.qEnq q v)) ∧
  (∀ (v : Byte) (s : State), s.fsm = .idle → s.txq.size.toNat ≠ s.cfg.w →
    exec (.qEnq .txq v) s = .next { s with
      txq := { slot := s.txq.slot.set ((s.txq.rear.toNat + 1) % s.cfg.w) v
               front := s.txq.front
               rear := BitVec.ofNat 8 ((s.txq.rear.toNat + 1) % s.cfg.w)
               size := s.txq.size + 1#8 }
      ackbits := s.ackbits &&& ~~~(1#16 <<< ((s.txq.rear.toNat + 1) % s.cfg.w))
      rsps := s.rsps ++ [⟨.ok, (s.txq.size + 1#8).setWidth 24⟩] }) ∧
  (∀ (v : Byte) (s : State), s.fsm = .idle → s.rxq.size.toNat ≠ s.cfg.d →
    exec (.qEnq .rxq v) s = .next { s with
      rxq := { slot := s.rxq.slot.set ((s.rxq.rear.toNat + 1) % s.cfg.d) v
               front := s.rxq.front
               rear := BitVec.ofNat 8 ((s.rxq.rear.toNat + 1) % s.cfg.d)
               size := s.rxq.size + 1#8 }
      rsps := s.rsps ++ [⟨.ok, (s.rxq.size + 1#8).setWidth 24⟩] }) ∧
  (∀ (q : QSel) (v : Byte) (s : State), s.fsm = .idle → (s.queue q).size.toNat = capacity s.cfg q →
    exec (.qEnq q v) s = .next { s with
      err := s.err ||| 0b00010#5
      rsps := s.rsps ++ [⟨.qFull, BitVec.ofNat 24 (capacity s.cfg q)⟩] }) ∧
  (∀ (q : QSel) (v : Byte) (s : State), s.fsm = .transmitting →
    exec (.qEnq q v) s = .next { s with rsps := s.rsps ++ [⟨.busy, 0#24⟩] })

/-- R82, R88: Q.DEQ in Idle, on a non-empty queue and on an empty one; BUSY while Transmitting. -/
def Obligations.DequeueDropsTheFrontEntry : Prop :=
  (∀ q : QSel, decode (0x21000000#32 ||| (queueSelBits q).setWidth 32 <<< 16) = .ok (.qDeq q)) ∧
  (∀ s : State, s.fsm = .idle → s.txq.size ≠ 0#8 →
    exec (.qDeq .txq) s = .next { s with
      txq := { s.txq with
        front := BitVec.ofNat 8 ((s.txq.front.toNat + 1) % s.cfg.w)
        size := s.txq.size - 1#8 }
      ackbits := s.ackbits &&& ~~~(1#16 <<< s.txq.front.toNat)
      rsps := s.rsps ++ [⟨.ok, (s.txq.size - 1#8).setWidth 24⟩] }) ∧
  (∀ s : State, s.fsm = .idle → s.rxq.size ≠ 0#8 →
    exec (.qDeq .rxq) s = .next { s with
      rxq := { s.rxq with
        front := BitVec.ofNat 8 ((s.rxq.front.toNat + 1) % s.cfg.d)
        size := s.rxq.size - 1#8 }
      rsps := s.rsps ++ [⟨.ok, (s.rxq.size - 1#8).setWidth 24⟩] }) ∧
  (∀ (q : QSel) (s : State), s.fsm = .idle → (s.queue q).size = 0#8 →
    exec (.qDeq q) s = .next { s with err := s.err ||| 0b00100#5, rsps := s.rsps ++ [⟨.qEmpty, 0#24⟩] }) ∧
  (∀ (q : QSel) (s : State), s.fsm = .transmitting →
    exec (.qDeq q) s = .next { s with rsps := s.rsps ++ [⟨.busy, 0#24⟩] })

/-- R83, R84, R89, R90: Q.FRONT and Q.REAR answer the slot that the front and the rear register name, in either FSM state,
or Q_EMPTY with 0; with one entry in a well-formed queue both name the same slot and answer alike. -/
def Obligations.FrontAndRearAnswerTheEndSlots : Prop :=
  (∀ q : QSel, decode (0x22000000#32 ||| (queueSelBits q).setWidth 32 <<< 16) = .ok (.qFront q) ∧
    decode (0x23000000#32 ||| (queueSelBits q).setWidth 32 <<< 16) = .ok (.qRear q)) ∧
  (∀ (q : QSel) (v : Byte) (s : State), (s.queue q).size ≠ 0#8 →
    (s.queue q).slot[(s.queue q).front.toNat]? = some v →
    exec (.qFront q) s = .next { s with rsps := s.rsps ++ [⟨.ok, v.setWidth 24⟩] }) ∧
  (∀ (q : QSel) (v : Byte) (s : State), (s.queue q).size ≠ 0#8 →
    (s.queue q).slot[(s.queue q).rear.toNat]? = some v →
    exec (.qRear q) s = .next { s with rsps := s.rsps ++ [⟨.ok, v.setWidth 24⟩] }) ∧
  (∀ (q : QSel) (s : State), (s.queue q).size = 0#8 →
    exec (.qFront q) s = .next { s with err := s.err ||| 0b00100#5, rsps := s.rsps ++ [⟨.qEmpty, 0#24⟩] } ∧
    exec (.qRear q) s = .next { s with err := s.err ||| 0b00100#5, rsps := s.rsps ++ [⟨.qEmpty, 0#24⟩] }) ∧
  (∀ (q : QSel) (s : State), QueuesWf s → (s.queue q).size = 1#8 → (s.queue q).rear = (s.queue q).front ∧
    ∃ v : Byte, (s.queue q).slot[(s.queue q).front.toNat]? = some v ∧
      exec (.qFront q) s = .next { s with rsps := s.rsps ++ [⟨.ok, v.setWidth 24⟩] } ∧
      exec (.qRear q) s = .next { s with rsps := s.rsps ++ [⟨.ok, v.setWidth 24⟩] })

/-- R80, R91: Q.CLEAR in Idle empties the queue and keeps its slots, and on TXQ clears every ACKBIT; BUSY while
Transmitting. -/
def Obligations.ClearEmptiesTheQueue : Prop :=
  (∀ q : QSel, decode (0x24000000#32 ||| (queueSelBits q).setWidth 32 <<< 16) = .ok (.qClear q)) ∧
  (∀ s : State, s.fsm = .idle →
    exec (.qClear .txq) s = .next { s with
      txq := { slot := s.txq.slot, front := 0#8, rear := BitVec.ofNat 8 (s.cfg.w - 1), size := 0#8 }
      ackbits := 0#16
      rsps := s.rsps ++ [⟨.ok, 0#24⟩] } ∧
    exec (.qClear .rxq) s = .next { s with
      rxq := { slot := s.rxq.slot, front := 0#8, rear := BitVec.ofNat 8 (s.cfg.d - 1), size := 0#8 }
      rsps := s.rsps ++ [⟨.ok, 0#24⟩] }) ∧
  (∀ (q : QSel) (s : State), s.fsm = .transmitting →
    exec (.qClear q) s = .next { s with rsps := s.rsps ++ [⟨.busy, 0#24⟩] })

/-- R92: Q.SIZE answers the entry count, in either FSM state. -/
def Obligations.SizeAnswersTheCount : Prop :=
  (∀ q : QSel, decode (0x25000000#32 ||| (queueSelBits q).setWidth 32 <<< 16) = .ok (.qSize q)) ∧
  (∀ (q : QSel) (s : State),
    exec (.qSize q) s = .next { s with rsps := s.rsps ++ [⟨.ok, (s.queue q).size.setWidth 24⟩] }) ∧
  (∀ (q : QSel) (s : State), QueuesWf s → (s.queue q).size.toNat ≤ capacity s.cfg q)

/-- R86: while FSM = 1 the three commands that change a queue only answer BUSY, and the three that read one never do. -/
def Obligations.BusyGuard : Prop :=
  (∀ (q : QSel) (v : Byte) (s : State), s.fsm = .transmitting →
    exec (.qEnq q v) s = .next { s with rsps := s.rsps ++ [⟨.busy, 0#24⟩] } ∧
    exec (.qDeq q) s = .next { s with rsps := s.rsps ++ [⟨.busy, 0#24⟩] } ∧
    exec (.qClear q) s = .next { s with rsps := s.rsps ++ [⟨.busy, 0#24⟩] }) ∧
  (∀ (q : QSel) (s : State), ∀ i ∈ [Instr.qFront q, .qRear q, .qSize q],
    ∃ (t : State) (r : Response), exec i s = .next t ∧ t.rsps = s.rsps ++ [r] ∧ r.status ≠ .busy)

/-- R27, R28 and section 1 of 40_queue.md: from every state with well-formed queues, in Idle, the queue commands are those
of a bounded first-in first-out list, they keep the queues well formed, and they leave the other queue alone. -/
def Obligations.QueuesAreBoundedFifos : Prop :=
  ∀ (q : QSel) (s : State), s.cfg.valid = true → QueuesWf s → s.fsm = .idle →
    (∀ v, (s.entriesOf q).length < capacity s.cfg q → ∃ t, exec (.qEnq q v) s = .next t ∧ QueuesWf t ∧
      t.entriesOf q = s.entriesOf q ++ [v] ∧ (∀ q', q' ≠ q → t.entriesOf q' = s.entriesOf q') ∧
      t.rsps = s.rsps ++ [⟨.ok, BitVec.ofNat 24 ((s.entriesOf q).length + 1)⟩]) ∧
    (∀ v, (s.entriesOf q).length = capacity s.cfg q → ∃ t, exec (.qEnq q v) s = .next t ∧ QueuesWf t ∧
      (∀ q', t.entriesOf q' = s.entriesOf q') ∧
      t.rsps = s.rsps ++ [⟨.qFull, BitVec.ofNat 24 (s.entriesOf q).length⟩]) ∧
    (∀ v vs, s.entriesOf q = v :: vs → ∃ t, exec (.qDeq q) s = .next t ∧ QueuesWf t ∧ t.entriesOf q = vs ∧
      (∀ q', q' ≠ q → t.entriesOf q' = s.entriesOf q') ∧
      t.rsps = s.rsps ++ [⟨.ok, BitVec.ofNat 24 vs.length⟩]) ∧
    (∀ v vs, s.entriesOf q = v :: vs →
      exec (.qFront q) s = .next { s with rsps := s.rsps ++ [⟨.ok, v.setWidth 24⟩] }) ∧
    (∀ v vs, s.entriesOf q = vs ++ [v] →
      exec (.qRear q) s = .next { s with rsps := s.rsps ++ [⟨.ok, v.setWidth 24⟩] }) ∧
    (s.entriesOf q = [] → ∀ i ∈ [Instr.qDeq q, .qFront q, .qRear q],
      exec i s = .next { s with err := s.err ||| 0b00100#5, rsps := s.rsps ++ [⟨.qEmpty, 0#24⟩] }) ∧
    (∃ t, exec (.qClear q) s = .next t ∧ QueuesWf t ∧ t.entriesOf q = [] ∧
      (∀ q', q' ≠ q → t.entriesOf q' = s.entriesOf q') ∧ t.rsps = s.rsps ++ [⟨.ok, 0#24⟩]) ∧
    exec (.qSize q) s = .next { s with rsps := s.rsps ++ [⟨.ok, BitVec.ofNat 24 (s.entriesOf q).length⟩] }

/-! ## Frame classification (42_frame.md) -/

/-- R120: FRM.CLASS in its four cases. -/
def Obligations.FrmClassAppliesTheLengthRule : Prop :=
  (∀ len : Half, decode (0x30000000#32 ||| len.setWidth 32) = .ok (.frmClass len)) ∧
  (∀ (len : Half) (s : State), 0 < len.toNat → len.toNat % (s.cfg.dataLen + 1) = 0 → len.toNat % 2 = 0 →
    exec (.frmClass len) s = .next { s with
      err := s.err ||| 0b01000#5
      rsps := s.rsps ++ [⟨.classAmbiguous, 0#24⟩] }) ∧
  (∀ (len : Half) (s : State), 0 < len.toNat → len.toNat % (s.cfg.dataLen + 1) = 0 → len.toNat % 2 ≠ 0 →
    exec (.frmClass len) s = .next { s with
      rsps := s.rsps ++ [⟨.ok, BitVec.ofNat 24 (65536 + len.toNat / (s.cfg.dataLen + 1))⟩] }) ∧
  (∀ (len : Half) (s : State), 0 < len.toNat → len.toNat % (s.cfg.dataLen + 1) ≠ 0 → len.toNat % 2 = 0 →
    exec (.frmClass len) s = .next { s with rsps := s.rsps ++ [⟨.ok, BitVec.ofNat 24 (2 * 65536 + len.toNat / 2)⟩] }) ∧
  (∀ (len : Half) (s : State), len.toNat = 0 ∨ (len.toNat % (s.cfg.dataLen + 1) ≠ 0 ∧ len.toNat % 2 ≠ 0) →
    exec (.frmClass len) s = .next { s with rsps := s.rsps ++ [⟨.classNone, 0#24⟩] })

/-- R120, R225: with DATALEN odd every batch of data frames is ambiguous; with DATALEN even exactly the positive multiples
of 2·SD are. -/
def Obligations.AmbiguousLengthsByParityOfDatalen : Prop :=
  ∀ (c : Cfg) (len : Nat),
    (c.dataLen % 2 = 1 → 0 < len → (c.dataLen + 1) ∣ len → classify c len = .ambiguous) ∧
    (c.dataLen % 2 = 0 → (classify c len = .ambiguous ↔ 0 < len ∧ 2 * (c.dataLen + 1) ∣ len))

/-- R121, R122: a buffer of data frames becomes one ARQ.RXDATA a frame, a buffer of ACK frames one ARQ.RXACK a frame, in
buffer order; an ambiguous buffer becomes no command. R63: the begin-experiment signal becomes ARQ.CTRL 0x02, 0x47. That a
buffer of exactly these two bytes is always the signal, also where it is as long as a data frame (DATALEN = 1), is the
model's choice (log entry 20); so is classifying a buffer
longer than 65535 bytes (log entry 21). -/
def Obligations.BufferBecomesOneCommandAFrame : Prop :=
  (∀ (c : Cfg) (frames : List (Byte × List Byte)), frames ≠ [] → (∀ f ∈ frames, f.2.length = c.dataLen) →
    (frames.length * (c.dataLen + 1)) % 2 = 1 →
    bufferCommands c ((frames.map fun f => f.1 :: f.2).flatten) = frames.map fun f => .arqRxdata f.1) ∧
  (∀ (c : Cfg) (frames : List (Byte × Byte)), frames ≠ [] → ¬(c.dataLen + 1) ∣ 2 * frames.length →
    bufferCommands c ((frames.map fun f => [f.1, f.2]).flatten) = frames.map fun f => .arqRxack f.1 f.2) ∧
  (∀ (c : Cfg) (buf : List Byte), buf ≠ [] → (c.dataLen + 1) ∣ buf.length → 2 ∣ buf.length → bufferCommands c buf = []) ∧
  (∀ c : Cfg, receivedCommands c [0x02#8, 0x47#8] = [.arqCtrl 0x02#8 0x47#8] ∧
    (receivedCommands c [0x02#8, 0x47#8]).map encode = [0x40000247#32]) ∧
  (∀ (c : Cfg) (buf : List Byte), buf ≠ [0x02#8, 0x47#8] → receivedCommands c buf = bufferCommands c buf)

/-! ## The ARQ engine (43_arq.md) -/

/-- R131: the loss comparator; of the 65536 draws exactly P drop. -/
def Obligations.LossComparator : Prop :=
  (∀ (u : Draw) (p : Nat), dropped u p = true ↔ u.toNat < p) ∧
  (∀ u : Draw, dropped u 0 = false ∧ dropped u 65536 = true) ∧
  (∀ p : Nat, p ≤ 65536 → (Finset.univ.filter fun u : Draw => dropped u p = true).card = p)

/-- R139: the fire predicate over the integers; a timer that starts at 0 fires first on tick floor(T / TICK_MS) + 1. -/
def Obligations.TimerFiresFirstOnItsTick : Prop :=
  (∀ (c : Cfg) (t : Half) (threshold : Nat), fires c t threshold = true ↔ t.toNat * c.tickMs > threshold) ∧
  (∀ (c : Cfg) (threshold : Nat), c.valid = true → threshold = c.ackTimeout ∨ threshold = c.txTimeout →
    fires c (BitVec.ofNat 16 (threshold / c.tickMs + 1)) threshold = true ∧
    ∀ k, k ≤ threshold / c.tickMs → fires c (BitVec.ofNat 16 k) threshold = false)

/-- R141: any other control pair is answered CTRL_IGNORED and changes nothing. -/
def Obligations.OtherControlPairsAreIgnored : Prop :=
  (∀ b0 b1 : Byte, decode (0x40000000#32 ||| b0.setWidth 32 <<< 8 ||| b1.setWidth 32) = .ok (.arqCtrl b0 b1)) ∧
  (∀ (b0 b1 : Byte) (s : State), ¬(b0 = 0x02#8 ∧ b1 = 0x47#8) →
    exec (.arqCtrl b0 b1) s = .next { s with
      rsps := s.rsps ++ [⟨.ctrlIgnored, arqNumber s.fsm s.txq.size.toNat 0⟩] })

/-- R140, R135, R134: the ARQ reset signal, in either FSM state, clears both windows and sends the first min(W, M) units;
with M = 0 it ends in Idle. That without the draws it needs it makes no step is R220, as the fault of log entry 4. -/
def Obligations.StartSignalFillsTheWindow : Prop :=
  ∀ (s : State) (n : Nat), s.cfg.valid = true → s.txq.slot.length = s.cfg.w → n = min s.cfg.w s.cfg.m →
    (n ≤ s.draws.length → exec (.arqCtrl 0x02#8 0x47#8) s = .next { s with
      fsm := if s.cfg.m = 0 then .idle else .transmitting
      nextSeq := seqOfUnit s.cfg n
      sentCount := BitVec.ofNat 16 n
      rxExp := BitVec.ofNat 8 s.cfg.base
      ackTimer := 0#16
      txTimer := 0#16
      txq := { slot := (List.range n).map (seqOfUnit s.cfg) ++ s.txq.slot.drop n
               front := 0#8
               rear := BitVec.ofNat 8 ((n + s.cfg.w - 1) % s.cfg.w)
               size := BitVec.ofNat 8 n }
      ackbits := 0#16
      rxq := { slot := s.rxq.slot, front := 0#8, rear := BitVec.ofNat 8 (s.cfg.d - 1), size := 0#8 }
      draws := s.draws.drop n
      events := s.events ++ dataEvents s.cfg.pData
        ((List.range n).map fun u => (seqOfUnit s.cfg u, BitVec.ofNat 16 u)) s.draws
      rsps := s.rsps ++ [⟨.ok, arqNumber (if s.cfg.m = 0 then .idle else .transmitting) n n⟩] }) ∧
    (s.draws.length < n → exec (.arqCtrl 0x02#8 0x47#8) s = .fault .drawStall)

/-- R155: a frame out of order changes nothing; one in order is accepted, enqueued unless RXQ is full, and the front entry
is acknowledged once D entries wait. That a command whose draw is not there makes no step is R220, as the fault of log
entry 4. -/
def Obligations.DataFrameAcceptedInOrder : Prop :=
  (∀ x : Byte, decode (0x41000000#32 ||| x.setWidth 32) = .ok (.arqRxdata x)) ∧
  (∀ (x : Byte) (s : State), x ≠ s.rxExp → exec (.arqRxdata x) s = .next { s with
    rsps := s.rsps ++ [⟨.rxOutOfOrder, arqNumber s.fsm s.txq.size.toNat 0⟩] }) ∧
  (∀ s : State, s.cfg.valid = true → QueuesWf s → (s.entriesOf .rxq).length + 1 < s.cfg.d →
    (s.rxq.pushed s.cfg.d s.rxExp).entries s.cfg.d = s.entriesOf .rxq ++ [s.rxExp] ∧
    exec (.arqRxdata s.rxExp) s = .next { s with
      rxExp := if s.rxExp.toNat = s.cfg.base + s.cfg.lenm - 1 then BitVec.ofNat 8 s.cfg.base else s.rxExp + 1#8
      rxq := s.rxq.pushed s.cfg.d s.rxExp
      events := s.events ++ [.accept s.rxExp]
      rsps := s.rsps ++ [⟨.ok, arqNumber s.fsm s.txq.size.toNat 1⟩] }) ∧
  (∀ (s : State) (u : Draw) (us : List Draw) (y : Byte) (ys : List Byte), s.cfg.valid = true → QueuesWf s →
    s.draws = u :: us → (s.entriesOf .rxq).length + 1 = s.cfg.d → s.entriesOf .rxq ++ [s.rxExp] = y :: ys →
    ((s.rxq.pushed s.cfg.d s.rxExp).popped s.cfg.d).entries s.cfg.d = ys ∧
    exec (.arqRxdata s.rxExp) s = .next { s with
      rxExp := if s.rxExp.toNat = s.cfg.base + s.cfg.lenm - 1 then BitVec.ofNat 8 s.cfg.base else s.rxExp + 1#8
      rxq := (s.rxq.pushed s.cfg.d s.rxExp).popped s.cfg.d
      draws := us
      events := s.events ++ [.accept s.rxExp, .ack y (decide (u.toNat < s.cfg.pAckOut))]
      rsps := s.rsps ++ [⟨.ok, arqNumber s.fsm s.txq.size.toNat 2⟩] }) ∧
  (∀ (s : State) (u : Draw) (us : List Draw) (y : Byte) (ys : List Byte), s.cfg.valid = true → QueuesWf s →
    s.draws = u :: us → (s.entriesOf .rxq).length = s.cfg.d → s.entriesOf .rxq = y :: ys →
    (s.rxq.popped s.cfg.d).entries s.cfg.d = ys ∧
    exec (.arqRxdata s.rxExp) s = .next { s with
      rxExp := if s.rxExp.toNat = s.cfg.base + s.cfg.lenm - 1 then BitVec.ofNat 8 s.cfg.base else s.rxExp + 1#8
      rxq := s.rxq.popped s.cfg.d
      err := s.err ||| 0b00010#5
      draws := us
      events := s.events ++ [.accept s.rxExp, .ack y (decide (u.toNat < s.cfg.pAckOut))]
      rsps := s.rsps ++ [⟨.qFull, arqNumber s.fsm s.txq.size.toNat 2⟩] }) ∧
  (∀ s : State, s.cfg.valid = true → QueuesWf s → s.draws = [] → s.cfg.d ≤ (s.entriesOf .rxq).length + 1 →
    exec (.arqRxdata s.rxExp) s = .fault .drawStall)

/-- R223: a frame just accepted, sent again, is out of order: no ACK and no change. -/
def Obligations.DuplicateFrameIsNotAcknowledged : Prop :=
  ∀ (s t : State) (x : Byte), s.cfg.valid = true → inSeqSpace s.cfg s.rxExp → x = s.rxExp →
    exec (.arqRxdata x) s = .next t → exec (.arqRxdata x) t = .next { t with
      rsps := t.rsps ++ [⟨.rxOutOfOrder, arqNumber t.fsm t.txq.size.toNat 0⟩] }

/-- R145, R192: the checks of ARQ.RXACK before the window is looked at, in their order. That without its draw it makes no
step is R220, as the fault of log entry 4. -/
def Obligations.AckChecksInOrder : Prop :=
  (∀ x m : Byte, decode (0x42000000#32 ||| x.setWidth 32 <<< 8 ||| m.setWidth 32) = .ok (.arqRxack x m)) ∧
  (∀ (x m : Byte) (s : State), s.fsm = .idle → exec (.arqRxack x m) s = .next { s with
    rsps := s.rsps ++ [⟨.idleIgnored, arqNumber .idle s.txq.size.toNat 0⟩] }) ∧
  (∀ (x m : Byte) (s : State), s.fsm = .transmitting → s.draws = [] → exec (.arqRxack x m) s = .fault .drawStall) ∧
  (∀ (x m : Byte) (s : State) (u : Draw) (us : List Draw), s.fsm = .transmitting → s.draws = u :: us →
    u.toNat < s.cfg.pAckIn → exec (.arqRxack x m) s = .next { s with
      draws := us
      rsps := s.rsps ++ [⟨.ackDropped, arqNumber .transmitting s.txq.size.toNat 0⟩] }) ∧
  (∀ (x m : Byte) (s : State) (u : Draw) (us : List Draw), s.fsm = .transmitting → s.draws = u :: us →
    s.cfg.pAckIn ≤ u.toNat → m ≠ 0x06#8 → exec (.arqRxack x m) s = .next { s with
      draws := us
      rsps := s.rsps ++ [⟨.ackBadmark, arqNumber .transmitting s.txq.size.toNat 0⟩] })

/-- R145, SW: an ACK for the front entry takes it; any other sequence number is ACK_NOMATCH. -/
def Obligations.StopAndWaitAckTakesTheFrontEntry : Prop :=
  ∀ (s : State) (x : Byte) (u : Draw) (us : List Draw), Inv s → s.cfg.mode = .sw → s.fsm = .transmitting →
    s.draws = u :: us → s.cfg.pAckIn ≤ u.toNat →
    ((s.entriesOf .txq).head? = some x → exec (.arqRxack x 0x06#8) s = .next (windowAdvanced s us 1)) ∧
    ((s.entriesOf .txq).head? ≠ some x → exec (.arqRxack x 0x06#8) s = .next { s with
      draws := us
      rsps := s.rsps ++ [⟨.ackNomatch, arqNumber .transmitting s.txq.size.toNat 0⟩] })

/-- R145, GBN: an ACK for the entry at offset j takes that entry and every earlier one. -/
def Obligations.GoBackNAckIsCumulative : Prop :=
  ∀ (s : State) (x : Byte) (u : Draw) (us : List Draw), Inv s → s.cfg.mode = .gbn → s.fsm = .transmitting →
    s.draws = u :: us → s.cfg.pAckIn ≤ u.toNat →
    (∀ j, j < s.txq.size.toNat → s.txq.entry s.cfg.w j = x →
      exec (.arqRxack x 0x06#8) s = .next (windowAdvanced s us (j + 1))) ∧
    (x ∉ s.entriesOf .txq → exec (.arqRxack x 0x06#8) s = .next { s with
      draws := us
      rsps := s.rsps ++ [⟨.ackNomatch, arqNumber .transmitting s.txq.size.toNat 0⟩] })

/-- R145, SR and SLW: an ACK for the entry at offset j marks it and the marked prefix leaves the window; an entry already
marked is ACK_DUPLICATE. -/
def Obligations.SelectiveAckMarksAndSlides : Prop :=
  ∀ (s : State) (x : Byte) (u : Draw) (us : List Draw), Inv s → s.cfg.mode = .sr ∨ s.cfg.mode = .slw →
    s.fsm = .transmitting → s.draws = u :: us → s.cfg.pAckIn ≤ u.toNat →
    (∀ j, j < s.txq.size.toNat → s.txq.entry s.cfg.w j = x → ackBit s (s.txq.entryIndex s.cfg.w j) = false →
      ∃ a : BitVec 16,
        (∀ i, i < 16 → a.getLsbD i = ((s.ackbits.getLsbD i || decide (i = s.txq.entryIndex s.cfg.w j)) &&
          !(List.range (markedPrefix ((ackMarks s).set j true))).any fun k => decide (s.txq.entryIndex s.cfg.w k = i))) ∧
        exec (.arqRxack x 0x06#8) s =
          .next { windowAdvanced s us (markedPrefix ((ackMarks s).set j true)) with ackbits := a }) ∧
    (∀ j, j < s.txq.size.toNat → s.txq.entry s.cfg.w j = x → ackBit s (s.txq.entryIndex s.cfg.w j) = true →
      exec (.arqRxack x 0x06#8) s = .next { s with
        draws := us
        rsps := s.rsps ++ [⟨.ackDuplicate, arqNumber .transmitting s.txq.size.toNat 0⟩] }) ∧
    (x ∉ s.entriesOf .txq → exec (.arqRxack x 0x06#8) s = .next { s with
      draws := us
      rsps := s.rsps ++ [⟨.ackNomatch, arqNumber .transmitting s.txq.size.toNat 0⟩] })

/-- R150: one tick: in Idle nothing; in Transmitting both counters, then the ACK timer's test and its retransmissions,
then the transmit timer's test and its new frame. That without the draws it needs it makes no step is R220, as the fault of
log entry 4. -/
def Obligations.TickCountsThenFires : Prop :=
  decode 0x43000000#32 = .ok .arqTick ∧
  (∀ s : State, s.fsm = .idle → exec .arqTick s = .next { s with
    rsps := s.rsps ++ [⟨.idleIgnored, arqNumber .idle s.txq.size.toNat 0⟩] }) ∧
  (∀ s : State, Inv s → s.fsm = .transmitting → (tickFrames s).length ≤ s.draws.length →
    exec .arqTick s = .next { s with
      ackTimer := if ackFires s then 0#16 else if s.txq.size = 0#8 then s.ackTimer else s.ackTimer + 1#16
      txTimer := if txFires s then 0#16 else s.txTimer + 1#16
      nextSeq := if newFrameDue s then seqOfUnit s.cfg (s.sentCount.toNat + 1) else s.nextSeq
      sentCount := if newFrameDue s then s.sentCount + 1#16 else s.sentCount
      txq := if newFrameDue s then
        { slot := s.txq.slot.set ((s.txq.rear.toNat + 1) % s.cfg.w) s.nextSeq
          front := s.txq.front
          rear := BitVec.ofNat 8 ((s.txq.rear.toNat + 1) % s.cfg.w)
          size := s.txq.size + 1#8 } else s.txq
      draws := s.draws.drop (tickFrames s).length
      events := s.events ++ dataEvents s.cfg.pData (tickFrames s) s.draws
      rsps := s.rsps ++ [⟨.ok, arqNumber .transmitting
        (s.txq.size.toNat + if newFrameDue s then 1 else 0) (tickFrames s).length⟩] }) ∧
  (∀ s : State, Inv s → s.fsm = .transmitting → s.draws.length < (tickFrames s).length →
    exec .arqTick s = .fault .drawStall)

/-- R136, 90_conflicts.md C8: in SW and GBN an ACK timeout gives exactly the frames and the end state of clearing the
window, rewinding SENT_COUNT by n and sending those n units anew; only the places of the entries in the ring differ. -/
def Obligations.RetransmitIsRewindAndResend : Prop :=
  ∀ s : State, Inv s → s.fsm = .transmitting → s.cfg.mode = .sw ∨ s.cfg.mode = .gbn →
    s.txq.size.toNat ≤ s.draws.length →
    ∃ t t' : State, retransmit s = some t ∧
      sendTimes s.txq.size.toNat { s with
        txq := { slot := s.txq.slot, front := 0#8, rear := BitVec.ofNat 8 (s.cfg.w - 1), size := 0#8 }
        nextSeq := seqOfUnit s.cfg (s.sentCount.toNat - s.txq.size.toNat)
        sentCount := BitVec.ofNat 16 (s.sentCount.toNat - s.txq.size.toNat) } = some t' ∧
      t'.entriesOf .txq = t.entriesOf .txq ∧ { t' with txq := t.txq } = t

/-- R136: retransmission re-emits, in order from the front, every outstanding entry in SW and GBN and those without ACKBIT
in SR and SLW, each with its unit, and changes nothing but the events and their draws. -/
def Obligations.RetransmitOnlyEmits : Prop :=
  ∀ s : State, Inv s → s.fsm = .transmitting → (outstandingFrames s).length ≤ s.draws.length →
    retransmit s = some { s with
      draws := s.draws.drop (outstandingFrames s).length
      events := s.events ++ dataEvents s.cfg.pData (outstandingFrames s) s.draws }

/-- R158, R138: ARQ.EOM acknowledges every waiting entry, oldest first, in either FSM state. That without the draws it needs
it makes no step is R220, as the fault of log entry 4. -/
def Obligations.EomDrainsTheReceiverWindow : Prop :=
  decode 0x44000000#32 = .ok .arqEom ∧
  (∀ s : State, s.cfg.valid = true → QueuesWf s → s.rxq.size.toNat ≤ s.draws.length →
    exec .arqEom s = .next { s with
      rxq := { s.rxq with
        front := BitVec.ofNat 8 ((s.rxq.front.toNat + s.rxq.size.toNat) % s.cfg.d)
        size := 0#8 }
      draws := s.draws.drop s.rxq.size.toNat
      events := s.events ++ ackEvents s.cfg.pAckOut (s.entriesOf .rxq) s.draws
      rsps := s.rsps ++ [⟨.ok, arqNumber s.fsm s.txq.size.toNat s.rxq.size.toNat⟩] }) ∧
  (∀ s : State, s.cfg.valid = true → QueuesWf s → s.draws.length < s.rxq.size.toNat →
    exec .arqEom s = .fault .drawStall)

/-- R160: ARQ.DISC, in either FSM state, resets every ARQ register and ends in Idle. -/
def Obligations.DisconnectResetsTheEngine : Prop :=
  decode 0x45000000#32 = .ok .arqDisc ∧
  (∀ s : State, exec .arqDisc s = .next { s with
    fsm := .idle
    nextSeq := BitVec.ofNat 8 s.cfg.base
    sentCount := 0#16
    rxExp := BitVec.ofNat 8 s.cfg.base
    ackTimer := 0#16
    txTimer := 0#16
    txq := { slot := s.txq.slot, front := 0#8, rear := BitVec.ofNat 8 (s.cfg.w - 1), size := 0#8 }
    ackbits := 0#16
    rxq := { slot := s.rxq.slot, front := 0#8, rear := BitVec.ofNat 8 (s.cfg.d - 1), size := 0#8 }
    rsps := s.rsps ++ [⟨.ok, 0#24⟩] })

/-! ## Invariants of every step -/

/-- 10_state.md R22 to R31: the invariant holds after hardware reset of every valid configuration. -/
def Obligations.InvariantHoldsAfterReset : Prop := ∀ c : Cfg, c.valid = true → Inv (State.resetOf c)

/-- 10_state.md R22, R23, R25, R27, R29, R30, R31, R137: every step keeps the invariant. -/
def Obligations.StepKeepsTheInvariant : Prop := ∀ s t : State, Inv s → step s = .next t → Inv t

/-- R165: every step but a direct Q.ENQ on RXQ in Idle keeps both window bounds. -/
def Obligations.StepKeepsTheWindowBounds : Prop :=
  ∀ s t : State, Inv s → ReceiverWindowBelowDepth s → step s = .next t →
    (∀ (w : Word) (rest : List Input) (v : Byte), s.inputs = .command w :: rest → decode w = .ok (.qEnq .rxq v) →
      s.fsm = .transmitting) →
    ReceiverWindowBelowDepth t ∧ t.txq.size.toNat ≤ t.cfg.w ∧ (t.cfg.mode = .sw → t.txq.size.toNat ≤ 1)

/-- R30: the outstanding sequence numbers are pairwise distinct. -/
def Obligations.OutstandingSequenceNumbersAreDistinct : Prop :=
  ∀ s : State, Inv s → s.fsm = .transmitting → (s.entriesOf .txq).Nodup

/-- R166, 30_encoding.md R53: every DATA event of a step, first transmission or retransmission, names a unit below M and
carries that unit's sequence number. -/
def Obligations.DataEventsCarryTheirUnit : Prop :=
  ∀ (s t : State) (evs : List Event), Inv s → step s = .next t → t.events = s.events ++ evs →
    ∀ (x : Byte) (u : Half) (d : Bool), .data x u d ∈ evs → x = seqOfUnit s.cfg u.toNat ∧ u.toNat < s.cfg.m

/-- 10_state.md R28: no command reads a slot that holds no entry: two states that differ only there step to states that
differ only there. -/
def Obligations.FreeSlotsAreNeverRead : Prop :=
  ∀ s t : State, QueuesWf s → SameButFreeSlots s t → SameResult (step s) (step t)

/-- 60_exceptions.md R190, R32: a command other than REG.CLRERR keeps every ERR bit that is set, and sets none but those
that its rule names. -/
def Obligations.ErrBitsAreStickyAndOwned : Prop :=
  ∀ (i : Instr) (s t : State), s.cfg.valid = true → (∀ mask, i ≠ .regClrerr mask) →
    exec i s = .next t → s.err &&& t.err = s.err ∧ t.err &&& ~~~(s.err ||| errBitsOf i) = 0#5

/-- 10_state.md R21, R22, R23, R25, R31, R33, R197: which commands may write each ARQ register. -/
def Obligations.OnlyNamedCommandsWriteTheArqRegisters : Prop :=
  ∀ (i : Instr) (s t : State), exec i s = .next t →
    i ≠ .arqCtrl 0x02#8 0x47#8 → i ≠ .arqDisc →
    ((∀ x m, i ≠ .arqRxack x m) → t.fsm = s.fsm) ∧
    ((∀ x m, i ≠ .arqRxack x m) → i ≠ .arqTick → t.ackTimer = s.ackTimer ∧ t.txTimer = s.txTimer) ∧
    (i ≠ .arqTick → t.nextSeq = s.nextSeq ∧ t.sentCount = s.sentCount) ∧
    ((∀ x, i ≠ .arqRxdata x) → t.rxExp = s.rxExp)

/-- 20_memory.md R45: the reading commands change nothing but ERR, those of the first group not even that, and issuing one
twice gives the same response and the same state as once. -/
def Obligations.ReadingCommandsAreIdempotent : Prop :=
  ∀ (i : Instr) (s : State), Instr.wellFormed i = true →
    (i = .nop ∨ (∃ r, i = .regRd r) ∨ (∃ q, i = .qSize q) ∨ (∃ m, i = .fecEnc m) ∨ (∃ c, i = .fecSyn c) ∨
      (∃ c, i = .fecDec c) ∨ (∃ q, i = .qFront q) ∨ (∃ q, i = .qRear q) ∨ (∃ c, i = .fecCor c) ∨ (∃ l, i = .frmClass l)) →
    ∃ (r : Response) (e : BitVec 5), exec i s = .next { s with err := e, rsps := s.rsps ++ [r] } ∧
      exec i { s with err := e, rsps := s.rsps ++ [r] } = .next { s with err := e, rsps := s.rsps ++ [r, r] } ∧
      (e ≠ s.err → (∃ q, i = .qFront q) ∨ (∃ q, i = .qRear q) ∨ (∃ c, i = .fecCor c) ∨ (∃ l, i = .frmClass l))
end

