-- ==== Sys2Proof/Laws/State.lean ====
section
/-! SUPPORT. One lemma per field per update of the state, so that no proof unfolds a record update. -/

namespace Sys2Proof.Machine

/-! ### setErr -/

@[simp] theorem setErr_cfg (b : ErrBit) (s : State) : (setErr b s).cfg = s.cfg := rfl
@[simp] theorem setErr_fsm (b : ErrBit) (s : State) : (setErr b s).fsm = s.fsm := rfl
@[simp] theorem setErr_nextSeq (b : ErrBit) (s : State) : (setErr b s).nextSeq = s.nextSeq := rfl
@[simp] theorem setErr_sentCount (b : ErrBit) (s : State) : (setErr b s).sentCount = s.sentCount := rfl
@[simp] theorem setErr_rxExp (b : ErrBit) (s : State) : (setErr b s).rxExp = s.rxExp := rfl
@[simp] theorem setErr_ackTimer (b : ErrBit) (s : State) : (setErr b s).ackTimer = s.ackTimer := rfl
@[simp] theorem setErr_txTimer (b : ErrBit) (s : State) : (setErr b s).txTimer = s.txTimer := rfl
@[simp] theorem setErr_txq (b : ErrBit) (s : State) : (setErr b s).txq = s.txq := rfl
@[simp] theorem setErr_ackbits (b : ErrBit) (s : State) : (setErr b s).ackbits = s.ackbits := rfl
@[simp] theorem setErr_rxq (b : ErrBit) (s : State) : (setErr b s).rxq = s.rxq := rfl
@[simp] theorem setErr_err (b : ErrBit) (s : State) : (setErr b s).err = s.err ||| (1#5 <<< b.number) := rfl
@[simp] theorem setErr_inputs (b : ErrBit) (s : State) : (setErr b s).inputs = s.inputs := rfl
@[simp] theorem setErr_draws (b : ErrBit) (s : State) : (setErr b s).draws = s.draws := rfl
@[simp] theorem setErr_events (b : ErrBit) (s : State) : (setErr b s).events = s.events := rfl
@[simp] theorem setErr_rsps (b : ErrBit) (s : State) : (setErr b s).rsps = s.rsps := rfl

/-! ### respond -/

@[simp] theorem respond_cfg (st : Status) (d : BitVec 24) (s : State) : (respond st d s).cfg = s.cfg := rfl
@[simp] theorem respond_fsm (st : Status) (d : BitVec 24) (s : State) : (respond st d s).fsm = s.fsm := rfl
@[simp] theorem respond_nextSeq (st : Status) (d : BitVec 24) (s : State) : (respond st d s).nextSeq = s.nextSeq := rfl
@[simp] theorem respond_sentCount (st : Status) (d : BitVec 24) (s : State) : (respond st d s).sentCount = s.sentCount := rfl
@[simp] theorem respond_rxExp (st : Status) (d : BitVec 24) (s : State) : (respond st d s).rxExp = s.rxExp := rfl
@[simp] theorem respond_ackTimer (st : Status) (d : BitVec 24) (s : State) : (respond st d s).ackTimer = s.ackTimer := rfl
@[simp] theorem respond_txTimer (st : Status) (d : BitVec 24) (s : State) : (respond st d s).txTimer = s.txTimer := rfl
@[simp] theorem respond_txq (st : Status) (d : BitVec 24) (s : State) : (respond st d s).txq = s.txq := rfl
@[simp] theorem respond_ackbits (st : Status) (d : BitVec 24) (s : State) : (respond st d s).ackbits = s.ackbits := rfl
@[simp] theorem respond_rxq (st : Status) (d : BitVec 24) (s : State) : (respond st d s).rxq = s.rxq := rfl
@[simp] theorem respond_err (st : Status) (d : BitVec 24) (s : State) : (respond st d s).err = s.err := rfl
@[simp] theorem respond_inputs (st : Status) (d : BitVec 24) (s : State) : (respond st d s).inputs = s.inputs := rfl
@[simp] theorem respond_draws (st : Status) (d : BitVec 24) (s : State) : (respond st d s).draws = s.draws := rfl
@[simp] theorem respond_events (st : Status) (d : BitVec 24) (s : State) : (respond st d s).events = s.events := rfl
@[simp] theorem respond_rsps (st : Status) (d : BitVec 24) (s : State) : (respond st d s).rsps = s.rsps ++ [⟨st, d⟩] := rfl

/-! ### emit -/

@[simp] theorem emit_cfg (e : Event) (s : State) : (emit e s).cfg = s.cfg := rfl
@[simp] theorem emit_fsm (e : Event) (s : State) : (emit e s).fsm = s.fsm := rfl
@[simp] theorem emit_nextSeq (e : Event) (s : State) : (emit e s).nextSeq = s.nextSeq := rfl
@[simp] theorem emit_sentCount (e : Event) (s : State) : (emit e s).sentCount = s.sentCount := rfl
@[simp] theorem emit_rxExp (e : Event) (s : State) : (emit e s).rxExp = s.rxExp := rfl
@[simp] theorem emit_ackTimer (e : Event) (s : State) : (emit e s).ackTimer = s.ackTimer := rfl
@[simp] theorem emit_txTimer (e : Event) (s : State) : (emit e s).txTimer = s.txTimer := rfl
@[simp] theorem emit_txq (e : Event) (s : State) : (emit e s).txq = s.txq := rfl
@[simp] theorem emit_ackbits (e : Event) (s : State) : (emit e s).ackbits = s.ackbits := rfl
@[simp] theorem emit_rxq (e : Event) (s : State) : (emit e s).rxq = s.rxq := rfl
@[simp] theorem emit_err (e : Event) (s : State) : (emit e s).err = s.err := rfl
@[simp] theorem emit_inputs (e : Event) (s : State) : (emit e s).inputs = s.inputs := rfl
@[simp] theorem emit_draws (e : Event) (s : State) : (emit e s).draws = s.draws := rfl
@[simp] theorem emit_events (e : Event) (s : State) : (emit e s).events = s.events ++ [e] := rfl
@[simp] theorem emit_rsps (e : Event) (s : State) : (emit e s).rsps = s.rsps := rfl

/-! ### setAckBit -/

@[simp] theorem setAckBit_cfg (i : Nat) (s : State) : (setAckBit i s).cfg = s.cfg := rfl
@[simp] theorem setAckBit_fsm (i : Nat) (s : State) : (setAckBit i s).fsm = s.fsm := rfl
@[simp] theorem setAckBit_nextSeq (i : Nat) (s : State) : (setAckBit i s).nextSeq = s.nextSeq := rfl
@[simp] theorem setAckBit_sentCount (i : Nat) (s : State) : (setAckBit i s).sentCount = s.sentCount := rfl
@[simp] theorem setAckBit_rxExp (i : Nat) (s : State) : (setAckBit i s).rxExp = s.rxExp := rfl
@[simp] theorem setAckBit_ackTimer (i : Nat) (s : State) : (setAckBit i s).ackTimer = s.ackTimer := rfl
@[simp] theorem setAckBit_txTimer (i : Nat) (s : State) : (setAckBit i s).txTimer = s.txTimer := rfl
@[simp] theorem setAckBit_txq (i : Nat) (s : State) : (setAckBit i s).txq = s.txq := rfl
@[simp] theorem setAckBit_ackbits (i : Nat) (s : State) : (setAckBit i s).ackbits = s.ackbits ||| (1#16 <<< i) := rfl
@[simp] theorem setAckBit_rxq (i : Nat) (s : State) : (setAckBit i s).rxq = s.rxq := rfl
@[simp] theorem setAckBit_err (i : Nat) (s : State) : (setAckBit i s).err = s.err := rfl
@[simp] theorem setAckBit_inputs (i : Nat) (s : State) : (setAckBit i s).inputs = s.inputs := rfl
@[simp] theorem setAckBit_draws (i : Nat) (s : State) : (setAckBit i s).draws = s.draws := rfl
@[simp] theorem setAckBit_events (i : Nat) (s : State) : (setAckBit i s).events = s.events := rfl
@[simp] theorem setAckBit_rsps (i : Nat) (s : State) : (setAckBit i s).rsps = s.rsps := rfl

/-! ### clearAckBit -/

@[simp] theorem clearAckBit_cfg (i : Nat) (s : State) : (clearAckBit i s).cfg = s.cfg := rfl
@[simp] theorem clearAckBit_fsm (i : Nat) (s : State) : (clearAckBit i s).fsm = s.fsm := rfl
@[simp] theorem clearAckBit_nextSeq (i : Nat) (s : State) : (clearAckBit i s).nextSeq = s.nextSeq := rfl
@[simp] theorem clearAckBit_sentCount (i : Nat) (s : State) : (clearAckBit i s).sentCount = s.sentCount := rfl
@[simp] theorem clearAckBit_rxExp (i : Nat) (s : State) : (clearAckBit i s).rxExp = s.rxExp := rfl
@[simp] theorem clearAckBit_ackTimer (i : Nat) (s : State) : (clearAckBit i s).ackTimer = s.ackTimer := rfl
@[simp] theorem clearAckBit_txTimer (i : Nat) (s : State) : (clearAckBit i s).txTimer = s.txTimer := rfl
@[simp] theorem clearAckBit_txq (i : Nat) (s : State) : (clearAckBit i s).txq = s.txq := rfl
@[simp] theorem clearAckBit_ackbits (i : Nat) (s : State) : (clearAckBit i s).ackbits = s.ackbits &&& ~~~(1#16 <<< i) := rfl
@[simp] theorem clearAckBit_rxq (i : Nat) (s : State) : (clearAckBit i s).rxq = s.rxq := rfl
@[simp] theorem clearAckBit_err (i : Nat) (s : State) : (clearAckBit i s).err = s.err := rfl
@[simp] theorem clearAckBit_inputs (i : Nat) (s : State) : (clearAckBit i s).inputs = s.inputs := rfl
@[simp] theorem clearAckBit_draws (i : Nat) (s : State) : (clearAckBit i s).draws = s.draws := rfl
@[simp] theorem clearAckBit_events (i : Nat) (s : State) : (clearAckBit i s).events = s.events := rfl
@[simp] theorem clearAckBit_rsps (i : Nat) (s : State) : (clearAckBit i s).rsps = s.rsps := rfl

/-! ### clearAckBits -/

@[simp] theorem clearAckBits_cfg (s : State) : (clearAckBits s).cfg = s.cfg := rfl
@[simp] theorem clearAckBits_fsm (s : State) : (clearAckBits s).fsm = s.fsm := rfl
@[simp] theorem clearAckBits_nextSeq (s : State) : (clearAckBits s).nextSeq = s.nextSeq := rfl
@[simp] theorem clearAckBits_sentCount (s : State) : (clearAckBits s).sentCount = s.sentCount := rfl
@[simp] theorem clearAckBits_rxExp (s : State) : (clearAckBits s).rxExp = s.rxExp := rfl
@[simp] theorem clearAckBits_ackTimer (s : State) : (clearAckBits s).ackTimer = s.ackTimer := rfl
@[simp] theorem clearAckBits_txTimer (s : State) : (clearAckBits s).txTimer = s.txTimer := rfl
@[simp] theorem clearAckBits_txq (s : State) : (clearAckBits s).txq = s.txq := rfl
@[simp] theorem clearAckBits_ackbits (s : State) : (clearAckBits s).ackbits = 0#16 := rfl
@[simp] theorem clearAckBits_rxq (s : State) : (clearAckBits s).rxq = s.rxq := rfl
@[simp] theorem clearAckBits_err (s : State) : (clearAckBits s).err = s.err := rfl
@[simp] theorem clearAckBits_inputs (s : State) : (clearAckBits s).inputs = s.inputs := rfl
@[simp] theorem clearAckBits_draws (s : State) : (clearAckBits s).draws = s.draws := rfl
@[simp] theorem clearAckBits_events (s : State) : (clearAckBits s).events = s.events := rfl
@[simp] theorem clearAckBits_rsps (s : State) : (clearAckBits s).rsps = s.rsps := rfl

/-! ### clearErr -/

@[simp] theorem clearErr_cfg (m : BitVec 5) (s : State) : (clearErr m s).cfg = s.cfg := rfl
@[simp] theorem clearErr_fsm (m : BitVec 5) (s : State) : (clearErr m s).fsm = s.fsm := rfl
@[simp] theorem clearErr_nextSeq (m : BitVec 5) (s : State) : (clearErr m s).nextSeq = s.nextSeq := rfl
@[simp] theorem clearErr_sentCount (m : BitVec 5) (s : State) : (clearErr m s).sentCount = s.sentCount := rfl
@[simp] theorem clearErr_rxExp (m : BitVec 5) (s : State) : (clearErr m s).rxExp = s.rxExp := rfl
@[simp] theorem clearErr_ackTimer (m : BitVec 5) (s : State) : (clearErr m s).ackTimer = s.ackTimer := rfl
@[simp] theorem clearErr_txTimer (m : BitVec 5) (s : State) : (clearErr m s).txTimer = s.txTimer := rfl
@[simp] theorem clearErr_txq (m : BitVec 5) (s : State) : (clearErr m s).txq = s.txq := rfl
@[simp] theorem clearErr_ackbits (m : BitVec 5) (s : State) : (clearErr m s).ackbits = s.ackbits := rfl
@[simp] theorem clearErr_rxq (m : BitVec 5) (s : State) : (clearErr m s).rxq = s.rxq := rfl
@[simp] theorem clearErr_err (m : BitVec 5) (s : State) : (clearErr m s).err = s.err &&& ~~~m := rfl
@[simp] theorem clearErr_inputs (m : BitVec 5) (s : State) : (clearErr m s).inputs = s.inputs := rfl
@[simp] theorem clearErr_draws (m : BitVec 5) (s : State) : (clearErr m s).draws = s.draws := rfl
@[simp] theorem clearErr_events (m : BitVec 5) (s : State) : (clearErr m s).events = s.events := rfl
@[simp] theorem clearErr_rsps (m : BitVec 5) (s : State) : (clearErr m s).rsps = s.rsps := rfl

/-! ### arqRsp -/

@[simp] theorem arqRsp_cfg (s0 : State) (st : Status) (s : State) : (arqRsp s0 st s).cfg = s.cfg := rfl
@[simp] theorem arqRsp_fsm (s0 : State) (st : Status) (s : State) : (arqRsp s0 st s).fsm = s.fsm := rfl
@[simp] theorem arqRsp_nextSeq (s0 : State) (st : Status) (s : State) : (arqRsp s0 st s).nextSeq = s.nextSeq := rfl
@[simp] theorem arqRsp_sentCount (s0 : State) (st : Status) (s : State) : (arqRsp s0 st s).sentCount = s.sentCount := rfl
@[simp] theorem arqRsp_rxExp (s0 : State) (st : Status) (s : State) : (arqRsp s0 st s).rxExp = s.rxExp := rfl
@[simp] theorem arqRsp_ackTimer (s0 : State) (st : Status) (s : State) : (arqRsp s0 st s).ackTimer = s.ackTimer := rfl
@[simp] theorem arqRsp_txTimer (s0 : State) (st : Status) (s : State) : (arqRsp s0 st s).txTimer = s.txTimer := rfl
@[simp] theorem arqRsp_txq (s0 : State) (st : Status) (s : State) : (arqRsp s0 st s).txq = s.txq := rfl
@[simp] theorem arqRsp_ackbits (s0 : State) (st : Status) (s : State) : (arqRsp s0 st s).ackbits = s.ackbits := rfl
@[simp] theorem arqRsp_rxq (s0 : State) (st : Status) (s : State) : (arqRsp s0 st s).rxq = s.rxq := rfl
@[simp] theorem arqRsp_err (s0 : State) (st : Status) (s : State) : (arqRsp s0 st s).err = s.err := rfl
@[simp] theorem arqRsp_inputs (s0 : State) (st : Status) (s : State) : (arqRsp s0 st s).inputs = s.inputs := rfl
@[simp] theorem arqRsp_draws (s0 : State) (st : Status) (s : State) : (arqRsp s0 st s).draws = s.draws := rfl
@[simp] theorem arqRsp_events (s0 : State) (st : Status) (s : State) : (arqRsp s0 st s).events = s.events := rfl
@[simp] theorem arqRsp_rsps (s0 : State) (st : Status) (s : State) :
    (arqRsp s0 st s).rsps = s.rsps ++ [⟨st, arqData s (s.events.length - s0.events.length)⟩] := rfl

/-! ### illegal -/

@[simp] theorem illegal_cfg (s : State) : (illegal s).cfg = s.cfg := rfl
@[simp] theorem illegal_fsm (s : State) : (illegal s).fsm = s.fsm := rfl
@[simp] theorem illegal_nextSeq (s : State) : (illegal s).nextSeq = s.nextSeq := rfl
@[simp] theorem illegal_sentCount (s : State) : (illegal s).sentCount = s.sentCount := rfl
@[simp] theorem illegal_rxExp (s : State) : (illegal s).rxExp = s.rxExp := rfl
@[simp] theorem illegal_ackTimer (s : State) : (illegal s).ackTimer = s.ackTimer := rfl
@[simp] theorem illegal_txTimer (s : State) : (illegal s).txTimer = s.txTimer := rfl
@[simp] theorem illegal_txq (s : State) : (illegal s).txq = s.txq := rfl
@[simp] theorem illegal_ackbits (s : State) : (illegal s).ackbits = s.ackbits := rfl
@[simp] theorem illegal_rxq (s : State) : (illegal s).rxq = s.rxq := rfl
@[simp] theorem illegal_err (s : State) : (illegal s).err = s.err ||| 0b10000#5 := rfl
@[simp] theorem illegal_inputs (s : State) : (illegal s).inputs = s.inputs := rfl
@[simp] theorem illegal_draws (s : State) : (illegal s).draws = s.draws := rfl
@[simp] theorem illegal_events (s : State) : (illegal s).events = s.events := rfl
@[simp] theorem illegal_rsps (s : State) : (illegal s).rsps = s.rsps ++ [⟨.illegal, 0#24⟩] := rfl

/-! ### The queue a selector names -/

@[simp] theorem queue_txq (s : State) : s.queue .txq = s.txq := rfl
@[simp] theorem queue_rxq (s : State) : s.queue .rxq = s.rxq := rfl
@[simp] theorem capacity_txq (c : Cfg) : capacity c .txq = c.w := rfl
@[simp] theorem capacity_rxq (c : Cfg) : capacity c .rxq = c.d := rfl
@[simp] theorem setQueue_queue (s : State) (sel : QSel) (q : Queue) : (s.setQueue sel q).queue sel = q := by
  cases sel <;> rfl
@[simp] theorem setQueue_cfg (s : State) (sel : QSel) (q : Queue) : (s.setQueue sel q).cfg = s.cfg := by
  cases sel <;> rfl
@[simp] theorem setQueue_fsm (s : State) (sel : QSel) (q : Queue) : (s.setQueue sel q).fsm = s.fsm := by
  cases sel <;> rfl
@[simp] theorem setQueue_nextSeq (s : State) (sel : QSel) (q : Queue) : (s.setQueue sel q).nextSeq = s.nextSeq := by
  cases sel <;> rfl
@[simp] theorem setQueue_sentCount (s : State) (sel : QSel) (q : Queue) : (s.setQueue sel q).sentCount = s.sentCount := by
  cases sel <;> rfl
@[simp] theorem setQueue_rxExp (s : State) (sel : QSel) (q : Queue) : (s.setQueue sel q).rxExp = s.rxExp := by
  cases sel <;> rfl
@[simp] theorem setQueue_ackTimer (s : State) (sel : QSel) (q : Queue) : (s.setQueue sel q).ackTimer = s.ackTimer := by
  cases sel <;> rfl
@[simp] theorem setQueue_txTimer (s : State) (sel : QSel) (q : Queue) : (s.setQueue sel q).txTimer = s.txTimer := by
  cases sel <;> rfl
@[simp] theorem setQueue_ackbits (s : State) (sel : QSel) (q : Queue) : (s.setQueue sel q).ackbits = s.ackbits := by
  cases sel <;> rfl
@[simp] theorem setQueue_err (s : State) (sel : QSel) (q : Queue) : (s.setQueue sel q).err = s.err := by
  cases sel <;> rfl
@[simp] theorem setQueue_inputs (s : State) (sel : QSel) (q : Queue) : (s.setQueue sel q).inputs = s.inputs := by
  cases sel <;> rfl
@[simp] theorem setQueue_draws (s : State) (sel : QSel) (q : Queue) : (s.setQueue sel q).draws = s.draws := by
  cases sel <;> rfl
@[simp] theorem setQueue_events (s : State) (sel : QSel) (q : Queue) : (s.setQueue sel q).events = s.events := by
  cases sel <;> rfl
@[simp] theorem setQueue_rsps (s : State) (sel : QSel) (q : Queue) : (s.setQueue sel q).rsps = s.rsps := by
  cases sel <;> rfl

@[simp] theorem clearSlotAck_cfg (sel : QSel) (i : Nat) (s : State) : (clearSlotAck sel i s).cfg = s.cfg := by
  cases sel <;> rfl
@[simp] theorem clearSlotAck_fsm (sel : QSel) (i : Nat) (s : State) : (clearSlotAck sel i s).fsm = s.fsm := by
  cases sel <;> rfl
@[simp] theorem clearSlotAck_nextSeq (sel : QSel) (i : Nat) (s : State) : (clearSlotAck sel i s).nextSeq = s.nextSeq := by
  cases sel <;> rfl
@[simp] theorem clearSlotAck_sentCount (sel : QSel) (i : Nat) (s : State) : (clearSlotAck sel i s).sentCount = s.sentCount := by
  cases sel <;> rfl
@[simp] theorem clearSlotAck_rxExp (sel : QSel) (i : Nat) (s : State) : (clearSlotAck sel i s).rxExp = s.rxExp := by
  cases sel <;> rfl
@[simp] theorem clearSlotAck_ackTimer (sel : QSel) (i : Nat) (s : State) : (clearSlotAck sel i s).ackTimer = s.ackTimer := by
  cases sel <;> rfl
@[simp] theorem clearSlotAck_txTimer (sel : QSel) (i : Nat) (s : State) : (clearSlotAck sel i s).txTimer = s.txTimer := by
  cases sel <;> rfl
@[simp] theorem clearSlotAck_txq (sel : QSel) (i : Nat) (s : State) : (clearSlotAck sel i s).txq = s.txq := by
  cases sel <;> rfl
@[simp] theorem clearSlotAck_rxq (sel : QSel) (i : Nat) (s : State) : (clearSlotAck sel i s).rxq = s.rxq := by
  cases sel <;> rfl
@[simp] theorem clearSlotAck_err (sel : QSel) (i : Nat) (s : State) : (clearSlotAck sel i s).err = s.err := by
  cases sel <;> rfl
@[simp] theorem clearSlotAck_inputs (sel : QSel) (i : Nat) (s : State) : (clearSlotAck sel i s).inputs = s.inputs := by
  cases sel <;> rfl
@[simp] theorem clearSlotAck_draws (sel : QSel) (i : Nat) (s : State) : (clearSlotAck sel i s).draws = s.draws := by
  cases sel <;> rfl
@[simp] theorem clearSlotAck_events (sel : QSel) (i : Nat) (s : State) : (clearSlotAck sel i s).events = s.events := by
  cases sel <;> rfl
@[simp] theorem clearSlotAck_rsps (sel : QSel) (i : Nat) (s : State) : (clearSlotAck sel i s).rsps = s.rsps := by
  cases sel <;> rfl
@[simp] theorem clearSlotAck_queue (sel sel' : QSel) (i : Nat) (s : State) : (clearSlotAck sel i s).queue sel' = s.queue sel' := by
  cases sel <;> cases sel' <;> rfl

@[simp] theorem clearQueueAcks_cfg (sel : QSel) (s : State) : (clearQueueAcks sel s).cfg = s.cfg := by
  cases sel <;> rfl
@[simp] theorem clearQueueAcks_fsm (sel : QSel) (s : State) : (clearQueueAcks sel s).fsm = s.fsm := by
  cases sel <;> rfl
@[simp] theorem clearQueueAcks_nextSeq (sel : QSel) (s : State) : (clearQueueAcks sel s).nextSeq = s.nextSeq := by
  cases sel <;> rfl
@[simp] theorem clearQueueAcks_sentCount (sel : QSel) (s : State) : (clearQueueAcks sel s).sentCount = s.sentCount := by
  cases sel <;> rfl
@[simp] theorem clearQueueAcks_rxExp (sel : QSel) (s : State) : (clearQueueAcks sel s).rxExp = s.rxExp := by
  cases sel <;> rfl
@[simp] theorem clearQueueAcks_ackTimer (sel : QSel) (s : State) : (clearQueueAcks sel s).ackTimer = s.ackTimer := by
  cases sel <;> rfl
@[simp] theorem clearQueueAcks_txTimer (sel : QSel) (s : State) : (clearQueueAcks sel s).txTimer = s.txTimer := by
  cases sel <;> rfl
@[simp] theorem clearQueueAcks_txq (sel : QSel) (s : State) : (clearQueueAcks sel s).txq = s.txq := by
  cases sel <;> rfl
@[simp] theorem clearQueueAcks_rxq (sel : QSel) (s : State) : (clearQueueAcks sel s).rxq = s.rxq := by
  cases sel <;> rfl
@[simp] theorem clearQueueAcks_err (sel : QSel) (s : State) : (clearQueueAcks sel s).err = s.err := by
  cases sel <;> rfl
@[simp] theorem clearQueueAcks_inputs (sel : QSel) (s : State) : (clearQueueAcks sel s).inputs = s.inputs := by
  cases sel <;> rfl
@[simp] theorem clearQueueAcks_draws (sel : QSel) (s : State) : (clearQueueAcks sel s).draws = s.draws := by
  cases sel <;> rfl
@[simp] theorem clearQueueAcks_events (sel : QSel) (s : State) : (clearQueueAcks sel s).events = s.events := by
  cases sel <;> rfl
@[simp] theorem clearQueueAcks_rsps (sel : QSel) (s : State) : (clearQueueAcks sel s).rsps = s.rsps := by
  cases sel <;> rfl
@[simp] theorem clearQueueAcks_queue (sel sel' : QSel) (s : State) : (clearQueueAcks sel s).queue sel' = s.queue sel' := by
  cases sel <;> cases sel' <;> rfl

end Sys2Proof.Machine
end

