-- ==== Sys2Proof/Laws/Config.lean ====
section
/-! SUPPORT. What a valid configuration gives (00_scope.md R8, R9), one lemma per fact. -/

namespace Sys2Proof

/-- Every conjunct of `Cfg.valid` as a proposition. -/
theorem Cfg.valid_iff (c : Cfg) : c.valid = true ↔
    ((1 ≤ c.w ∧ c.w ≤ 16) ∧ (2 ≤ c.lenm ∧ c.lenm ≤ 255) ∧ c.base ≤ 1 ∧ (1 ≤ c.d ∧ c.d ≤ 255) ∧ c.m ≤ 65535 ∧
      (1 ≤ c.dataLen ∧ c.dataLen ≤ 65534) ∧ (1 ≤ c.tickMs ∧ c.tickMs ≤ 65535) ∧
      c.ackTimeout ≤ 65534 * c.tickMs ∧ c.txTimeout ≤ 65534 * c.tickMs ∧
      c.pData ≤ 65536 ∧ c.pAckOut ≤ 65536 ∧ c.pAckIn ≤ 65536) ∧
    c.code.valid = true ∧ c.w < c.lenm ∧ c.base + c.lenm - 1 ≤ 255 ∧ (c.mode = .sw → c.w = 1) ∧
    (c.mode ≠ .slw → c.d = 1) ∧ c.ackTimeout / c.tickMs + 1 ≤ 65535 ∧ c.txTimeout / c.tickMs + 1 ≤ 65535 := by
  simp only [Cfg.valid, Cfg.inRange, Bool.and_eq_true, decide_eq_true_eq]
  tauto

section
variable {c : Cfg} (h : c.valid = true)
include h

theorem Cfg.valid_w : 1 ≤ c.w ∧ c.w ≤ 16 := ((c.valid_iff.1 h).1).1
theorem Cfg.valid_lenm : 2 ≤ c.lenm ∧ c.lenm ≤ 255 := ((c.valid_iff.1 h).1).2.1
theorem Cfg.valid_base : c.base ≤ 1 := ((c.valid_iff.1 h).1).2.2.1
theorem Cfg.valid_d : 1 ≤ c.d ∧ c.d ≤ 255 := ((c.valid_iff.1 h).1).2.2.2.1
theorem Cfg.valid_m : c.m ≤ 65535 := ((c.valid_iff.1 h).1).2.2.2.2.1
theorem Cfg.valid_dataLen : 1 ≤ c.dataLen ∧ c.dataLen ≤ 65534 := ((c.valid_iff.1 h).1).2.2.2.2.2.1
theorem Cfg.valid_tickMs : 1 ≤ c.tickMs ∧ c.tickMs ≤ 65535 := ((c.valid_iff.1 h).1).2.2.2.2.2.2.1
theorem Cfg.valid_code : c.code.valid = true := (c.valid_iff.1 h).2.1
theorem Cfg.valid_w_lt_lenm : c.w < c.lenm := (c.valid_iff.1 h).2.2.1
theorem Cfg.valid_seq_fits : c.base + c.lenm - 1 ≤ 255 := (c.valid_iff.1 h).2.2.2.1
theorem Cfg.valid_sw : c.mode = .sw → c.w = 1 := (c.valid_iff.1 h).2.2.2.2.1
theorem Cfg.valid_not_slw : c.mode ≠ .slw → c.d = 1 := (c.valid_iff.1 h).2.2.2.2.2.1
theorem Cfg.valid_ack_fits : c.ackTimeout / c.tickMs + 1 ≤ 65535 := (c.valid_iff.1 h).2.2.2.2.2.2.1
theorem Cfg.valid_tx_fits : c.txTimeout / c.tickMs + 1 ≤ 65535 := (c.valid_iff.1 h).2.2.2.2.2.2.2

end

/-- The parts of `Code.valid` (R9 c, d, e). -/
theorem Code.valid_iff (k : Code) : k.valid = true ↔
    (Machine.syn k k.g1 = 0#3 ∧ Machine.syn k k.g2 = 0#3 ∧ Machine.syn k k.g3 = 0#3) ∧
    (∀ e ∈ k.synTab, e.1 ≠ 0#3 ∧ Machine.hColumn k e.2 = e.1) ∧ (k.synTab.map Prod.fst).Nodup ∧
    k.selects = true ∧ (∀ x : Symbol, Machine.dec k (Machine.enc k x) = x) := by
  have hall : ((List.range 8).all fun x => Machine.dec k (Machine.enc k (BitVec.ofNat 3 x)) == BitVec.ofNat 3 x) = true ↔
      ∀ x : Symbol, Machine.dec k (Machine.enc k x) = x := by
    simp only [List.all_eq_true, List.mem_range, beq_iff_eq]
    constructor
    · intro h x
      have := h x.toNat x.isLt
      simpa using this
    · intro h x _
      exact h _
  simp only [Code.valid, Bool.and_eq_true, hall, beq_iff_eq, List.all_eq_true, bne_iff_ne, decide_eq_true_eq, ne_eq]
  tauto

theorem Code.standard_valid : Code.standard.valid = true := by decide

theorem Cfg.resetCfg_valid : Cfg.resetCfg.valid = true := by decide

end Sys2Proof
end

