-- ==== Sys2Proof/Laws/Queue.lean ====
section
/-! SUPPORT. The circular queue (10_state.md R27, R28; 40_queue.md R80 to R85): each update keeps `Queue.Wf`, and what
each update does to the entries read from the front. -/

namespace Sys2Proof.Machine

/-- One turn of the ring. -/
theorem mod_one_turn {x n : Nat} (h : x < 2 * n) : x % n = if x < n then x else x - n := by
  split
  · exact Nat.mod_eq_of_lt ‹_›
  · rw [Nat.mod_eq_sub_mod (by omega), Nat.mod_eq_of_lt (by omega)]

theorem toNat_ofNat8 {n : Nat} (h : n < 256) : (BitVec.ofNat 8 n).toNat = n := by
  simp [BitVec.toNat_ofNat, Nat.mod_eq_of_lt h]

theorem toNat_ofNat16 {n : Nat} (h : n < 65536) : (BitVec.ofNat 16 n).toNat = n := by
  simp [BitVec.toNat_ofNat, Nat.mod_eq_of_lt h]

theorem toNat_inc8 {x : Byte} (h : x.toNat < 255) : (x + 1#8).toNat = x.toNat + 1 := by
  simp [BitVec.toNat_add]; omega

theorem toNat_dec8 {x : Byte} (h : x ≠ 0#8) : (x - 1#8).toNat = x.toNat - 1 := by
  have h0 : x.toNat ≠ 0 := fun e => h (by apply BitVec.eq_of_toNat_eq; simpa using e)
  have := x.isLt
  rw [BitVec.toNat_sub]
  simp only [BitVec.toNat_ofNat]
  omega

theorem toNat_inc16 {x : Half} (h : x.toNat < 65535) : (x + 1#16).toNat = x.toNat + 1 := by
  simp [BitVec.toNat_add]; omega

theorem toNat_ne_zero8 {x : Byte} : x ≠ 0#8 ↔ 0 < x.toNat := by
  constructor
  · intro h
    apply Nat.pos_of_ne_zero
    intro e
    exact h (by apply BitVec.eq_of_toNat_eq; simpa using e)
  · rintro h rfl
    simp at h

namespace Queue

variable {cap : Nat} {q : Queue}

theorem entryIndex_lt (q : Queue) (h : 0 < cap) (j : Nat) : q.entryIndex cap j < cap := Nat.mod_lt _ h

/-- Offsets inside the ring reach distinct slots. -/
theorem entryIndex_inj (hq : q.Wf cap) {i j : Nat} (hi : i < cap) (hj : j < cap)
    (h : q.entryIndex cap i = q.entryIndex cap j) : i = j := by
  have hf := hq.front_lt
  unfold entryIndex at h
  rw [mod_one_turn (by omega), mod_one_turn (by omega)] at h
  split at h <;> split at h <;> omega

/-- The front register is the index of offset 0. -/
theorem entryIndex_zero (hq : q.Wf cap) : q.entryIndex cap 0 = q.front.toNat := by
  simpa [entryIndex] using Nat.mod_eq_of_lt hq.front_lt

/-- The rear register is the index of the newest entry. -/
theorem entryIndex_last (hq : q.Wf cap) (h : q.size ≠ 0#8) : q.entryIndex cap (q.size.toNat - 1) = q.rear.toNat := by
  have := toNat_ne_zero8.1 h
  have hs := hq.size_le
  have hf := hq.front_lt
  rw [hq.rear_eq, entryIndex, show q.front.toNat + q.size.toNat + cap - 1 = q.front.toNat + (q.size.toNat - 1) + cap by omega,
    Nat.add_mod_right]

/-- The next enqueue lands at offset `size`. -/
theorem nextRear_eq (hq : q.Wf cap) : q.nextRear cap = q.entryIndex cap q.size.toNat := by
  have hf := hq.front_lt
  rw [nextRear, entryIndex, hq.rear_eq, Nat.mod_add_mod,
    show q.front.toNat + q.size.toNat + cap - 1 + 1 = q.front.toNat + q.size.toNat + cap by omega, Nat.add_mod_right]

theorem nextRear_lt (q : Queue) (h : 0 < cap) : q.nextRear cap < cap := Nat.mod_lt _ h

/-! ### qclear -/

@[simp] theorem cleared_slot (q : Queue) : (q.cleared cap).slot = q.slot := rfl
@[simp] theorem cleared_front (q : Queue) : (q.cleared cap).front = 0#8 := rfl
@[simp] theorem cleared_rear (q : Queue) : (q.cleared cap).rear = BitVec.ofNat 8 (cap - 1) := rfl
@[simp] theorem cleared_size (q : Queue) : (q.cleared cap).size = 0#8 := rfl

theorem cleared_wf (hs : q.slot.length = cap) (hpos : 0 < cap) (hcap : cap ≤ 255) : (q.cleared cap).Wf cap where
  slots := hs
  size_le := by simp
  front_lt := by simpa
  rear_lt := by rw [cleared_rear, toNat_ofNat8 (by omega)]; omega
  rear_eq := by
    rw [cleared_rear, toNat_ofNat8 (by omega)]
    simp only [cleared_front, cleared_size, BitVec.toNat_ofNat, Nat.zero_mod, Nat.zero_add]
    exact (Nat.mod_eq_of_lt (by omega)).symm

theorem resetOf_wf (hpos : 0 < cap) (hcap : cap ≤ 255) : (Queue.resetOf cap).Wf cap :=
  cleared_wf (q := Queue.resetOf cap) (by simp [Queue.resetOf]) hpos hcap

/-! ### qenq -/

@[simp] theorem pushed_slot (q : Queue) (v : Byte) : (q.pushed cap v).slot = q.slot.set (q.nextRear cap) v := rfl
@[simp] theorem pushed_front (q : Queue) (v : Byte) : (q.pushed cap v).front = q.front := rfl
@[simp] theorem pushed_rear (q : Queue) (v : Byte) : (q.pushed cap v).rear = BitVec.ofNat 8 (q.nextRear cap) := rfl
@[simp] theorem pushed_size (q : Queue) (v : Byte) : (q.pushed cap v).size = q.size + 1#8 := rfl
@[simp] theorem pushed_entryIndex (q : Queue) (v : Byte) (j : Nat) :
    (q.pushed cap v).entryIndex cap j = q.entryIndex cap j := rfl

theorem pushed_size_toNat (hcap : cap ≤ 255) (h : q.size.toNat < cap) (v : Byte) :
    (q.pushed cap v).size.toNat = q.size.toNat + 1 := by
  rw [pushed_size, toNat_inc8 (by omega)]

theorem pushed_wf (hq : q.Wf cap) (hcap : cap ≤ 255) (h : q.size.toNat < cap) (v : Byte) : (q.pushed cap v).Wf cap where
  slots := by simpa using hq.slots
  size_le := by rw [pushed_size_toNat hcap h]; omega
  front_lt := hq.front_lt
  rear_lt := by
    have := q.nextRear_lt (cap := cap) (by omega)
    rw [pushed_rear, toNat_ofNat8 (by omega)]
    exact this
  rear_eq := by
    have hlt := q.nextRear_lt (cap := cap) (by omega)
    rw [pushed_rear, toNat_ofNat8 (by omega), pushed_size_toNat hcap h, pushed_front, nextRear_eq hq, entryIndex,
      show q.front.toNat + (q.size.toNat + 1) + cap - 1 = q.front.toNat + q.size.toNat + cap by omega, Nat.add_mod_right]

/-- The new entry is the newest one. -/
theorem pushed_entry_new (hq : q.Wf cap) (h : q.size.toNat < cap) (v : Byte) :
    (q.pushed cap v).entry cap q.size.toNat = v := by
  have hlt := q.nextRear_lt (cap := cap) (by omega)
  have hlen := hq.slots
  simp only [entry, slotAt, pushed_entryIndex, pushed_slot, ← nextRear_eq hq]
  rw [List.getD_eq_getElem?_getD, List.getElem?_set_self (by omega), Option.getD_some]

/-- The old entries stay where they are. -/
theorem pushed_entry_old (hq : q.Wf cap) (h : q.size.toNat < cap) (v : Byte) {j : Nat} (hj : j < q.size.toNat) :
    (q.pushed cap v).entry cap j = q.entry cap j := by
  have hne : q.nextRear cap ≠ q.entryIndex cap j := by
    rw [nextRear_eq hq]
    intro e
    have := entryIndex_inj hq h (by omega) e
    omega
  simp only [entry, slotAt, pushed_entryIndex, pushed_slot, List.getD_eq_getElem?_getD]
  rw [List.getElem?_set_ne hne]

/-! ### qdeq -/

@[simp] theorem popped_slot (q : Queue) : (q.popped cap).slot = q.slot := rfl
@[simp] theorem popped_front (q : Queue) : (q.popped cap).front = BitVec.ofNat 8 ((q.front.toNat + 1) % cap) := rfl
@[simp] theorem popped_rear (q : Queue) : (q.popped cap).rear = q.rear := rfl
@[simp] theorem popped_size (q : Queue) : (q.popped cap).size = q.size - 1#8 := rfl

theorem popped_size_toNat (h : q.size ≠ 0#8) : (q.popped cap).size.toNat = q.size.toNat - 1 := toNat_dec8 h

theorem popped_front_toNat (hcap : cap ≤ 255) (hpos : 0 < cap) :
    (q.popped cap).front.toNat = (q.front.toNat + 1) % cap := by
  have := Nat.mod_lt (q.front.toNat + 1) hpos
  rw [popped_front, toNat_ofNat8 (by omega)]

/-- Offset j after the dequeue is offset j + 1 before it. -/
theorem popped_entryIndex (hcap : cap ≤ 255) (hpos : 0 < cap) (j : Nat) :
    (q.popped cap).entryIndex cap j = q.entryIndex cap (j + 1) := by
  rw [entryIndex, popped_front_toNat hcap hpos, Nat.mod_add_mod, entryIndex, Nat.add_assoc, Nat.add_comm 1 j]

theorem popped_entry (hcap : cap ≤ 255) (hpos : 0 < cap) (j : Nat) :
    (q.popped cap).entry cap j = q.entry cap (j + 1) := by
  rw [entry, popped_entryIndex hcap hpos]; rfl

theorem popped_wf (hq : q.Wf cap) (hcap : cap ≤ 255) (h : q.size ≠ 0#8) : (q.popped cap).Wf cap where
  slots := hq.slots
  size_le := by rw [popped_size_toNat h]; have := hq.size_le; omega
  front_lt := by
    have hpos : 0 < cap := by have := hq.front_lt; omega
    rw [popped_front_toNat hcap hpos]; exact Nat.mod_lt _ hpos
  rear_lt := hq.rear_lt
  rear_eq := by
    have hpos : 0 < cap := by have := hq.front_lt; omega
    have := toNat_ne_zero8.1 h
    have hs := hq.size_le
    have hf := hq.front_lt
    rw [popped_rear, hq.rear_eq, popped_front_toNat hcap hpos, popped_size_toNat h]
    rw [show (q.front.toNat + 1) % cap + (q.size.toNat - 1) + cap - 1 =
      (q.front.toNat + 1) % cap + (q.size.toNat - 1 + cap - 1) by omega, Nat.mod_add_mod]
    congr 1
    omega

end Queue

end Sys2Proof.Machine
end

