-- ==== Sys2Proof/Laws/Ops.lean ====
section
/-! SUPPORT. For each shared operation of Machine/Ops.lean, once, everything it can do. A prover cites these instead of
unfolding the operation. -/

namespace Sys2Proof.Machine

/-! ## Queue primitives on the state -/

theorem qclear_txq (s : State) : qclear .txq s = { s with txq := s.txq.cleared s.cfg.w, ackbits := 0#16 } := rfl

theorem qclear_rxq (s : State) : qclear .rxq s = { s with rxq := s.rxq.cleared s.cfg.d } := rfl

theorem qenq_full {sel : QSel} {s : State} (h : (s.queue sel).size.toNat = capacity s.cfg sel) (v : Byte) :
    qenq sel v s = (.full, setErr .qFull s) := by
  simp [qenq, h]

theorem qenq_txq_ok {s : State} (h : s.txq.size.toNat ≠ s.cfg.w) (v : Byte) :
    qenq .txq v s = (.ok, { s with
      txq := s.txq.pushed s.cfg.w v
      ackbits := s.ackbits &&& ~~~(1#16 <<< s.txq.nextRear s.cfg.w) }) := by
  unfold qenq
  exact (if_neg h).trans rfl

theorem qenq_rxq_ok {s : State} (h : s.rxq.size.toNat ≠ s.cfg.d) (v : Byte) :
    qenq .rxq v s = (.ok, { s with rxq := s.rxq.pushed s.cfg.d v }) := by
  unfold qenq
  exact (if_neg h).trans rfl

theorem qdeq_empty {sel : QSel} {s : State} (h : (s.queue sel).size = 0#8) :
    qdeq sel s = (.empty, setErr .qEmpty s) := by
  simp [qdeq, h]

theorem qdeq_txq_ok {s : State} (h : s.txq.size ≠ 0#8) :
    qdeq .txq s = (.ok, { s with
      txq := s.txq.popped s.cfg.w
      ackbits := s.ackbits &&& ~~~(1#16 <<< s.txq.front.toNat) }) := by
  unfold qdeq
  exact (if_neg h).trans rfl

theorem qdeq_rxq_ok {s : State} (h : s.rxq.size ≠ 0#8) :
    qdeq .rxq s = (.ok, { s with rxq := s.rxq.popped s.cfg.d }) := by
  unfold qdeq
  exact (if_neg h).trans rfl

theorem qfront_empty {sel : QSel} {s : State} (h : (s.queue sel).size = 0#8) :
    qfront sel s = (.empty, setErr .qEmpty s) := by
  simp [qfront, h]

theorem qfront_value {sel : QSel} {s : State} (h : (s.queue sel).size ≠ 0#8) :
    qfront sel s = (.value ((s.queue sel).slotAt (s.queue sel).front.toNat), s) := by
  simp [qfront, h]

theorem qrear_empty {sel : QSel} {s : State} (h : (s.queue sel).size = 0#8) :
    qrear sel s = (.empty, setErr .qEmpty s) := by
  simp [qrear, h]

theorem qrear_value {sel : QSel} {s : State} (h : (s.queue sel).size ≠ 0#8) :
    qrear sel s = (.value ((s.queue sel).slotAt (s.queue sel).rear.toNat), s) := by
  simp [qrear, h]

/-- `qfind` answers the least offset of an entry equal to the value. -/
theorem qfind_some {sel : QSel} {v : Byte} {s : State} {j : Nat} (h : qfind sel v s = some j) :
    j < (s.queue sel).size.toNat ∧ (s.queue sel).entry (capacity s.cfg sel) j = v ∧
      ∀ i, i < j → (s.queue sel).entry (capacity s.cfg sel) i ≠ v := by
  unfold qfind at h
  rw [List.find?_range_eq_some] at h
  obtain ⟨he, hm, hl⟩ := h
  exact ⟨List.mem_range.1 hm, by simpa using he, fun i hi => by simpa using hl i hi⟩

theorem qfind_none {sel : QSel} {v : Byte} {s : State} (h : qfind sel v s = none) :
    ∀ j, j < (s.queue sel).size.toNat → (s.queue sel).entry (capacity s.cfg sel) j ≠ v := by
  intro j hj
  have := List.find?_eq_none.1 h j (List.mem_range.2 hj)
  simpa using this

/-- A popping dequeue keeps everything but TXQ and its ACKBITs. -/
theorem popTimes_rest (n : Nat) : ∀ s : State, n ≤ s.txq.size.toNat →
    ∃ q a, popTimes n s = { s with txq := q, ackbits := a } ∧ q.size.toNat = s.txq.size.toNat - n := by
  induction n with
  | zero => intro s _; exact ⟨s.txq, s.ackbits, rfl, rfl⟩
  | succ n ih =>
    intro s hn
    have hs : s.txq.size ≠ 0#8 := toNat_ne_zero8.2 (by omega)
    have hsz : (s.txq.popped s.cfg.w).size.toNat = s.txq.size.toNat - 1 := Queue.popped_size_toNat hs
    obtain ⟨q, a, he, hq⟩ := ih (qdeq .txq s).2 (by rw [qdeq_txq_ok hs]; show n ≤ (s.txq.popped s.cfg.w).size.toNat; omega)
    refine ⟨q, a, ?_, ?_⟩
    · rw [popTimes, he, qdeq_txq_ok hs]
    · rw [hq, qdeq_txq_ok hs]
      show (s.txq.popped s.cfg.w).size.toNat - n = _
      omega

/-- Sliding keeps everything but TXQ and its ACKBITs. -/
theorem slideLoop_rest (n : Nat) : ∀ s : State, ∃ q a, slideLoop n s = { s with txq := q, ackbits := a } := by
  induction n with
  | zero => intro s; exact ⟨s.txq, s.ackbits, rfl⟩
  | succ n ih =>
    intro s
    rw [slideLoop]
    split
    · exact ⟨s.txq, s.ackbits, rfl⟩
    · rename_i hs
      split
      · obtain ⟨q, a, he⟩ := ih (qdeq .txq s).2
        exact ⟨q, a, by rw [he, qdeq_txq_ok hs]⟩
      · exact ⟨s.txq, s.ackbits, rfl⟩

/-! ## The loss simulator and emissions -/

theorem drawLoss_nil {s : State} (h : s.draws = []) (p : Nat) : drawLoss p s = none := by
  simp [drawLoss, h]

theorem drawLoss_cons {s : State} {u : Draw} {us : List Draw} (h : s.draws = u :: us) (p : Nat) :
    drawLoss p s = some (dropped u p, { s with draws := us }) := by
  simp [drawLoss, h]

theorem emitData_nil {s : State} (h : s.draws = []) (x : Byte) (n : Half) : emitData x n s = none := by
  simp [emitData, drawLoss_nil h]

theorem emitData_cons {s : State} {u : Draw} {us : List Draw} (h : s.draws = u :: us) (x : Byte) (n : Half) :
    emitData x n s =
      some { s with draws := us, events := s.events ++ [.data x n (dropped u s.cfg.pData)] } := by
  simp only [emitData, drawLoss_cons h]
  rfl

/-- `send_new()` under its precondition, with a draw at hand. -/
theorem sendNew_cons {s : State} {u : Draw} {us : List Draw} (h : s.draws = u :: us) (hw : s.txq.size.toNat ≠ s.cfg.w) :
    sendNew s = some { s with
      draws := us
      events := s.events ++ [.data s.nextSeq s.sentCount (dropped u s.cfg.pData)]
      txq := s.txq.pushed s.cfg.w s.nextSeq
      ackbits := s.ackbits &&& ~~~(1#16 <<< s.txq.nextRear s.cfg.w)
      nextSeq := nextSeqOf s.cfg s.nextSeq
      sentCount := s.sentCount + 1#16 } := by
  simp only [sendNew, emitData_cons h]
  rw [qenq_txq_ok (by exact hw)]

theorem sendNew_nil {s : State} (h : s.draws = []) : sendNew s = none := by
  simp [sendNew, emitData_nil h]

theorem canSend_iff (s : State) : canSend s = true ↔ s.txq.size.toNat < s.cfg.w ∧ s.sentCount.toNat < s.cfg.m := by
  simp [canSend]

/-- `emit_ack()` under its precondition, with a draw at hand. -/
theorem emitAck_cons {s : State} {u : Draw} {us : List Draw} (h : s.draws = u :: us) (hr : s.rxq.size ≠ 0#8) :
    emitAck s = some { s with
      draws := us
      events := s.events ++ [.ack (s.rxq.slotAt s.rxq.front.toNat) (dropped u s.cfg.pAckOut)]
      rxq := s.rxq.popped s.cfg.d } := by
  simp only [emitAck, drawLoss_cons h]
  rw [qdeq_rxq_ok (by exact hr)]
  rfl

theorem emitAck_nil {s : State} (h : s.draws = []) : emitAck s = none := by
  simp [emitAck, drawLoss_nil h]

/-- The frames `retransmit()` re-emits at the offsets `js`, in order: sequence number and unit. -/
def resendFrames (s : State) (js : List Nat) : List (Byte × Half) :=
  (js.filter fun j => resends s (s.txq.entryIndex s.cfg.w j)).map fun j => (s.txq.entry s.cfg.w j, unitOf s j)

/-- `retransmit()` only emits: one DATA event and one draw a frame; without its draws it makes no step. -/
theorem retransmitAt_eq (js : List Nat) : ∀ s : State, retransmitAt js s =
    if (resendFrames s js).length ≤ s.draws.length then
      some { s with
        draws := s.draws.drop (resendFrames s js).length
        events := s.events ++ dataEvents s.cfg.pData (resendFrames s js) s.draws }
    else none := by
  induction js with
  | nil => intro s; simp [retransmitAt, resendFrames, dataEvents]
  | cons j js ih =>
    intro s
    rw [retransmitAt]
    by_cases hr : resends s (s.txq.entryIndex s.cfg.w j) = true
    · rw [if_pos hr]
      have hf : resendFrames s (j :: js) = (s.txq.entry s.cfg.w j, unitOf s j) :: resendFrames s js := by
        simp [resendFrames, hr]
      cases hd : s.draws with
      | nil => simp [emitData_nil hd, hf]
      | cons u us =>
        simp only [emitData_cons hd]
        rw [ih]
        simp only [hf, List.length_cons, Nat.add_le_add_iff_right, List.drop_succ_cons]
        have hsame : ∀ e : List Event, resendFrames { s with draws := us, events := e } js = resendFrames s js := fun _ => rfl
        simp only [hsame, dataEvents, dropped, List.zipWith_cons_cons, List.append_assoc, List.cons_append, List.nil_append]
    · rw [if_neg hr, ih]
      have hf : resendFrames s (j :: js) = resendFrames s js := by simp [resendFrames, hr]
      rw [hf]

theorem retransmit_eq (s : State) : retransmit s =
    if (resendFrames s (List.range s.txq.size.toNat)).length ≤ s.draws.length then
      some { s with
        draws := s.draws.drop (resendFrames s (List.range s.txq.size.toNat)).length
        events := s.events ++ dataEvents s.cfg.pData (resendFrames s (List.range s.txq.size.toNat)) s.draws }
    else none := retransmitAt_eq _ s

/-- At most one frame an entry. -/
theorem resendFrames_length_le (s : State) : (resendFrames s (List.range s.txq.size.toNat)).length ≤ s.txq.size.toNat := by
  simp only [resendFrames, List.length_map]
  exact (List.length_filter_le _ _).trans (by simp)

/-! ## The rest -/

theorem checkDone_done {s : State} (h : s.fsm = .transmitting ∧ s.sentCount.toNat = s.cfg.m ∧ s.txq.size = 0#8) :
    checkDone s = { s with fsm := .idle, ackTimer := 0#16, txTimer := 0#16 } := if_pos h

theorem checkDone_not {s : State} (h : ¬(s.fsm = .transmitting ∧ s.sentCount.toNat = s.cfg.m ∧ s.txq.size = 0#8)) :
    checkDone s = s := if_neg h

theorem unlessBusy_idle {s : State} (h : s.fsm = .idle) (f : State → State) : unlessBusy f s = f s := by
  simp [unlessBusy, h]

theorem unlessBusy_busy {s : State} (h : s.fsm = .transmitting) (f : State → State) :
    unlessBusy f s = respond .busy 0#24 s := by
  simp [unlessBusy, h]

theorem completing_next {o : Option State} {t : State} : completing o = .next t ↔ o = some t := by
  cases o <;> simp [completing]

theorem completing_some (t : State) : completing (some t) = .next t := rfl

theorem regOfNumber_none {r : Byte} : regOfNumber r = none ↔ 0x11#8 < r := by
  simp only [regOfNumber, List.getElem?_eq_none_iff, regMap, List.length_cons, List.length_nil, BitVec.lt_def]
  constructor <;> intro h
  · simp; omega
  · simp at h; omega

/-- The next input, and all else untouched. -/
theorem nextInput_cons {s : State} {i : Input} {rest : List Input} (h : s.inputs = i :: rest) :
    nextInput s = some (i, { s with inputs := rest }) := by
  simp [nextInput, h]

theorem nextInput_nil {s : State} (h : s.inputs = []) : nextInput s = none := by
  simp [nextInput, h]

/-- The whole effect of an ILLEGAL command. -/
theorem illegal_eq (s : State) :
    illegal s = { s with err := s.err ||| 0b10000#5, rsps := s.rsps ++ [⟨.illegal, 0#24⟩] } := rfl

/-- The assignments that the ARQ reset signal and ARQ.DISC share. -/
theorem resetSession_eq (s : State) : resetSession s = { s with
    nextSeq := BitVec.ofNat 8 s.cfg.base
    sentCount := 0#16
    rxExp := BitVec.ofNat 8 s.cfg.base
    ackTimer := 0#16
    txTimer := 0#16
    txq := s.txq.cleared s.cfg.w
    ackbits := 0#16
    rxq := s.rxq.cleared s.cfg.d } := rfl

/-- Hardware reset empties both queues and keeps their slots, the configuration and the ports. -/
theorem hardReset_eq (s : State) : hardReset s = { s with
    fsm := .idle
    nextSeq := BitVec.ofNat 8 s.cfg.base
    sentCount := 0#16
    rxExp := BitVec.ofNat 8 s.cfg.base
    ackTimer := 0#16
    txTimer := 0#16
    txq := s.txq.cleared s.cfg.w
    ackbits := 0#16
    rxq := s.rxq.cleared s.cfg.d
    err := 0#5 } := rfl

theorem fires_iff (c : Cfg) (t : Half) (threshold : Nat) : fires c t threshold = true ↔ threshold < t.toNat * c.tickMs := by
  simp [fires]

theorem eom_iff (s : State) : eom s = true ↔ s.sentCount.toNat = s.cfg.m := by
  simp [eom]

theorem ifValid_valid {c : Cfg} (h : c.valid = true) (r : Result) : ifValid c r = r := by
  simp [ifValid, h]

theorem ifValid_invalid {c : Cfg} (h : c.valid = false) (r : Result) : ifValid c r = .refused .invalidConfiguration := by
  simp [ifValid, h]

end Sys2Proof.Machine
end

