-- ==== Sys2Proof/Laws/Arq.lean ====
section
/-! SUPPORT. What the loops of the ARQ procedures do as a whole: the DATA of their responses (43_arq.md R130), filling the
window (R134, R135), draining the receiver's window (R138, R158), and taking entries off the sender's (R145). -/

namespace Sys2Proof.Machine

/-! ## The DATA of an ARQ response -/

/-- `arqrsp`'s fields stand side by side in its number (R130). -/
theorem arqData_eq (s : State) (nev : Nat) : arqData s nev = arqNumber s.fsm s.txq.size.toNat nev := by
  apply BitVec.eq_of_toNat_eq
  have h1 := s.txq.size.isLt
  have h2 : nev % 256 < 256 := Nat.mod_lt _ (by decide)
  have hf : s.fsm.bit.toNat = fsmNumber s.fsm := by cases s.fsm <;> rfl
  have hb : fsmNumber s.fsm ≤ 1 := by cases s.fsm <;> decide
  have e1 : s.txq.size.toNat <<< 8 ||| nev % 256 = s.txq.size.toNat <<< 8 + nev % 256 :=
    (Nat.shiftLeft_add_eq_or_of_lt (i := 8) h2 _).symm
  have e2 : fsmNumber s.fsm <<< 16 ||| (s.txq.size.toNat <<< 8 + nev % 256) =
      fsmNumber s.fsm <<< 16 + (s.txq.size.toNat <<< 8 + nev % 256) :=
    (Nat.shiftLeft_add_eq_or_of_lt (i := 16) (by rw [Nat.shiftLeft_eq]; omega) _).symm
  simp only [arqData, arqNumber, BitVec.toNat_or, BitVec.toNat_shiftLeft, BitVec.toNat_setWidth, BitVec.toNat_ofNat, hf]
  rw [Nat.mod_eq_of_lt (a := fsmNumber s.fsm) (by omega), Nat.mod_eq_of_lt (a := s.txq.size.toNat) (by omega),
    Nat.mod_eq_of_lt (a := nev % 2 ^ 8) (by omega), Nat.mod_eq_of_lt (a := fsmNumber s.fsm <<< 16) (by rw [Nat.shiftLeft_eq]; omega),
    Nat.mod_eq_of_lt (a := s.txq.size.toNat <<< 8) (by rw [Nat.shiftLeft_eq]; omega), Nat.or_assoc,
    show (2 : Nat) ^ 8 = 256 from rfl, e1, e2, Nat.shiftLeft_eq, Nat.shiftLeft_eq]
  omega

/-! ## Filling the window -/

/-- How many units `fill()` sends (R135). -/
def roomFor (s : State) : Nat := min (s.cfg.w - s.txq.size.toNat) (s.cfg.m - s.sentCount.toNat)

/-- `fill()`'s loop, with rounds enough, is `roomFor` first transmissions. -/
theorem fillLoop_eq (n : Nat) : ∀ s : State, s.cfg.w ≤ 255 → s.cfg.m ≤ 65535 → roomFor s ≤ n →
    fillLoop n s = sendTimes (roomFor s) s := by
  induction n with
  | zero => intro s _ _ h; rw [Nat.le_zero.1 h]; rfl
  | succ n ih =>
    intro s hw hm h
    rw [fillLoop]
    by_cases hc : canSend s = true
    · obtain ⟨h1, h2⟩ := (canSend_iff s).1 hc
      rw [if_pos hc]
      have hk : roomFor s = (roomFor s - 1) + 1 := by simp only [roomFor]; omega
      cases hd : s.draws with
      | nil => rw [hk, sendTimes, sendNew_nil hd]
      | cons u us =>
        rw [hk, sendTimes, sendNew_cons hd (by omega)]
        simp only
        have hsz : (s.txq.pushed s.cfg.w s.nextSeq).size.toNat = s.txq.size.toNat + 1 := Queue.pushed_size_toNat hw h1 _
        have hsc : (s.sentCount + 1#16).toNat = s.sentCount.toNat + 1 := toNat_inc16 (by omega)
        rw [ih]
        · congr 1
          simp only [roomFor, hsz, hsc]
          omega
        · exact hw
        · exact hm
        · simp only [roomFor, hsz, hsc] at *
          omega
    · rw [if_neg hc]
      have : roomFor s = 0 := by
        rw [canSend_iff] at hc
        simp only [roomFor]
        omega
      rw [this]; rfl

/-- The frames of `k` first transmissions, in order, from a sequence number and a unit (R134). -/
def newFrames (c : Cfg) : Nat → Byte → Half → List (Byte × Half)
  | 0, _, _ => []
  | k + 1, x, u => (x, u) :: newFrames c k (nextSeqOf c x) (u + 1#16)

/-- `nextseq` applied k times. -/
def nextSeqTimes (c : Cfg) : Nat → Byte → Byte
  | 0, x => x
  | k + 1, x => nextSeqTimes c k (nextSeqOf c x)

theorem newFrames_length (c : Cfg) (k : Nat) : ∀ x u, (newFrames c k x u).length = k := by
  induction k with
  | zero => intro x u; rfl
  | succ k ih => intro x u; simp [newFrames, ih]

/-- The queue after first transmissions of the sequence numbers `xs`. -/
def Queue.pushedAll (cap : Nat) (q : Queue) (xs : List Byte) : Queue := xs.foldl (fun q x => q.pushed cap x) q

/-- `k` first transmissions under their precondition: one DATA event and one draw each, the counters k further, the
sequence numbers enqueued in order, no ACKBIT set; without the draws, no step (R134). -/
theorem sendTimes_eq (k : Nat) : ∀ s : State, s.cfg.w ≤ 255 → s.txq.size.toNat + k ≤ s.cfg.w →
    (k ≤ s.draws.length → ∃ a : BitVec 16, (∀ i, a.getLsbD i = true → s.ackbits.getLsbD i = true) ∧
      sendTimes k s = some { s with
        nextSeq := nextSeqTimes s.cfg k s.nextSeq
        sentCount := s.sentCount + BitVec.ofNat 16 k
        txq := s.txq.pushedAll s.cfg.w ((newFrames s.cfg k s.nextSeq s.sentCount).map Prod.fst)
        ackbits := a
        draws := s.draws.drop k
        events := s.events ++ dataEvents s.cfg.pData (newFrames s.cfg k s.nextSeq s.sentCount) s.draws }) ∧
    (s.draws.length < k → sendTimes k s = none) := by
  induction k with
  | zero =>
    intro s _ _
    refine ⟨fun _ => ⟨s.ackbits, fun _ h => h, ?_⟩, fun h => absurd h (by omega)⟩
    simp [sendTimes, nextSeqTimes, newFrames, Queue.pushedAll, dataEvents]
  | succ k ih =>
    intro s hw hk
    cases hd : s.draws with
    | nil => exact ⟨fun h => absurd h (by simp), fun _ => by rw [sendTimes, sendNew_nil hd]⟩
    | cons u us =>
      have hne : s.txq.size.toNat ≠ s.cfg.w := by omega
      have hsz : (s.txq.pushed s.cfg.w s.nextSeq).size.toNat = s.txq.size.toNat + 1 :=
        Queue.pushed_size_toNat hw (by omega) _
      rw [sendTimes, sendNew_cons hd hne]
      obtain ⟨h1, h2⟩ := ih { s with
        draws := us
        events := s.events ++ [.data s.nextSeq s.sentCount (dropped u s.cfg.pData)]
        txq := s.txq.pushed s.cfg.w s.nextSeq
        ackbits := s.ackbits &&& ~~~(1#16 <<< s.txq.nextRear s.cfg.w)
        nextSeq := nextSeqOf s.cfg s.nextSeq
        sentCount := s.sentCount + 1#16 } hw (by simp only [hsz]; omega)
      refine ⟨fun h => ?_, fun h => h2 (by simpa using h)⟩
      obtain ⟨a, ha, e⟩ := h1 (by simpa using h)
      refine ⟨a, fun i hi => ?_, ?_⟩
      · have := ha i hi
        simp only [BitVec.getLsbD_and, Bool.and_eq_true] at this
        exact this.1
      · have hc : s.sentCount + 1#16 + BitVec.ofNat 16 k = s.sentCount + BitVec.ofNat 16 (k + 1) := by
          rw [BitVec.add_assoc, Nat.add_comm k 1, BitVec.ofNat_add]
        refine e.trans ?_
        simp only [hc, newFrames, nextSeqTimes, Queue.pushedAll, dataEvents, dropped, List.map_cons, List.foldl_cons,
          List.zipWith_cons_cons, List.append_assoc, List.cons_append, List.nil_append, List.drop_succ_cons]

/-! ## Draining the receiver's window -/

theorem Queue.entries_cons {cap : Nat} {q : Queue} (hcap : cap ≤ 255) (hq : q.Wf cap) (h : q.size ≠ 0#8) :
    q.entries cap = q.slotAt q.front.toNat :: (q.popped cap).entries cap := by
  have hpos : 0 < cap := by have := hq.front_lt; omega
  have hs : q.size.toNat = (q.popped cap).size.toNat + 1 := by
    have := toNat_ne_zero8.1 h
    rw [Queue.popped_size_toNat h]; omega
  rw [Queue.entries, hs, List.range_succ_eq_map, List.map_cons, List.map_map]
  congr 1
  · rw [Queue.entry, Queue.entryIndex_zero hq]
  · rw [Queue.entries]
    apply List.map_congr_left
    intro j _
    exact (Queue.popped_entry hcap hpos j).symm

theorem Queue.entries_nil {cap : Nat} {q : Queue} (h : q.size = 0#8) : q.entries cap = [] := by
  simp [Queue.entries, h]

@[simp] theorem Queue.entries_length (cap : Nat) (q : Queue) : (q.entries cap).length = q.size.toNat := by
  simp [Queue.entries]

/-- `emit_ack()` until the window is empty: one ACK event and one draw an entry, oldest first; without the draws, no step
(R158). -/
theorem drainLoop_eq (n : Nat) : ∀ s : State, s.cfg.d ≤ 255 → s.rxq.Wf s.cfg.d → s.rxq.size.toNat = n →
    drainLoop n s = if n ≤ s.draws.length then
      some { s with
        rxq := { s.rxq with front := BitVec.ofNat 8 ((s.rxq.front.toNat + n) % s.cfg.d), size := 0#8 }
        draws := s.draws.drop n
        events := s.events ++ ackEvents s.cfg.pAckOut (s.rxq.entries s.cfg.d) s.draws }
    else none := by
  induction n with
  | zero =>
    intro s _ hq hn
    have h0 : s.rxq.size = 0#8 := by apply BitVec.eq_of_toNat_eq; simpa using hn
    have hf : BitVec.ofNat 8 ((s.rxq.front.toNat + 0) % s.cfg.d) = s.rxq.front := by
      rw [Nat.add_zero, Nat.mod_eq_of_lt hq.front_lt]; simp
    rw [drainLoop, if_pos (Nat.zero_le _), hf, ← h0, Queue.entries_nil h0]
    simp [ackEvents]
  | succ n ih =>
    intro s hd hq hn
    have hne : s.rxq.size ≠ 0#8 := toNat_ne_zero8.2 (by omega)
    have hpos : 0 < s.cfg.d := by have := hq.front_lt; omega
    rw [drainLoop, if_neg hne]
    cases hdr : s.draws with
    | nil => rw [emitAck_nil hdr]; simp
    | cons u us =>
      rw [emitAck_cons hdr hne]
      simp only
      rw [ih]
      rotate_left
      · exact hd
      · exact Queue.popped_wf hq hd hne
      · show (s.rxq.popped s.cfg.d).size.toNat = n
        rw [Queue.popped_size_toNat hne]
        omega
      have hf : (((s.rxq.popped s.cfg.d).front.toNat + n) % s.cfg.d) = (s.rxq.front.toNat + (n + 1)) % s.cfg.d := by
        rw [Queue.popped_front_toNat hd hpos, Nat.mod_add_mod]
        congr 1
        omega
      simp only [List.length_cons, Nat.add_le_add_iff_right, List.drop_succ_cons, hf, Queue.popped_slot, Queue.popped_rear]
      rw [Queue.entries_cons hd hq hne]
      simp only [ackEvents, dropped, List.zipWith_cons_cons, List.append_assoc, List.cons_append, List.nil_append]

/-! ## Taking entries off the sender's window -/

/-- `n` dequeues: the front n further, n entries fewer, and the ACKBITs of the vacated slots cleared. -/
theorem popTimes_eq (n : Nat) : ∀ s : State, s.cfg.w ≤ 16 → s.txq.Wf s.cfg.w → n ≤ s.txq.size.toNat →
    ∃ a : BitVec 16,
      (∀ i, i < 16 → a.getLsbD i =
        (s.ackbits.getLsbD i && !(List.range n).any fun k => decide (s.txq.entryIndex s.cfg.w k = i))) ∧
      popTimes n s = { s with
        txq := { s.txq with
          front := BitVec.ofNat 8 ((s.txq.front.toNat + n) % s.cfg.w)
          size := BitVec.ofNat 8 (s.txq.size.toNat - n) }
        ackbits := a } := by
  induction n with
  | zero =>
    intro s hw hq _
    refine ⟨s.ackbits, by simp, ?_⟩
    have hf : BitVec.ofNat 8 ((s.txq.front.toNat + 0) % s.cfg.w) = s.txq.front := by
      rw [Nat.add_zero, Nat.mod_eq_of_lt hq.front_lt]; simp
    rw [hf]
    simp [popTimes]
  | succ n ih =>
    intro s hw hq hn
    have hne : s.txq.size ≠ 0#8 := toNat_ne_zero8.2 (by omega)
    have hpos : 0 < s.cfg.w := by have := hq.front_lt; omega
    have hsz : (s.txq.popped s.cfg.w).size.toNat = s.txq.size.toNat - 1 := Queue.popped_size_toNat hne
    rw [popTimes, qdeq_txq_ok hne]
    obtain ⟨a, ha, e⟩ := ih { s with
      txq := s.txq.popped s.cfg.w
      ackbits := s.ackbits &&& ~~~(1#16 <<< s.txq.front.toNat) } hw (Queue.popped_wf hq (hw.trans (by omega)) hne)
      (by show n ≤ (s.txq.popped s.cfg.w).size.toNat; omega)
    refine ⟨a, fun i hi => ?_, ?_⟩
    · rw [ha i hi]
      have hidx : ∀ k, (s.txq.popped s.cfg.w).entryIndex s.cfg.w k = s.txq.entryIndex s.cfg.w (k + 1) :=
        Queue.popped_entryIndex (by omega) hpos
      rw [List.range_succ_eq_map, List.any_cons, List.any_map, Queue.entryIndex_zero hq]
      simp only [hidx, Function.comp_def, BitVec.getLsbD_and, BitVec.getLsbD_not, hi, decide_true, Bool.true_and,
        BitVec.getLsbD_shiftLeft, BitVec.getLsbD_one, Bool.not_or, Nat.succ_eq_add_one]
      have : (!(!decide (i < s.txq.front.toNat) && decide (i - s.txq.front.toNat = 0))) =
          !decide (s.txq.front.toNat = i) := by
        rw [Bool.eq_iff_iff]
        simp
        omega
      simp only [Nat.zero_lt_succ, decide_true, Bool.true_and, this, Bool.and_assoc]
    · simp only at e
      rw [e]
      have hf : (((s.txq.popped s.cfg.w).front.toNat + n) % s.cfg.w) = (s.txq.front.toNat + (n + 1)) % s.cfg.w := by
        rw [Queue.popped_front_toNat (by omega) hpos, Nat.mod_add_mod]
        congr 1
        omega
      have hs : (s.txq.popped s.cfg.w).size.toNat - n = s.txq.size.toNat - (n + 1) := by omega
      simp only [hf, hs, Queue.popped_slot, Queue.popped_rear]

/-- Sliding over the acknowledged prefix is as many dequeues as the prefix is long. -/
theorem slideLoop_eq (n : Nat) : ∀ s : State, s.cfg.w ≤ 16 → s.txq.Wf s.cfg.w → s.txq.size.toNat ≤ n →
    slideLoop n s = popTimes (markedPrefix (ackMarks s)) s := by
  induction n with
  | zero =>
    intro s _ _ h
    have : s.txq.size.toNat = 0 := by omega
    simp [slideLoop, ackMarks, this, markedPrefix, popTimes]
  | succ n ih =>
    intro s hw hq hn
    rw [slideLoop]
    by_cases h0 : s.txq.size = 0#8
    · rw [if_pos h0]
      simp [ackMarks, h0, markedPrefix, popTimes]
    · rw [if_neg h0]
      have hpos : 0 < s.cfg.w := by have := hq.front_lt; omega
      have hsz : (s.txq.popped s.cfg.w).size.toNat = s.txq.size.toNat - 1 := Queue.popped_size_toNat h0
      have hs : s.txq.size.toNat = (s.txq.size.toNat - 1) + 1 := by have := toNat_ne_zero8.1 h0; omega
      have hm : ackMarks s = ackBit s s.txq.front.toNat ::
          (List.range (s.txq.size.toNat - 1)).map fun j => ackBit s (s.txq.entryIndex s.cfg.w (j + 1)) := by
        rw [ackMarks, hs, List.range_succ_eq_map, List.map_cons, List.map_map, Queue.entryIndex_zero hq]
        rfl
      by_cases hb : ackBit s s.txq.front.toNat = true
      · rw [if_pos hb]
        have hd := qdeq_txq_ok h0
        rw [ih _ (by rw [hd]; exact hw) (by rw [hd]; exact Queue.popped_wf hq (hw.trans (by omega)) h0)
          (by rw [hd]; show (s.txq.popped s.cfg.w).size.toNat ≤ n; omega)]
        have hmarks : ackMarks (qdeq .txq s).2 =
            (List.range (s.txq.size.toNat - 1)).map fun j => ackBit s (s.txq.entryIndex s.cfg.w (j + 1)) := by
          rw [hd, ackMarks]
          simp only [hsz]
          apply List.map_congr_left
          intro j hj
          have hj' := List.mem_range.1 hj
          have hle := hq.size_le
          rw [Queue.popped_entryIndex (by omega) hpos]
          have hlt := s.txq.entryIndex_lt hpos (j + 1)
          have hne : s.txq.front.toNat ≠ s.txq.entryIndex s.cfg.w (j + 1) := by
            rw [← Queue.entryIndex_zero hq]
            intro e
            have := Queue.entryIndex_inj hq hpos (by omega) e
            omega
          simp only [ackBit, BitVec.getLsbD_and, BitVec.getLsbD_not, BitVec.getLsbD_shiftLeft, BitVec.getLsbD_one,
            show s.txq.entryIndex s.cfg.w (j + 1) < 16 by omega, decide_true, Bool.true_and]
          have : (!(!decide (s.txq.entryIndex s.cfg.w (j + 1) < s.txq.front.toNat) &&
              decide (s.txq.entryIndex s.cfg.w (j + 1) - s.txq.front.toNat = 0))) = true := by
            simp
            omega
          simp [this]
        rw [hmarks, hm, hb]
        simp [markedPrefix, popTimes]
      · rw [if_neg hb, hm]
        simp [markedPrefix, hb, popTimes]

/-! ## Matching an ACK against the window -/

/-- SW takes the front entry, or nothing (R145). -/
theorem takeAckFront_eq (x : Byte) (s : State) : takeAckFront x s =
    if s.txq.size ≠ 0#8 ∧ s.txq.slotAt s.txq.front.toNat = x then .progress (popTimes 1 s) else .noMatch := rfl

/-- GBN takes the entries up to the least offset that holds the number, or nothing (R145). -/
theorem takeAckCumulative_some {x : Byte} {s : State} {j : Nat} (h : qfind .txq x s = some j) :
    takeAckCumulative x s = .progress (popTimes (j + 1) s) := by
  simp [takeAckCumulative, h]

theorem takeAckCumulative_none {x : Byte} {s : State} (h : qfind .txq x s = none) : takeAckCumulative x s = .noMatch := by
  simp [takeAckCumulative, h]

/-- SR and SLW mark the entry found and let the marked prefix go (R145). -/
theorem takeAckSelective_fresh {x : Byte} {s : State} {j : Nat} (h : qfind .txq x s = some j)
    (hb : ackBit s (s.txq.entryIndex s.cfg.w j) = false) (hw : s.cfg.w ≤ 16) (hq : s.txq.Wf s.cfg.w) :
    takeAckSelective x s = .progress (popTimes (markedPrefix (ackMarks (setAckBit (s.txq.entryIndex s.cfg.w j) s)))
      (setAckBit (s.txq.entryIndex s.cfg.w j) s)) := by
  simp only [takeAckSelective, h, hb, Bool.false_eq_true, if_false, slide]
  rw [slideLoop_eq _ (setAckBit (s.txq.entryIndex s.cfg.w j) s) hw hq (Nat.le_refl _)]

theorem takeAckSelective_again {x : Byte} {s : State} {j : Nat} (h : qfind .txq x s = some j)
    (hb : ackBit s (s.txq.entryIndex s.cfg.w j) = true) : takeAckSelective x s = .duplicate := by
  simp [takeAckSelective, h, hb]

theorem takeAckSelective_none {x : Byte} {s : State} (h : qfind .txq x s = none) : takeAckSelective x s = .noMatch := by
  simp [takeAckSelective, h]

end Sys2Proof.Machine
end

