-- ==== Sys2Proof/Laws/Decode.lean ====
section
/-! SUPPORT. The fields of a packed command word (30_encoding.md R51): what each field reads, and how a mask splits. -/

namespace Sys2Proof

/-- A field inside OPD reads OPD. -/
theorem packWord_opd (o s : Byte) (d : Half) (k n : Nat) (h : k + n ≤ 16) :
    (packWord o s d).extractLsb' k n = d.extractLsb' k n := by
  apply BitVec.eq_of_getLsbD_eq
  intro i hi
  have h1 : k + i < 24 := by omega
  have h2 : k + i < 16 := by omega
  simp [packWord, hi, h1, h2]
  omega

/-- A field inside SEL reads SEL. -/
theorem packWord_sel (o s : Byte) (d : Half) (k n : Nat) (h : 16 ≤ k) (h' : k + n ≤ 24) :
    (packWord o s d).extractLsb' k n = s.extractLsb' (k - 16) n := by
  apply BitVec.eq_of_getLsbD_eq
  intro i hi
  have h1 : k + i < 24 := by omega
  have h2 : ¬ k + i < 16 := by omega
  have h3 : k + i < 32 := by omega
  have h4 : d.getLsbD (k + i) = false := BitVec.getLsbD_of_ge _ _ (by omega)
  simp [packWord, hi, h1, h2, h3, h4, show k + i - 16 = k - 16 + i by omega]

/-- OPC reads the opcode. -/
theorem packWord_opc (o s : Byte) (d : Half) : opcField (packWord o s d) = o := by
  apply BitVec.eq_of_getLsbD_eq
  intro i hi
  have h1 : ¬ 24 + i < 24 := by omega
  have h2 : 24 + i < 32 := by omega
  have h3 : d.getLsbD (24 + i) = false := BitVec.getLsbD_of_ge _ _ (by omega)
  have h4 : s.getLsbD (24 + i - 16) = false := BitVec.getLsbD_of_ge _ _ (by omega)
  simp [opcField, packWord, h2, h3, h4]
  omega

/-- The queue bit is `SEL[0]`. -/
theorem packWord_queue (o s : Byte) (d : Half) : (packWord o s d).getLsbD 16 = s.getLsbD 0 := by
  simp [packWord]

/-- A mask acts on the three fields apart. -/
theorem packWord_and (o s o' s' : Byte) (d d' : Half) :
    packWord o s d &&& packWord o' s' d' = packWord (o &&& o') (s &&& s') (d &&& d') := by
  apply BitVec.eq_of_getLsbD_eq
  intro i hi
  by_cases h24 : i < 24
  · by_cases h16 : i < 16
    · simp [packWord, h24, h16]
    · have a : d.getLsbD i = false := BitVec.getLsbD_of_ge _ _ (by omega)
      have b : d'.getLsbD i = false := BitVec.getLsbD_of_ge _ _ (by omega)
      simp [packWord, h24, h16, hi, a, b]
  · have a : d.getLsbD i = false := BitVec.getLsbD_of_ge _ _ (by omega)
    have b : d'.getLsbD i = false := BitVec.getLsbD_of_ge _ _ (by omega)
    have e : s.getLsbD (i - 16) = false := BitVec.getLsbD_of_ge _ _ (by omega)
    have f : s'.getLsbD (i - 16) = false := BitVec.getLsbD_of_ge _ _ (by omega)
    simp [packWord, h24, hi, a, b, e, f]

/-- Every word is its three fields packed. -/
theorem packWord_fields (w : Word) : packWord (opcField w) (selField w) (opdField w) = w := by
  apply BitVec.eq_of_getLsbD_eq
  intro i hi
  by_cases h24 : i < 24
  · by_cases h16 : i < 16
    · simp [packWord, opcField, selField, opdField, h24, h16, hi]
    · simp [packWord, opcField, selField, opdField, h24, h16, hi, show i - 16 < 8 by omega, show 16 + (i - 16) = i by omega]
  · simp [packWord, opcField, selField, opdField, h24, hi, show i - 24 < 8 by omega, show 24 + (i - 24) = i by omega,
      show ¬ i < 16 by omega, show ¬ i - 16 < 8 by omega]

end Sys2Proof
end

