-- ==== Sys2Proof/Laws/Draws.lean ====
section
/-! SUPPORT. What the loss draws can do to a command (30_encoding.md R54, 43_arq.md R132): nothing but decide the drops of
the events it emits, one draw an event; and for ARQ.RXACK, whether the ACK is dropped. So a command that completes does the
same with further draws behind those it takes. -/

namespace Sys2Proof.Machine

/-! ## Emitting a list of events -/

/-- The event with the loss decision of the draw `u`. -/
def Event.decided (c : Cfg) (u : Draw) : Event → Event
  | .data x n _ => .data x n (dropped u c.pData)
  | .ack x _ => .ack x (dropped u c.pAckOut)
  | .accept x => .accept x

/-- Emitting the events `es` in order: the draws left and the events given; none without the draws. -/
def play (c : Cfg) : List Event → List Draw → List Event → Option (List Draw × List Event)
  | [], ds, ev => some (ds, ev)
  | e :: es, ds, ev =>
    if e.lossy then
      match ds with
      | [] => none
      | u :: us => play c es us (ev ++ [e.decided c u])
    else play c es ds (ev ++ [e])

theorem play_append (c : Cfg) (as bs : List Event) : ∀ ds ev,
    play c (as ++ bs) ds ev = (play c as ds ev).bind fun p => play c bs p.1 p.2 := by
  induction as with
  | nil => intro ds ev; rfl
  | cons e as ih =>
    intro ds ev
    cases he : e.lossy
    · simp [play, he, ih]
    · cases ds <;> simp [play, he, ih]

/-- What emitting does, whole: as many draws as events that take one, all events appended. -/
theorem play_some {c : Cfg} (es : List Event) : ∀ {ds ev ds' ev'}, play c es ds ev = some (ds', ev') →
    ∃ out, ev' = ev ++ out ∧ out.length = es.length ∧ (out.filter Event.lossy).length = (es.filter Event.lossy).length ∧
      ds' = ds.drop (es.filter Event.lossy).length ∧ (es.filter Event.lossy).length ≤ ds.length := by
  induction es with
  | nil =>
    intro ds ev ds' ev' h
    simp only [play, Option.some.injEq, Prod.mk.injEq] at h
    exact ⟨[], by simp [h.2], rfl, rfl, by simp [h.1], by simp⟩
  | cons e es ih =>
    intro ds ev ds' ev' h
    cases he : e.lossy with
    | false =>
      simp only [play, he, Bool.false_eq_true, if_false] at h
      obtain ⟨out, h1, h2, h3, h4, h5⟩ := ih h
      exact ⟨e :: out, by simp [h1], by simp [h2], by simp [he, h3], by simp [he, h4], by simpa [he] using h5⟩
    | true =>
      cases ds with
      | nil => simp [play, he] at h
      | cons u us =>
        simp only [play, he, if_true] at h
        obtain ⟨out, h1, h2, h3, h4, h5⟩ := ih h
        have hd : (e.decided c u).lossy = true := by cases e <;> simp_all [Event.decided, Event.lossy]
        exact ⟨e.decided c u :: out, by simp [h1], by simp [h2], by simp [he, hd, h3], by simp [he, h4], by simpa [he] using h5⟩

/-- Emitting succeeds exactly when there is a draw for each event that takes one. -/
theorem play_isSome (c : Cfg) (es : List Event) : ∀ ds ev,
    (play c es ds ev).isSome = decide ((es.filter Event.lossy).length ≤ ds.length) := by
  induction es with
  | nil => intro ds ev; simp [play]
  | cons e es ih =>
    intro ds ev
    cases he : e.lossy
    · simp [play, he, ih]
    · cases ds <;> simp [play, he, ih]

/-! ## Operations that only emit -/

/-- The state with these draws at hand and these events given. -/
def ports (ds : List Draw) (ev : List Event) (s : State) : State := { s with draws := ds, events := ev }

/-- At `s` the operation emits a fixed list of events, each with a draw, and ends in a fixed state, whatever the draws and
the events before. -/
def PlannedAt (f : State → Option State) (s : State) : Prop :=
  ∃ (es : List Event) (core : State), core.cfg = s.cfg ∧ (∀ e ∈ es, e.lossy = true) ∧
    ∀ ds ev, f (ports ds ev s) = (play s.cfg es ds ev).map fun p => ports p.1 p.2 core

theorem PlannedAt.congr {f g : State → Option State} {s : State} (hf : PlannedAt f s)
    (h : ∀ ds ev, g (ports ds ev s) = f (ports ds ev s)) : PlannedAt g s := by
  obtain ⟨es, core, hc, hl, he⟩ := hf
  exact ⟨es, core, hc, hl, fun ds ev => (h ds ev).trans (he ds ev)⟩

/-- An operation that looks at neither draws nor events. -/
theorem PlannedAt.pure {s core : State} {g : State → Option State} (hc : core.cfg = s.cfg)
    (h : ∀ ds ev, g (ports ds ev s) = some (ports ds ev core)) : PlannedAt g s :=
  ⟨[], core, hc, by simp, fun ds ev => by rw [h]; rfl⟩

theorem PlannedAt.bind {f g : State → Option State} {s : State} (hf : PlannedAt f s) (hg : ∀ t, PlannedAt g t) :
    PlannedAt (fun s => (f s).bind g) s := by
  obtain ⟨es, t, hc, hl, he⟩ := hf
  obtain ⟨es', t', hc', hl', he'⟩ := hg t
  refine ⟨es ++ es', t', hc'.trans hc, fun e h => (List.mem_append.1 h).elim (hl e) (hl' e), fun ds ev => ?_⟩
  simp only [he, play_append]
  rw [hc] at he'
  cases play s.cfg es ds ev with
  | none => rfl
  | some p => exact he' p.1 p.2

/-- A change of the state before an operation, made on the state alone. -/
theorem PlannedAt.comp {f : State → Option State} {g : State → State} {s : State} (hg : (g s).cfg = s.cfg)
    (h : ∀ ds ev, g (ports ds ev s) = ports ds ev (g s)) (hf : PlannedAt f (g s)) : PlannedAt (fun s => f (g s)) s := by
  obtain ⟨es, core, hc, hl, he⟩ := hf
  exact ⟨es, core, hc.trans hg, hl, fun ds ev => by simp only [h, he, hg]⟩

/-- A change of the state after an operation, made on the state alone. -/
theorem PlannedAt.map {f : State → Option State} {g : State → State} {s : State} (hf : PlannedAt f s)
    (hg : ∀ t, (g t).cfg = t.cfg) (h : ∀ ds ev t, g (ports ds ev t) = ports ds ev (g t)) :
    PlannedAt (fun s => (f s).map g) s := by
  obtain ⟨es, core, hc, hl, he⟩ := hf
  refine ⟨es, g core, (hg _).trans hc, hl, fun ds ev => ?_⟩
  simp only [he, Option.map_map]
  exact congrArg (Option.map · _) (funext fun p => h p.1 p.2 core)

theorem emitData_planned (x : Byte) (u : Half) (s : State) : PlannedAt (emitData x u) s := by
  refine ⟨[.data x u false], s, rfl, by simp [Event.lossy], fun ds ev => ?_⟩
  cases ds with
  | nil => rfl
  | cons d ds => rw [emitData_cons (s := ports (d :: ds) ev s) rfl]; rfl

theorem qenq_ports (q : QSel) (v : Byte) (s : State) (ds : List Draw) (ev : List Event) :
    qenq q v (ports ds ev s) = ((qenq q v s).1, ports ds ev (qenq q v s).2) := by
  have hq : ((ports ds ev s).queue q) = s.queue q := by cases q <;> rfl
  by_cases h : (s.queue q).size.toNat = capacity s.cfg q
  · rw [qenq_full h, qenq_full (s := ports ds ev s) (by rw [hq]; exact h)]
    rfl
  · cases q
    · rw [qenq_txq_ok h, qenq_txq_ok (s := ports ds ev s) h]; rfl
    · rw [qenq_rxq_ok h, qenq_rxq_ok (s := ports ds ev s) h]; rfl

theorem qenq_cfg (q : QSel) (v : Byte) (s : State) : (qenq q v s).2.cfg = s.cfg := by
  by_cases h : (s.queue q).size.toNat = capacity s.cfg q
  · rw [qenq_full h]; rfl
  · cases q
    · rw [qenq_txq_ok h]
    · rw [qenq_rxq_ok h]

theorem qdeq_ports (q : QSel) (s : State) (ds : List Draw) (ev : List Event) :
    qdeq q (ports ds ev s) = ((qdeq q s).1, ports ds ev (qdeq q s).2) := by
  have hq : ((ports ds ev s).queue q) = s.queue q := by cases q <;> rfl
  by_cases h : (s.queue q).size = 0#8
  · rw [qdeq_empty h, qdeq_empty (s := ports ds ev s) (by rw [hq]; exact h)]
    rfl
  · cases q
    · rw [qdeq_txq_ok h, qdeq_txq_ok (s := ports ds ev s) h]; rfl
    · rw [qdeq_rxq_ok h, qdeq_rxq_ok (s := ports ds ev s) h]; rfl

theorem qdeq_cfg (q : QSel) (s : State) : (qdeq q s).2.cfg = s.cfg := by
  by_cases h : (s.queue q).size = 0#8
  · rw [qdeq_empty h]; rfl
  · cases q
    · rw [qdeq_txq_ok h]
    · rw [qdeq_rxq_ok h]

theorem sendNew_planned (s : State) : PlannedAt sendNew s := by
  have h := (emitData_planned s.nextSeq s.sentCount s).map
    (g := fun t => { (qenq .txq s.nextSeq t).2 with nextSeq := nextSeqOf s.cfg s.nextSeq, sentCount := s.sentCount + 1#16 })
    (fun t => qenq_cfg _ _ t) (fun ds ev t => by simp only [qenq_ports]; rfl)
  refine h.congr fun ds ev => ?_
  show (match emitData s.nextSeq s.sentCount (ports ds ev s) with | none => none | some t => _) = _
  cases emitData s.nextSeq s.sentCount (ports ds ev s) <;> rfl

theorem fillLoop_planned (n : Nat) : ∀ s, PlannedAt (fillLoop n) s := by
  induction n with
  | zero => exact fun s => PlannedAt.pure rfl fun _ _ => rfl
  | succ n ih =>
    intro s
    cases h : canSend s with
    | false =>
      refine PlannedAt.pure (core := s) rfl fun ds ev => ?_
      have hc : canSend (ports ds ev s) = false := h
      simp [fillLoop, hc]
    | true =>
      refine ((sendNew_planned s).bind ih).congr fun ds ev => ?_
      have hc : canSend (ports ds ev s) = true := h
      rw [fillLoop, if_pos hc]
      cases sendNew (ports ds ev s) <;> rfl

theorem retransmitAt_planned (js : List Nat) : ∀ s, PlannedAt (retransmitAt js) s := by
  induction js with
  | nil => exact fun s => PlannedAt.pure rfl fun _ _ => rfl
  | cons j js ih =>
    intro s
    by_cases h : resends s (s.txq.entryIndex s.cfg.w j) = true
    · refine ((emitData_planned (s.txq.entry s.cfg.w j) (unitOf s j) s).bind ih).congr fun ds ev => ?_
      have hc : resends (ports ds ev s) ((ports ds ev s).txq.entryIndex (ports ds ev s).cfg.w j) = true := h
      rw [retransmitAt, if_pos hc]
      show (match emitData (s.txq.entry s.cfg.w j) (unitOf s j) (ports ds ev s) with | none => none | some t => _) = _
      cases emitData (s.txq.entry s.cfg.w j) (unitOf s j) (ports ds ev s) <;> rfl
    · refine (ih s).congr fun ds ev => ?_
      have hc : ¬resends (ports ds ev s) ((ports ds ev s).txq.entryIndex (ports ds ev s).cfg.w j) = true := h
      rw [retransmitAt, if_neg hc]

theorem emitAck_planned (s : State) : PlannedAt emitAck s := by
  refine ⟨[.ack (s.rxq.slotAt s.rxq.front.toNat) false], (qdeq .rxq s).2, qdeq_cfg _ _, by simp [Event.lossy], fun ds ev => ?_⟩
  cases ds with
  | nil => rfl
  | cons d ds =>
    simp only [emitAck, drawLoss_cons (s := ports (d :: ds) ev s) rfl]
    exact congrArg (fun p => some p.2)
      (qdeq_ports .rxq s ds (ev ++ [.ack (s.rxq.slotAt s.rxq.front.toNat) (dropped d s.cfg.pAckOut)]))

theorem ackWhenDeep_planned (s : State) : PlannedAt ackWhenDeep s := by
  by_cases h : s.cfg.d ≤ s.rxq.size.toNat
  · exact (emitAck_planned s).congr fun ds ev => if_pos h
  · exact PlannedAt.pure (core := s) rfl fun ds ev => if_neg h

theorem drainLoop_planned (n : Nat) : ∀ s, PlannedAt (drainLoop n) s := by
  induction n with
  | zero => exact fun s => PlannedAt.pure rfl fun _ _ => rfl
  | succ n ih =>
    intro s
    by_cases h : s.rxq.size = 0#8
    · exact PlannedAt.pure (core := s) rfl fun ds ev => if_pos h
    · refine ((emitAck_planned s).bind ih).congr fun ds ev => ?_
      have hc : ¬(ports ds ev s).rxq.size = 0#8 := h
      rw [drainLoop, if_neg hc]
      cases emitAck (ports ds ev s) <;> rfl

theorem ackTimerTest_planned (s : State) : PlannedAt ackTimerTest s := by
  by_cases h : s.txq.size ≠ 0#8 ∧ fires s.cfg s.ackTimer s.cfg.ackTimeout = true
  · exact (PlannedAt.comp (g := fun s => { s with ackTimer := 0#16 }) (s := s) rfl (fun _ _ => rfl)
      (retransmitAt_planned (List.range s.txq.size.toNat) _)).congr fun ds ev => if_pos h
  · exact PlannedAt.pure (core := s) rfl fun ds ev => if_neg h

theorem txTimerTest_planned (s : State) : PlannedAt txTimerTest s := by
  by_cases h : fires s.cfg s.txTimer s.cfg.txTimeout = true
  · by_cases hc : canSend s = true
    · exact (PlannedAt.comp (g := fun s => { s with txTimer := 0#16 }) (s := s) rfl (fun _ _ => rfl)
        (sendNew_planned _)).congr fun ds ev => (if_pos h).trans (if_pos hc)
    · exact PlannedAt.pure (core := { s with txTimer := 0#16 }) rfl fun ds ev => (if_pos h).trans (if_neg hc)
  · exact PlannedAt.pure (core := s) rfl fun ds ev => if_neg h

theorem checkDone_ports (s : State) (ds : List Draw) (ev : List Event) :
    checkDone (ports ds ev s) = ports ds ev (checkDone s) := by
  by_cases h : s.fsm = .transmitting ∧ s.sentCount.toNat = s.cfg.m ∧ s.txq.size = 0#8
  · rw [checkDone_done h, checkDone_done (s := ports ds ev s) h]; rfl
  · rw [checkDone_not h, checkDone_not (s := ports ds ev s) h]

theorem checkDone_cfg (s : State) : (checkDone s).cfg = s.cfg := by
  by_cases h : s.fsm = .transmitting ∧ s.sentCount.toNat = s.cfg.m ∧ s.txq.size = 0#8
  · rw [checkDone_done h]
  · rw [checkDone_not h]

/-! ## Taking an ACK -/

theorem popTimes_ports (n : Nat) (ds : List Draw) (ev : List Event) : ∀ s : State,
    popTimes n (ports ds ev s) = ports ds ev (popTimes n s) := by
  induction n with
  | zero => intro s; rfl
  | succ n ih => intro s; rw [popTimes, qdeq_ports, popTimes]; exact ih _

theorem slideLoop_ports (n : Nat) (ds : List Draw) (ev : List Event) : ∀ s : State,
    slideLoop n (ports ds ev s) = ports ds ev (slideLoop n s) := by
  induction n with
  | zero => intro s; rfl
  | succ n ih =>
    intro s
    rw [slideLoop, slideLoop, qdeq_ports]
    show (if s.txq.size = 0#8 then _ else if ackBit s s.txq.front.toNat = true then _ else _) = _
    split
    · rfl
    · split
      · exact ih _
      · rfl

/-- The window after an ACK, with these ports. -/
def AckResult.ports (ds : List Draw) (ev : List Event) : AckResult → AckResult
  | .noMatch => .noMatch
  | .duplicate => .duplicate
  | .progress s => .progress (Machine.ports ds ev s)

theorem takeAck_ports (x : Byte) (s : State) (ds : List Draw) (ev : List Event) :
    takeAck x (ports ds ev s) = (takeAck x s).ports ds ev := by
  have h1 : takeAckFront x (ports ds ev s) = (takeAckFront x s).ports ds ev := by
    simp only [takeAckFront, qdeq_ports]
    show (if s.txq.size ≠ 0#8 ∧ s.txq.slotAt s.txq.front.toNat = x then _ else _) = _
    split <;> rfl
  have hf : qfind .txq x (ports ds ev s) = qfind .txq x s := rfl
  have h2 : takeAckCumulative x (ports ds ev s) = (takeAckCumulative x s).ports ds ev := by
    simp only [takeAckCumulative, hf]
    split
    · rfl
    · simp only [popTimes_ports, AckResult.ports]
  have h3 : takeAckSelective x (ports ds ev s) = (takeAckSelective x s).ports ds ev := by
    simp only [takeAckSelective, hf]
    split
    · rfl
    · rename_i j _
      show (if ackBit s (s.txq.entryIndex s.cfg.w j) = true then _ else _) = _
      split
      · rfl
      · exact congrArg AckResult.progress (slideLoop_ports _ ds ev (setAckBit (s.txq.entryIndex s.cfg.w j) s))
  unfold takeAck
  show (match s.cfg.mode with | .sw => _ | .gbn => _ | .sr => _ | .slw => _) = _
  cases s.cfg.mode
  · exact h1
  · exact h2
  · exact h3
  · exact h3

/-- An ACK delivered emits nothing and looks at no draw. -/
theorem deliverAck_ports (x m : Byte) (s0 s : State) (ds ds0 : List Draw) (ev : List Event) :
    deliverAck x m (ports ds0 ev s0) (ports ds ev s) =
      ports ds ev (deliverAck x m (ports [] [] s0) (ports [] [] s)) := by
  have hr : ∀ st t, arqRsp (ports ds0 ev s0) st (ports ds ev t) =
      ports ds ev (arqRsp (ports [] [] s0) st (ports [] [] t)) := by
    intro st t
    simp only [arqRsp, ports, Nat.sub_self]
    rfl
  have hp : ∀ ds ev t, ackProgress (ports ds ev t) = ports ds ev (ackProgress t) := fun ds ev t =>
    checkDone_ports { t with ackTimer := 0#16 } ds ev
  unfold deliverAck
  rw [takeAck_ports, takeAck_ports]
  split
  · exact hr _ s
  · cases takeAck x s with
    | noMatch => exact hr _ s
    | duplicate => exact hr _ s
    | progress t => simp only [AckResult.ports, hp, hr]

/-! ## Commands -/

/-- At `s` the command emits a fixed list of events, at most one of them an ACCEPT, and ends in a fixed state, with a draw
for each other event. -/
def CommandPlan (i : Instr) (s : State) (es : List Event) (core : State) : Prop :=
  es.length ≤ (es.filter Event.lossy).length + 1 ∧ ∀ ds ev, exec i (ports ds ev s) = completing ((play s.cfg es ds ev).map fun p => ports p.1 p.2 core)

/-- The response of an ARQ command counts the events of its plan. -/
theorem CommandPlan.ofResponse {i : Instr} {f : State → Option State} {s core : State} {es : List Event}
    (hl : es.length ≤ (es.filter Event.lossy).length + 1)
    (he : ∀ ds ev, f (ports ds ev s) = (play s.cfg es ds ev).map fun p => ports p.1 p.2 core) (st : Status)
    (h : ∀ ds ev, exec i (ports ds ev s) = completing ((f (ports ds ev s)).map (arqRsp (ports ds ev s) st))) :
    CommandPlan i s es (respond st (arqData core es.length) core) := by
  refine ⟨hl, fun ds ev => ?_⟩
  rw [h, he, Option.map_map]
  cases hp : play s.cfg es ds ev with
  | none => rfl
  | some p =>
    obtain ⟨out, h1, h2, _⟩ := play_some (ds' := p.1) (ev' := p.2) es hp
    have hn : (p.2.length - ev.length) = es.length := by rw [h1, List.length_append, h2]; omega
    show Host.Outcome.next (arqRsp (ports ds ev s) st (ports p.1 p.2 core)) = _
    show Host.Outcome.next (respond st (arqData (ports p.1 p.2 core) (p.2.length - ev.length)) (ports p.1 p.2 core)) = _
    rw [hn]
    rfl

theorem PlannedAt.command {i : Instr} {f : State → Option State} {s : State} (hf : PlannedAt f s) (st : Status)
    (h : ∀ ds ev, exec i (ports ds ev s) = completing ((f (ports ds ev s)).map (arqRsp (ports ds ev s) st))) :
    ∃ es core, CommandPlan i s es core := by
  obtain ⟨es, core, _, hl, he⟩ := hf
  exact ⟨es, _, .ofResponse (by rw [List.filter_eq_self.2 hl]; omega) he st h⟩

/-- A command with no draw and no event. -/
theorem CommandPlan.quiet {i : Instr} {s : State} (f : State → State) (h : ∀ t, exec i t = .next (f t))
    (hf : ∀ ds ev, f (ports ds ev s) = ports ds ev (f s)) : CommandPlan i s [] (f s) :=
  ⟨by simp, fun ds ev => by rw [h, hf]; rfl⟩

theorem arqRsp_quiet (st : Status) (s : State) (ds : List Draw) (ev : List Event) :
    arqRsp (ports ds ev s) st (ports ds ev s) = ports ds ev (arqRsp s st s) := by
  simp only [arqRsp, ports, Nat.sub_self]
  rfl

/-- Every command but an ARQ.RXACK that finds FSM = 1 follows a plan: draws decide the drops of its events and nothing else. -/
theorem exec_plan (i : Instr) (s : State) (h : ¬((∃ x m, i = .arqRxack x m) ∧ s.fsm = .transmitting)) :
    ∃ es core, CommandPlan i s es core := by
  have busy : ∀ f : State → State, (∀ ds ev, f (ports ds ev s) = ports ds ev (f s)) →
      ∀ ds ev, unlessBusy f (ports ds ev s) = ports ds ev (unlessBusy f s) := by
    intro f hf ds ev
    cases hs : s.fsm with
    | idle => rw [unlessBusy_idle hs, unlessBusy_idle (s := ports ds ev s) hs, hf]
    | transmitting => rw [unlessBusy_busy hs, unlessBusy_busy (s := ports ds ev s) hs]; rfl
  cases i with
  | nop => exact ⟨_, _, .quiet (respond .ok 0#24) (fun _ => rfl) fun _ _ => rfl⟩
  | fecEnc sym => exact ⟨_, _, .quiet (fun t => respond .ok ((enc t.cfg.code sym).setWidth 24) t) (fun _ => rfl) fun _ _ => rfl⟩
  | fecSyn cw => exact ⟨_, _, .quiet (fun t => respond .ok ((syn t.cfg.code cw).setWidth 24) t) (fun _ => rfl) fun _ _ => rfl⟩
  | fecDec cw => exact ⟨_, _, .quiet (fun t => respond .ok ((dec t.cfg.code cw).setWidth 24) t) (fun _ => rfl) fun _ _ => rfl⟩
  | fecCor cw =>
    cases hc : cor s.cfg.code cw with
    | clean c =>
      refine ⟨[], respond .ok (corData 0#3 (syn s.cfg.code cw) c) s, by simp, fun ds ev => ?_⟩
      have hc' : cor (ports ds ev s).cfg.code cw = _ := hc
      simp only [exec, execFecCor, hc']; rfl
    | fixed c p =>
      refine ⟨[], respond .corrected (corData (BitVec.ofNat 3 p.val) (syn s.cfg.code cw) c) s, by simp, fun ds ev => ?_⟩
      have hc' : cor (ports ds ev s).cfg.code cw = _ := hc
      simp only [exec, execFecCor, hc']; rfl
    | uncorrectable =>
      refine ⟨[], respond .uncorrectable (corData 0#3 (syn s.cfg.code cw) 0#6) (setErr .fecFault s), by simp, fun ds ev => ?_⟩
      have hc' : cor (ports ds ev s).cfg.code cw = _ := hc
      simp only [exec, execFecCor, hc']; rfl
  | qEnq q v =>
    refine ⟨_, _, .quiet (unlessBusy (enqCommand q v)) (fun _ => rfl) (busy _ fun ds ev => ?_)⟩
    simp only [enqCommand, qenq_ports]
    cases q <;> rcases qenq _ v s with ⟨r, u⟩ <;> cases r <;> rfl
  | qDeq q =>
    refine ⟨_, _, .quiet (unlessBusy (deqCommand q)) (fun _ => rfl) (busy _ fun ds ev => ?_)⟩
    simp only [deqCommand, qdeq_ports]
    cases q <;> rcases qdeq _ s with ⟨r, u⟩ <;> cases r <;> rfl
  | qFront q =>
    refine ⟨_, _, .quiet (fun t => peekResponse (qfront q t)) (fun _ => rfl) fun ds ev => ?_⟩
    have hq : (ports ds ev s).queue q = s.queue q := by cases q <;> rfl
    by_cases h0 : (s.queue q).size = 0#8
    · simp only [qfront_empty h0, qfront_empty (s := ports ds ev s) (by rw [hq]; exact h0)]; rfl
    · simp only [qfront_value h0, qfront_value (s := ports ds ev s) (by rw [hq]; exact h0), hq]; rfl
  | qRear q =>
    refine ⟨_, _, .quiet (fun t => peekResponse (qrear q t)) (fun _ => rfl) fun ds ev => ?_⟩
    have hq : (ports ds ev s).queue q = s.queue q := by cases q <;> rfl
    by_cases h0 : (s.queue q).size = 0#8
    · simp only [qrear_empty h0, qrear_empty (s := ports ds ev s) (by rw [hq]; exact h0)]; rfl
    · simp only [qrear_value h0, qrear_value (s := ports ds ev s) (by rw [hq]; exact h0), hq]; rfl
  | qClear q =>
    exact ⟨_, _, .quiet (unlessBusy (clearCommand q)) (fun _ => rfl) (busy _ fun ds ev => by cases q <;> rfl)⟩
  | qSize q =>
    exact ⟨_, _, .quiet (fun t => respond .ok ((qsize q t).setWidth 24) t) (fun _ => rfl) fun ds ev => by cases q <;> rfl⟩
  | frmClass len =>
    cases hc : classify s.cfg len.toNat with
    | ambiguous =>
      refine ⟨[], respond .classAmbiguous 0#24 (setErr .ambig s), by simp, fun ds ev => ?_⟩
      have hc' : classify (ports ds ev s).cfg len.toNat = _ := hc
      simp only [exec, execFrmClass, hc']; rfl
    | dataFrames n =>
      refine ⟨[], respond .ok (classData 1#2 n) s, by simp, fun ds ev => ?_⟩
      have hc' : classify (ports ds ev s).cfg len.toNat = _ := hc
      simp only [exec, execFrmClass, hc']; rfl
    | ackFrames n =>
      refine ⟨[], respond .ok (classData 2#2 n) s, by simp, fun ds ev => ?_⟩
      have hc' : classify (ports ds ev s).cfg len.toNat = _ := hc
      simp only [exec, execFrmClass, hc']; rfl
    | unclassified =>
      refine ⟨[], respond .classNone 0#24 s, by simp, fun ds ev => ?_⟩
      have hc' : classify (ports ds ev s).cfg len.toNat = _ := hc
      simp only [exec, execFrmClass, hc']; rfl
  | regRd r =>
    cases hr : regOfNumber r with
    | none => exact ⟨[], illegal s, by simp, fun ds ev => by simp only [exec, execRegRd, hr]; rfl⟩
    | some reg =>
      refine ⟨[], respond .ok (regVal s reg) s, by simp, fun ds ev => ?_⟩
      simp only [exec, execRegRd, hr]
      cases reg <;> rfl
  | regClrerr mask =>
    exact ⟨_, _, .quiet (fun t => respond .ok ((clearErr mask t).err.setWidth 24) (clearErr mask t)) (fun _ => rfl)
      fun _ _ => rfl⟩
  | arqDisc =>
    refine ⟨_, _, .quiet (fun t => arqRsp t .ok { resetSession t with fsm := .idle }) (fun _ => rfl) fun ds ev => ?_⟩
    simp only [resetSession_eq, arqRsp, ports, Nat.sub_self]
    rfl
  | arqCtrl b0 b1 =>
    by_cases hb : b0 = startByte0 ∧ b1 = startByte1
    · refine ((PlannedAt.comp (g := startSession) (s := s) rfl (fun _ _ => rfl)
        (fillLoop_planned s.cfg.w _)).map checkDone_cfg (fun ds ev t => checkDone_ports t ds ev)).command .ok fun ds ev => ?_
      simp only [exec, execArqCtrl, if_pos hb, Option.map_map]
      rfl
    · refine ⟨_, _, .quiet (fun t => arqRsp t .ctrlIgnored t) (fun t => if_neg hb) fun ds ev => arqRsp_quiet _ s ds ev⟩
  | arqRxdata x =>
    by_cases hx : x = s.rxExp
    · obtain ⟨es, core, _, hl, he⟩ := ackWhenDeep_planned (qenq .rxq x { s with rxExp := nextSeqOf s.cfg s.rxExp }).2
      have hq : ∀ ds ev, qenq .rxq x (acceptFrame x (ports ds ev s)) = _ := fun ds ev =>
        qenq_ports .rxq x { s with rxExp := nextSeqOf s.cfg s.rxExp } ds (ev ++ [Event.accept x])
      refine ⟨.accept x :: es, _, .ofResponse (core := core) (f := fun t => ackWhenDeep (qenq .rxq x (acceptFrame x t)).2)
        (by simp [Event.lossy, List.filter_eq_self.2 hl]) (fun ds ev => ?_)
        (acceptStatus (qenq .rxq x { s with rxExp := nextSeqOf s.cfg s.rxExp }).1) fun ds ev => ?_⟩
      · simp only [hq]
        have := he ds (ev ++ [.accept x])
        rw [qenq_cfg] at this
        exact this
      · have hx' : ¬x ≠ (ports ds ev s).rxExp := fun hn => hn hx
        simp only [exec, execArqRxdata, if_neg hx', hq]
    · refine ⟨[], arqRsp s .rxOutOfOrder s, by simp, fun ds ev => ?_⟩
      have hx' : x ≠ (ports ds ev s).rxExp := hx
      simp only [exec, execArqRxdata, if_pos hx', arqRsp_quiet]
      rfl
  | arqRxack x m =>
    cases hs : s.fsm with
    | transmitting => exact absurd ⟨⟨x, m, rfl⟩, hs⟩ h
    | idle =>
      refine ⟨[], arqRsp s .idleIgnored s, by simp, fun ds ev => ?_⟩
      have hs' : (ports ds ev s).fsm = _ := hs
      simp only [exec, execArqRxack, hs', arqRsp_quiet]
      rfl
  | arqTick =>
    cases hs : s.fsm with
    | idle =>
      refine ⟨[], arqRsp s .idleIgnored s, by simp, fun ds ev => ?_⟩
      have hs' : (ports ds ev s).fsm = _ := hs
      simp only [exec, execArqTick, hs', arqRsp_quiet]
      rfl
    | transmitting =>
      refine (PlannedAt.comp (g := countTick) (s := s) rfl (fun _ _ => rfl)
        ((ackTimerTest_planned _).bind txTimerTest_planned)).command .ok fun ds ev => ?_
      have hs' : (ports ds ev s).fsm = _ := hs
      simp only [exec, execArqTick, hs']
  | arqEom => exact (drainLoop_planned s.rxq.size.toNat s).command .ok fun ds ev => rfl

/-- An ARQ.RXACK that finds FSM = 1 takes exactly one draw and emits nothing. -/
theorem exec_rxack (x m : Byte) (s : State) (h : s.fsm = .transmitting) : ∃ core : Draw → State, ∀ ds ev,
    exec (.arqRxack x m) (ports ds ev s) =
      match ds with
      | [] => .fault .drawStall
      | u :: us => .next (ports us ev (core u)) := by
  refine ⟨fun u => match dropped u s.cfg.pAckIn with
    | true => arqRsp s .ackDropped s
    | false => deliverAck x m (ports [] [] s) (ports [] [] s), fun ds ev => ?_⟩
  have h' : (ports ds ev s).fsm = _ := h
  simp only [exec, execArqRxack, h']
  cases ds with
  | nil => rfl
  | cons u us =>
    rw [drawLoss_cons (s := ports (u :: us) ev s) rfl]
    have hp : (ports (u :: us) ev s).cfg.pAckIn = s.cfg.pAckIn := rfl
    rw [hp]
    cases hd : dropped u s.cfg.pAckIn with
    | true => simp only [hd, arqRsp, ports, Nat.sub_self]; rfl
    | false =>
      simp only [hd]
      exact congrArg Host.Outcome.next (deliverAck_ports x m s s us (u :: us) ev)

end Sys2Proof.Machine
end

