-- ==== Sys2Proof/Laws/PerInstr.lean ====
section
/-! SUPPORT. Statements made per instruction. The family EncodeFitsRow: the word of a command has the match pattern of
its row of spec/opcode_table.json under the row's mask (30_encoding.md R55). -/

namespace Sys2Proof.Laws.EncodeFitsRow

/-- The command's word fits the row of its own mnemonic. -/
def Statement (i : Instr) : Prop :=
  ∃ row ∈ opcodeRows, row.mnemonic = mnemonic i ∧ row.fits (encode i) = true

/-- A packed word fits a packed row when each field does. -/
theorem fits_packed {name : String} {o s : Byte} {d : Half} {po ps mo ms : Byte} {pd md : Half}
    (ho : o &&& mo = po) (hs : s &&& ms = ps) (hd : d &&& md = pd) :
    OpcodeRow.fits ⟨name, packWord po ps pd, packWord mo ms md⟩ (packWord o s d) = true := by
  simp only [OpcodeRow.fits, packWord_and, ho, hs, hd, beq_self_eq_true]

theorem nop : Statement (.nop) :=
  ⟨⟨"NOP", packWord 0x00#8 0x00#8 0x0000#16, packWord 0xFF#8 0xFF#8 0xFFFF#16⟩, by decide, rfl,
    fits_packed (by decide) (by decide) (by decide)⟩

theorem fecEnc (sym : Symbol) : Statement (.fecEnc sym) :=
  ⟨⟨"FEC.ENC", packWord 0x10#8 0x00#8 0x0000#16, packWord 0xFF#8 0xFF#8 0xFFF8#16⟩, by decide, rfl,
    fits_packed (by decide) (by decide) (by revert sym; decide)⟩

theorem fecSyn (cw : Codeword) : Statement (.fecSyn cw) :=
  ⟨⟨"FEC.SYN", packWord 0x11#8 0x00#8 0x0000#16, packWord 0xFF#8 0xFF#8 0xFFC0#16⟩, by decide, rfl,
    fits_packed (by decide) (by decide) (by revert cw; decide)⟩

theorem fecCor (cw : Codeword) : Statement (.fecCor cw) :=
  ⟨⟨"FEC.COR", packWord 0x12#8 0x00#8 0x0000#16, packWord 0xFF#8 0xFF#8 0xFFC0#16⟩, by decide, rfl,
    fits_packed (by decide) (by decide) (by revert cw; decide)⟩

theorem fecDec (cw : Codeword) : Statement (.fecDec cw) :=
  ⟨⟨"FEC.DEC", packWord 0x13#8 0x00#8 0x0000#16, packWord 0xFF#8 0xFF#8 0xFFC0#16⟩, by decide, rfl,
    fits_packed (by decide) (by decide) (by revert cw; decide)⟩

theorem qEnq (q : QSel) (v : Byte) : Statement (.qEnq q v) :=
  ⟨⟨"Q.ENQ", packWord 0x20#8 0x00#8 0x0000#16, packWord 0xFF#8 0xFE#8 0xFF00#16⟩, by decide, rfl,
    fits_packed (by decide) (by cases q <;> decide) (by revert v; decide)⟩

theorem qDeq (q : QSel) : Statement (.qDeq q) :=
  ⟨⟨"Q.DEQ", packWord 0x21#8 0x00#8 0x0000#16, packWord 0xFF#8 0xFE#8 0xFFFF#16⟩, by decide, rfl,
    fits_packed (by decide) (by cases q <;> decide) (by decide)⟩

theorem qFront (q : QSel) : Statement (.qFront q) :=
  ⟨⟨"Q.FRONT", packWord 0x22#8 0x00#8 0x0000#16, packWord 0xFF#8 0xFE#8 0xFFFF#16⟩, by decide, rfl,
    fits_packed (by decide) (by cases q <;> decide) (by decide)⟩

theorem qRear (q : QSel) : Statement (.qRear q) :=
  ⟨⟨"Q.REAR", packWord 0x23#8 0x00#8 0x0000#16, packWord 0xFF#8 0xFE#8 0xFFFF#16⟩, by decide, rfl,
    fits_packed (by decide) (by cases q <;> decide) (by decide)⟩

theorem qClear (q : QSel) : Statement (.qClear q) :=
  ⟨⟨"Q.CLEAR", packWord 0x24#8 0x00#8 0x0000#16, packWord 0xFF#8 0xFE#8 0xFFFF#16⟩, by decide, rfl,
    fits_packed (by decide) (by cases q <;> decide) (by decide)⟩

theorem qSize (q : QSel) : Statement (.qSize q) :=
  ⟨⟨"Q.SIZE", packWord 0x25#8 0x00#8 0x0000#16, packWord 0xFF#8 0xFE#8 0xFFFF#16⟩, by decide, rfl,
    fits_packed (by decide) (by cases q <;> decide) (by decide)⟩

theorem frmClass (len : Half) : Statement (.frmClass len) :=
  ⟨⟨"FRM.CLASS", packWord 0x30#8 0x00#8 0x0000#16, packWord 0xFF#8 0xFF#8 0x0000#16⟩, by decide, rfl,
    fits_packed (by decide) (by decide) (by simp)⟩

theorem arqCtrl (b0 b1 : Byte) : Statement (.arqCtrl b0 b1) :=
  ⟨⟨"ARQ.CTRL", packWord 0x40#8 0x00#8 0x0000#16, packWord 0xFF#8 0xFF#8 0x0000#16⟩, by decide, rfl,
    fits_packed (by decide) (by decide) (by simp)⟩

theorem arqRxdata (seq : Byte) : Statement (.arqRxdata seq) :=
  ⟨⟨"ARQ.RXDATA", packWord 0x41#8 0x00#8 0x0000#16, packWord 0xFF#8 0xFF#8 0xFF00#16⟩, by decide, rfl,
    fits_packed (by decide) (by decide) (by revert seq; decide)⟩

theorem arqRxack (seq mark : Byte) : Statement (.arqRxack seq mark) :=
  ⟨⟨"ARQ.RXACK", packWord 0x42#8 0x00#8 0x0000#16, packWord 0xFF#8 0xFF#8 0x0000#16⟩, by decide, rfl,
    fits_packed (by decide) (by decide) (by simp)⟩

theorem arqTick : Statement (.arqTick) :=
  ⟨⟨"ARQ.TICK", packWord 0x43#8 0x00#8 0x0000#16, packWord 0xFF#8 0xFF#8 0xFFFF#16⟩, by decide, rfl,
    fits_packed (by decide) (by decide) (by decide)⟩

theorem arqEom : Statement (.arqEom) :=
  ⟨⟨"ARQ.EOM", packWord 0x44#8 0x00#8 0x0000#16, packWord 0xFF#8 0xFF#8 0xFFFF#16⟩, by decide, rfl,
    fits_packed (by decide) (by decide) (by decide)⟩

theorem arqDisc : Statement (.arqDisc) :=
  ⟨⟨"ARQ.DISC", packWord 0x45#8 0x00#8 0x0000#16, packWord 0xFF#8 0xFF#8 0xFFFF#16⟩, by decide, rfl,
    fits_packed (by decide) (by decide) (by decide)⟩

theorem regRd (r : Byte) : Statement (.regRd r) :=
  ⟨⟨"REG.RD", packWord 0x50#8 0x00#8 0x0000#16, packWord 0xFF#8 0x00#8 0xFFFF#16⟩, by decide, rfl,
    fits_packed (by decide) (by simp) (by decide)⟩

theorem regClrerr (mask : BitVec 5) : Statement (.regClrerr mask) :=
  ⟨⟨"REG.CLRERR", packWord 0x51#8 0x00#8 0x0000#16, packWord 0xFF#8 0xFF#8 0xFFE0#16⟩, by decide, rfl,
    fits_packed (by decide) (by decide) (by revert mask; decide)⟩

end Sys2Proof.Laws.EncodeFitsRow
end

