-- ==== Sys2Proof/Laws/Port.lean ====
section
/-! SUPPORT. What further draws behind those a command takes change: nothing (30_encoding.md R54, 43_arq.md R132). And what
a command leaves behind that a hardware reset abandons (70_reset_and_hazards.md R210). -/

namespace Sys2Proof.Machine

/-- The state with further draws behind those at hand. -/
def moreDraws (vs : List Draw) (s : State) : State := { s with draws := s.draws ++ vs }

/-! ## Further draws change nothing -/

theorem moreDraws_eq (vs : List Draw) (s : State) : moreDraws vs s = ports (s.draws ++ vs) s.events s := rfl

theorem play_more (c : Cfg) (vs : List Draw) (es : List Event) : ∀ {ds ev p}, play c es ds ev = some p →
    play c es (ds ++ vs) ev = some (p.1 ++ vs, p.2) := by
  induction es with
  | nil =>
    intro ds ev p h
    simp only [play, Option.some.injEq] at h
    subst h
    rfl
  | cons e es ih =>
    intro ds ev p h
    cases he : e.lossy
    · simp only [play, he, Bool.false_eq_true, if_false] at h ⊢
      exact ih h
    · cases ds with
      | nil => simp [play, he] at h
      | cons u us =>
        simp only [play, he, if_true] at h
        simp only [play, he, if_true, List.cons_append]
        exact ih h

/-- What a command word can do with the draws: it follows a plan, or it is an ARQ.RXACK that takes one draw. -/
theorem runWord_plan (w : Word) (s : State) :
    (∃ es core, es.length ≤ (es.filter Event.lossy).length + 1 ∧ ∀ ds ev,
      runWord w (ports ds ev s) = completing ((play s.cfg es ds ev).map fun p => ports p.1 p.2 core)) ∨
    (∃ core : Draw → State, ∀ ds ev, runWord w (ports ds ev s) =
      match ds with
      | [] => .fault .drawStall
      | u :: us => .next (ports us ev (core u))) := by
  unfold runWord
  cases decode w with
  | error e => exact .inl ⟨[], illegal s, by simp, fun ds ev => rfl⟩
  | ok i =>
    by_cases h : (∃ x m, i = .arqRxack x m) ∧ s.fsm = .transmitting
    · obtain ⟨⟨x, m, rfl⟩, hs⟩ := h
      exact .inr (exec_rxack x m s hs)
    · obtain ⟨es, core, he⟩ := exec_plan i s h
      exact .inl ⟨es, core, he⟩

/-- A command word that completes does the same with further draws, and leaves these. -/
theorem runWord_more (vs : List Draw) (w : Word) (s t : State) (h : runWord w s = .next t) :
    runWord w (moreDraws vs s) = .next (moreDraws vs t) := by
  have hs : s = ports s.draws s.events s := rfl
  rw [moreDraws_eq]
  rcases runWord_plan w s with ⟨es, core, _, he⟩ | ⟨core, he⟩
  · rw [hs, he, completing_next, Option.map_eq_some_iff] at h
    obtain ⟨p, hp, rfl⟩ := h
    rw [he, play_more s.cfg vs es hp]
    rfl
  · rw [hs, he] at h
    rw [he]
    cases hd : s.draws with
    | nil => simp [hd] at h
    | cons u us =>
      simp only [hd, Host.Outcome.next.injEq] at h
      subst h
      rfl

/-! ## A command that a hardware reset abandons -/

/-- The events presented are some first events, and at most `n` of them depend on a draw. -/
theorem presentable_spec (es : List Event) : ∀ n, presentable n es <+: es ∧
    ((presentable n es).filter Event.lossy).length ≤ n := by
  induction es with
  | nil => intro n; simp [presentable]
  | cons e es ih =>
    intro n
    unfold presentable
    split
    · rename_i he
      cases n with
      | zero => simp
      | succ n =>
        obtain ⟨h1, h2⟩ := ih n
        exact ⟨(List.cons_prefix_cons).2 ⟨rfl, h1⟩, by simp [he, h2]⟩
    · rename_i he
      obtain ⟨h1, h2⟩ := ih n
      exact ⟨(List.cons_prefix_cons).2 ⟨rfl, h1⟩, by simpa [he] using h2⟩

theorem presentable_length_le (es : List Event) : ∀ n, (presentable n es).length ≤
    n + (es.length - (es.filter Event.lossy).length) := by
  induction es with
  | nil => intro n; simp [presentable]
  | cons e es ih =>
    intro n
    have hf := List.length_filter_le Event.lossy es
    cases he : e.lossy
    · have := ih n
      simp only [presentable, he, Bool.false_eq_true, if_false, List.length_cons, List.filter_cons_of_neg, not_false_iff]
      omega
    · cases n with
      | zero => simp [presentable, he]
      | succ n =>
        have := ih n
        simp only [presentable, he, if_true, List.length_cons, List.filter_cons_of_pos]
        omega

/-- The events presented depend on the draws taken only. -/
theorem play_presentable (c : Cfg) (vs vs' : List Draw) (es : List Event) : ∀ {ds ev ev' p p' out out'} {n : Nat},
    n ≤ ds.length → play c es (ds ++ vs) ev = some p → play c es (ds ++ vs') ev' = some p' →
    p.2 = ev ++ out → p'.2 = ev' ++ out' → presentable n out = presentable n out' := by
  induction es with
  | nil =>
    intro ds ev ev' p p' out out' n _ h h' ho ho'
    simp only [play, Option.some.injEq] at h h'
    subst h h'
    have hz : ∀ {a b : List Event}, a = a ++ b → b = [] := fun h => by simpa using h
    rw [hz ho, hz ho']
  | cons e es ih =>
    intro ds ev ev' p p' out out' n hn h h' ho ho'
    have step : ∀ {c : Cfg} {ds : List Draw} {ev q out e}, play c es ds (ev ++ [e]) = some q → q.2 = ev ++ out →
        ∃ o, out = e :: o ∧ q.2 = (ev ++ [e]) ++ o := by
      intro c ds ev q out e hq hqo
      obtain ⟨o, ho, _⟩ := play_some (ds' := q.1) (ev' := q.2) es hq
      refine ⟨o, ?_, ho⟩
      rw [ho, List.append_assoc] at hqo
      exact (List.append_cancel_left hqo).symm
    cases he : e.lossy with
    | false =>
      simp only [play, he, Bool.false_eq_true, if_false] at h h'
      obtain ⟨o, rfl, h2⟩ := step h ho
      obtain ⟨o', rfl, h2'⟩ := step h' ho'
      simp only [presentable, he, Bool.false_eq_true, if_false]
      rw [ih hn h h' h2 h2']
    | true =>
      have hl : ∀ u, (e.decided c u).lossy = true := fun u => by cases e <;> simp_all [Event.decided, Event.lossy]
      cases n with
      | zero =>
        have hz : ∀ ds ev q o, play c (e :: es) ds ev = some q → q.2 = ev ++ o → presentable 0 o = [] := by
          intro ds ev q o hq hqo
          cases ds with
          | nil => simp [play, he] at hq
          | cons u us =>
            simp only [play, he, if_true] at hq
            obtain ⟨r, rfl, _⟩ := step hq hqo
            simp [presentable, hl]
        rw [hz _ _ _ _ h ho, hz _ _ _ _ h' ho']
      | succ n =>
        cases ds with
        | nil => simp at hn
        | cons u us =>
          simp only [play, he, if_true, List.cons_append] at h h'
          obtain ⟨o, rfl, h2⟩ := step h ho
          obtain ⟨o', rfl, h2'⟩ := step h' ho'
          simp only [presentable, hl, if_true]
          rw [ih (by simpa using hn) h h' h2 h2']

/-- Two runs of a command with different further draws take equally many draws, and present the same events as long as only
draws at hand are taken. -/
theorem runWord_presented {w : Word} {s t t' : State} {vs vs' : List Draw} {n : Nat} (hn : n ≤ s.draws.length)
    (h : runWord w (moreDraws vs s) = .next t) (h' : runWord w (moreDraws vs' s) = .next t') :
    t.draws.length + vs'.length = t'.draws.length + vs.length ∧
    presentable n (t.events.drop s.events.length) = presentable n (t'.events.drop s.events.length) := by
  rw [moreDraws_eq] at h h'
  rcases runWord_plan w s with ⟨es, core, _, he⟩ | ⟨core, he⟩
  · rw [he, completing_next, Option.map_eq_some_iff] at h h'
    obtain ⟨p, hp, rfl⟩ := h
    obtain ⟨p', hp', rfl⟩ := h'
    obtain ⟨out, h1, h2, h3, h4, h5⟩ := play_some (ds' := p.1) (ev' := p.2) es hp
    obtain ⟨out', h1', h2', h3', h4', h5'⟩ := play_some (ds' := p'.1) (ev' := p'.2) es hp'
    constructor
    · show p.1.length + _ = p'.1.length + _
      rw [h4, h4']
      simp only [List.length_drop, List.length_append] at h5 h5' ⊢
      omega
    · show presentable n (p.2.drop _) = presentable n (p'.2.drop _)
      rw [h1, h1', List.drop_left, List.drop_left]
      exact play_presentable s.cfg vs vs' es hn hp hp' h1 h1'
  · rw [he] at h h'
    cases hd : s.draws ++ vs with
    | nil => simp [hd] at h
    | cons u us =>
      cases hd' : s.draws ++ vs' with
      | nil => simp [hd'] at h'
      | cons u' us' =>
        simp only [hd, Host.Outcome.next.injEq] at h
        simp only [hd', Host.Outcome.next.injEq] at h'
        subst h h'
        have l := congrArg List.length hd
        have l' := congrArg List.length hd'
        simp only [List.length_append, List.length_cons] at l l'
        exact ⟨by show us.length + _ = us'.length + _; omega, by
          show presentable n (s.events.drop _) = presentable n (s.events.drop _); rfl⟩

/-- A command that waits would take more draws than there are; the events it gives are no more than the draws it takes and
one ACCEPT. -/
theorem runWord_stalled {w : Word} {s t : State} {vs : List Draw} (h : runWord w s = .fault .drawStall)
    (ht : runWord w (moreDraws vs s) = .next t) : t.draws.length < vs.length ∧
    ∀ n, (presentable n (t.events.drop s.events.length)).length ≤ n + 1 := by
  have hs : s = ports s.draws s.events s := rfl
  rw [moreDraws_eq] at ht
  rcases runWord_plan w s with ⟨es, core, hl, he⟩ | ⟨core, he⟩
  · rw [hs, he] at h
    rw [he, completing_next, Option.map_eq_some_iff] at ht
    obtain ⟨p, hp, rfl⟩ := ht
    obtain ⟨out, h1, h2, h3, h4, h5⟩ := play_some (ds' := p.1) (ev' := p.2) es hp
    have hn : ¬(es.filter Event.lossy).length ≤ s.draws.length := by
      intro hle
      have := play_isSome s.cfg es s.draws s.events
      cases hq : play s.cfg es s.draws s.events with
      | none => simp [hq] at this; omega
      | some q => simp [hq, completing] at h
    constructor
    · show p.1.length < _
      rw [h4]
      simp only [List.length_drop, List.length_append] at h5 ⊢
      omega
    · intro n
      show (presentable n (p.2.drop _)).length ≤ _
      rw [h1, List.drop_left]
      have := presentable_length_le out n
      omega
  · rw [hs, he] at h
    rw [he] at ht
    cases hd : s.draws with
    | cons u us => simp [hd] at h
    | nil =>
      cases vs with
      | nil => simp [hd] at ht
      | cons v vs =>
        simp only [hd, List.nil_append, Host.Outcome.next.injEq] at ht
        subst ht
        exact ⟨by show vs.length < _; simp, fun n => by
          show (presentable n (s.events.drop _)).length ≤ _; simp [presentable]⟩

/-- An abandoned command leaves a hardware reset, some draws taken and some first events of its own. -/
theorem abandon_cases (w : Word) (nEvents nDraws : Nat) (s : State) : ∃ (k : Nat) (evs : List Event),
    abandon w nEvents nDraws s = hardReset { s with draws := s.draws.drop k, events := s.events ++ evs } ∧
    k ≤ nDraws ∧ k ≤ s.draws.length ∧ evs.length ≤ nEvents ∧ (evs.filter Event.lossy).length ≤ k ∧
    (∀ t, runWord w (answering s) = .next t → evs <+: t.events.drop s.events.length) := by
  unfold abandon
  cases hr : runWord w (answering s) with
  | next t =>
    obtain ⟨h1, h2⟩ := presentable_spec (t.events.drop s.events.length)
      (min nDraws (min ((answering s).draws.length - t.draws.length) s.draws.length))
    refine ⟨_, _, rfl, by omega, by omega, List.length_take_le _ _, ?_, ?_⟩
    · exact (((List.take_sublist _ _).filter _).length_le).trans h2
    · intro t' ht
      simp only [Host.Outcome.next.injEq] at ht
      subst ht
      exact (List.take_prefix _ _).trans h1
  | fault f => exact ⟨0, [], by simp, by omega, by omega, by simp, by simp, fun t ht => by cases ht⟩
  | refused r => exact ⟨0, [], by simp, by omega, by omega, by simp, by simp, fun t ht => by cases ht⟩

/-- A command that completes is not abandoned. -/
theorem runCommand_next {w : Word} {s t : State} (h : runWord w s = .next t) : runCommand w s = .next t := by
  simp [runCommand, abandonIfStalled, h]

/-- A waiting command stays waiting unless a hardware reset is next. -/
theorem runCommand_of_no_reset {w : Word} {s : State} (h : s.inputs.head? ≠ some .hardReset) :
    runCommand w s = runWord w s := by
  unfold runCommand abandonIfStalled nextInput
  cases runWord w s with
  | next t => rfl
  | refused r => rfl
  | fault f =>
    cases f
    cases hi : s.inputs with
    | nil => rfl
    | cons i rest => cases i <;> simp_all

end Sys2Proof.Machine
end

