-- ==== Sys2Proof/Tests/Slice0.lean ====
section
/-! SUPPORT. Tests of the model: well-formedness, decoding of words written out from 30_encoding.md R55, one or two steps of
each command from the examples of its rule, and for each statement of Obligations.lean a state and operands that meet its
hypotheses. -/

open Sys2Proof Sys2Proof.Machine

namespace Sys2Proof.Tests

/-! ## Well-formedness (R56, R60) -/

theorem test_wellFormed_refuses_register_0x12 : Instr.wellFormed (.regRd 0x12#8) = false := by decide

theorem test_wellFormed_refuses_register_0xFF : Instr.wellFormed (.regRd 0xFF#8) = false := by decide

theorem test_wellFormed_accepts_register_0x11 : Instr.wellFormed (.regRd 0x11#8) = true := by decide

/-! ## Decoding: the words are written field by field, OPC SEL OPD, from the table of R55 -/

theorem test_decode_nop : decode (0b00000000#8 ++ 0b00000000#8 ++ 0b0000000000000000#16) = .ok .nop := by decide
theorem test_decode_fecEnc : decode (0b00010000#8 ++ 0b00000000#8 ++ (0b0000000000000#13 ++ 0b110#3)) = .ok (.fecEnc 0b110#3) := by decide
theorem test_decode_fecSyn : decode (0b00010001#8 ++ 0b00000000#8 ++ (0b0000000000#10 ++ 0b100011#6)) = .ok (.fecSyn 0b100011#6) := by decide
theorem test_decode_fecCor : decode (0b00010010#8 ++ 0b00000000#8 ++ (0b0000000000#10 ++ 0b011111#6)) = .ok (.fecCor 0b011111#6) := by decide
theorem test_decode_fecDec : decode (0b00010011#8 ++ 0b00000000#8 ++ (0b0000000000#10 ++ 0b101110#6)) = .ok (.fecDec 0b101110#6) := by decide
theorem test_decode_qEnq : decode (0b00100000#8 ++ (0b0000000#7 ++ 0b1#1) ++ (0b00000000#8 ++ 0b10000101#8)) = .ok (.qEnq .rxq 0x85#8) := by decide
theorem test_decode_qDeq : decode (0b00100001#8 ++ (0b0000000#7 ++ 0b0#1) ++ 0b0000000000000000#16) = .ok (.qDeq .txq) := by decide
theorem test_decode_qFront : decode (0b00100010#8 ++ (0b0000000#7 ++ 0b1#1) ++ 0b0000000000000000#16) = .ok (.qFront .rxq) := by decide
theorem test_decode_qRear : decode (0b00100011#8 ++ (0b0000000#7 ++ 0b0#1) ++ 0b0000000000000000#16) = .ok (.qRear .txq) := by decide
theorem test_decode_qClear : decode (0b00100100#8 ++ (0b0000000#7 ++ 0b1#1) ++ 0b0000000000000000#16) = .ok (.qClear .rxq) := by decide
theorem test_decode_qSize : decode (0b00100101#8 ++ (0b0000000#7 ++ 0b0#1) ++ 0b0000000000000000#16) = .ok (.qSize .txq) := by decide
theorem test_decode_frmClass : decode (0b00110000#8 ++ 0b00000000#8 ++ 0b1000000000010001#16) = .ok (.frmClass 0x8011#16) := by decide
theorem test_decode_arqCtrl : decode (0b01000000#8 ++ 0b00000000#8 ++ (0b00000010#8 ++ 0b01000111#8)) = .ok (.arqCtrl 0x02#8 0x47#8) := by decide
theorem test_decode_arqRxdata : decode (0b01000001#8 ++ 0b00000000#8 ++ (0b00000000#8 ++ 0b11000001#8)) = .ok (.arqRxdata 0xC1#8) := by decide
theorem test_decode_arqRxack : decode (0b01000010#8 ++ 0b00000000#8 ++ (0b10000001#8 ++ 0b00000110#8)) = .ok (.arqRxack 0x81#8 0x06#8) := by decide
theorem test_decode_arqTick : decode (0b01000011#8 ++ 0b00000000#8 ++ 0b0000000000000000#16) = .ok .arqTick := by decide
theorem test_decode_arqEom : decode (0b01000100#8 ++ 0b00000000#8 ++ 0b0000000000000000#16) = .ok .arqEom := by decide
theorem test_decode_arqDisc : decode (0b01000101#8 ++ 0b00000000#8 ++ 0b0000000000000000#16) = .ok .arqDisc := by decide
theorem test_decode_regRd : decode (0b01010000#8 ++ 0b00010001#8 ++ 0b0000000000000000#16) = .ok (.regRd 0x11#8) := by decide
theorem test_decode_regClrerr : decode (0b01010001#8 ++ 0b00000000#8 ++ (0b00000000000#11 ++ 0b10010#5)) = .ok (.regClrerr 0b10010#5) := by decide

/-- R56: one reserved bit set, in OPD next to the operand and in SEL, rejects the word by name. -/
theorem test_decode_reserved_bits :
    decode 0x10000008#32 = .error (.reservedField 0x10#8) ∧ decode 0x10010000#32 = .error (.reservedField 0x10#8) ∧
    decode 0x20020005#32 = .error (.reservedField 0x20#8) ∧ decode 0x20000105#32 = .error (.reservedField 0x20#8) ∧
    decode 0x43000001#32 = .error (.reservedField 0x43#8) ∧ decode 0x50000001#32 = .error (.reservedField 0x50#8) ∧
    decode 0x51000020#32 = .error (.reservedField 0x51#8) ∧ decode 0x41000100#32 = .error (.reservedField 0x41#8) := by
  decide

/-- R57: the ends of the undefined ranges. -/
theorem test_decode_undefined_opcodes :
    ([0x01#8, 0x0F#8, 0x14#8, 0x1F#8, 0x26#8, 0x2F#8, 0x31#8, 0x3F#8, 0x46#8, 0x4F#8, 0x52#8, 0xFF#8].all fun o =>
      decode (o ++ 0x000000#24) == .error (.undefinedOpcode o)) = true := by decide

/-- The host's two entries (bit 0 the least significant). -/
theorem test_decodeTableWord : decodeTableWord 32 0x20010005 = some (.qEnq .rxq 5#8) ∧ decodeTableWord 32 0x01000000 = none := by
  decide

/-- A state's field after a step; the given default on a stop. -/
def after {α : Type} (d : α) (f : State → α) : Result → α
  | .next t => f t
  | .fault _ => d
  | .refused _ => d

theorem test_withFetchWord_runs_the_word :
    after (0#16, []) (fun t => (t.sentCount, t.rsps)) (step (State.reset.withFetchWord 32 0x40000247)) =
      (1#16, [⟨.ok, 0x010101#24⟩]) := by decide

/-- R67, R68: source text. -/
theorem test_assemble :
    assembleWords "ARQ.START ; begin\nQ.ENQ RXQ, 0x05\nREG.RD ERR\nARQ.ACK 1" =
      some [0x40000247#32, 0x20010005#32, 0x50010000#32, 0x42000106#32] := by decide

/-! ## Small states -/

/-- `n` draws that never drop, unless the threshold is 65536. -/
def quiet (n : Nat) : List Draw := List.replicate n 0xFFFF#16

/-- CFG-A of 95_test_vectors.md right after reset, with draws. -/
def fresh : State := { State.reset with draws := quiet 8 }

def gbnCfg : Cfg := { Cfg.resetCfg with mode := .gbn, w := 3, lenm := 4, base := 1 }
def srCfg : Cfg := { Cfg.resetCfg with mode := .sr, w := 3, lenm := 7 }
def slwCfg : Cfg := { Cfg.resetCfg with mode := .slw, w := 3, lenm := 7, d := 3 }

/-- The sender after `n ≤ W` first transmissions, with ACKBITs `marks`. -/
def sending (c : Cfg) (n : Nat) (marks : BitVec 16) : State :=
  { State.resetOf c with
    fsm := .transmitting
    nextSeq := seqOfUnit c n
    sentCount := BitVec.ofNat 16 n
    txq := { slot := (List.range n).map (seqOfUnit c) ++ List.replicate (c.w - n) 0#8
             front := 0#8
             rear := BitVec.ofNat 8 ((n + c.w - 1) % c.w)
             size := BitVec.ofNat 8 n }
    ackbits := marks
    draws := quiet 8 }

/-- The receiver in Idle with `xs` waiting in RXQ. -/
def waiting (c : Cfg) (xs : List Byte) : State :=
  { State.resetOf c with
    rxExp := 5#8
    rxq := { slot := xs ++ List.replicate (c.d - xs.length) 0#8
             front := 0#8
             rear := BitVec.ofNat 8 ((xs.length + c.d - 1) % c.d)
             size := BitVec.ofNat 8 xs.length }
    draws := quiet 8 }

/-- The last response of the next state. -/
def answer (r : Result) : Option Response := after none (fun t => t.rsps.getLast?) r

/-! ## One step of each command, from the examples of its rule -/

theorem test_nop : answer (exec .nop fresh) = some ⟨.ok, 0#24⟩ := by decide

/-- R107, R108, R109, R110. -/
theorem test_fecEnc : answer (exec (.fecEnc 0b100#3) fresh) = some ⟨.ok, 0x34#24⟩ := by decide
theorem test_fecSyn : answer (exec (.fecSyn 0b110101#6) fresh) = some ⟨.ok, 0b101#24⟩ := by decide
theorem test_fecCor_corrected : answer (exec (.fecCor 0b110101#6) fresh) = some ⟨.corrected, 0x000534#24⟩ := by decide
/-- V-FEC-3: the syndrome 0b111 is uncorrectable; 0b100010 flips bits 5 and 1 of the codeword 0. -/
theorem test_fecCor_uncorrectable : (answer (exec (.fecCor 0b100010#6) fresh), after 0#5 State.err (exec (.fecCor 0b100010#6) fresh)) =
    (some ⟨.uncorrectable, 0x000700#24⟩, 0b00001#5) := by decide
theorem test_fecDec : answer (exec (.fecDec 0b110100#6) fresh) = some ⟨.ok, 0b100#24⟩ := by decide

/-- R87 to R92. -/
theorem test_qEnq : (answer (exec (.qEnq .rxq 5#8) (waiting slwCfg [])), after [] (State.entriesOf · .rxq) (exec (.qEnq .rxq 5#8) (waiting slwCfg []))) =
    (some ⟨.ok, 1#24⟩, [5#8]) := by decide
theorem test_qEnq_full : answer (exec (.qEnq .rxq 9#8) (waiting slwCfg [1#8, 2#8, 3#8])) = some ⟨.qFull, 3#24⟩ := by decide
theorem test_qDeq : (answer (exec (.qDeq .rxq) (waiting slwCfg [5#8])), after 0#8 (fun t => t.rxq.front) (exec (.qDeq .rxq) (waiting slwCfg [5#8]))) =
    (some ⟨.ok, 0#24⟩, 1#8) := by decide
theorem test_qDeq_busy : answer (exec (.qDeq .txq) (sending gbnCfg 2 0#16)) = some ⟨.busy, 0#24⟩ := by decide
theorem test_qFront : answer (exec (.qFront .rxq) (waiting slwCfg [3#8, 4#8])) = some ⟨.ok, 3#24⟩ := by decide
theorem test_qRear : answer (exec (.qRear .rxq) (waiting slwCfg [3#8, 4#8])) = some ⟨.ok, 4#24⟩ := by decide
theorem test_qClear : after (0#8, 0#8, 0#8) (fun t => (t.rxq.front, t.rxq.rear, t.rxq.size)) (exec (.qClear .rxq) (waiting slwCfg [3#8])) =
    (0#8, 2#8, 0#8) := by decide
theorem test_qSize : answer (exec (.qSize .rxq) (waiting slwCfg [3#8, 4#8])) = some ⟨.ok, 2#24⟩ := by decide

/-- R120, DATALEN = 16. -/
theorem test_frmClass_data : answer (exec (.frmClass 17#16) fresh) = some ⟨.ok, 0x010001#24⟩ := by decide
theorem test_frmClass_ambiguous : answer (exec (.frmClass 34#16) fresh) = some ⟨.classAmbiguous, 0#24⟩ := by decide

/-- R140, R141, R155, R145, R150, R158, R160. -/
theorem test_arqStart : (answer (exec (.arqCtrl 0x02#8 0x47#8) fresh), after [] State.events (exec (.arqCtrl 0x02#8 0x47#8) fresh)) =
    (some ⟨.ok, 0x010101#24⟩, [.data 0#8 0#16 false]) := by decide
theorem test_arqCtrl_ignored : answer (exec (.arqCtrl 0x03#8 0x00#8) fresh) = some ⟨.ctrlIgnored, 0#24⟩ := by decide
theorem test_arqRxdata : (answer (exec (.arqRxdata 0#8) fresh), after [] State.events (exec (.arqRxdata 0#8) fresh)) =
    (some ⟨.ok, 0x000002#24⟩, [.accept 0#8, .ack 0#8 false]) := by decide
theorem test_arqRxdata_out_of_order : answer (exec (.arqRxdata 5#8) fresh) = some ⟨.rxOutOfOrder, 0#24⟩ := by decide
theorem test_arqRxack : answer (exec (.arqRxack 0#8 0x06#8) (sending Cfg.resetCfg 1 0#16)) = some ⟨.ok, 0x010000#24⟩ := by decide
theorem test_arqRxack_selective : after 0#16 State.ackbits (exec (.arqRxack 1#8 0x06#8) (sending srCfg 3 0#16)) = 0b010#16 := by decide
/-- R150: the sixth tick after ARQ.START and ARQ.ACK 0 fires the transmit timer. -/
theorem test_arqTick_sends : after (0#24, []) (fun t => ((t.rsps.getLast?.map Response.data).getD 0#24, t.events))
    (exec .arqTick { sending Cfg.resetCfg 1 0#16 with txTimer := 5#16, txq := (sending Cfg.resetCfg 1 0#16).txq.popped 1 }) =
    (0x010101#24, [.data 1#8 1#16 false]) := by decide
/-- R136, R139: the eleventh tick (110 > 100) retransmits the outstanding frame. -/
theorem test_arqTick_retransmits : after (1#16, []) (fun t => (t.ackTimer, t.events))
    (exec .arqTick { sending Cfg.resetCfg 1 0#16 with ackTimer := 10#16 }) = (0#16, [.data 0#8 0#16 false]) := by decide
theorem test_arqEom : after ([], 9#8) (fun t => (t.events, t.rxq.size)) (exec .arqEom (waiting slwCfg [4#8, 5#8])) =
    ([.ack 4#8 false, .ack 5#8 false], 0#8) := by decide
theorem test_arqDisc : (answer (exec .arqDisc (sending Cfg.resetCfg 1 0#16)), after .transmitting State.fsm (exec .arqDisc (sending Cfg.resetCfg 1 0#16))) =
    (some ⟨.ok, 0#24⟩, .idle) := by decide

/-- R181, R182. -/
theorem test_regRd_status : answer (exec (.regRd 0#8) (sending Cfg.resetCfg 1 0#16)) = some ⟨.ok, 0x000001#24⟩ := by decide
theorem test_regRd_nextSeq : answer (exec (.regRd 2#8) (sending Cfg.resetCfg 1 0#16)) = some ⟨.ok, 0x000001#24⟩ := by decide
theorem test_regClrerr : answer (exec (.regClrerr 0b00001#5) { fresh with err := 0b00001#5 }) = some ⟨.ok, 0#24⟩ := by decide

/-- R9 e: a matrix that decodes every codeword but adds two codeword bits selects none, and is refused. -/
theorem test_code_refuses_a_matrix_that_does_not_select :
    { Code.standard with r1 := 0b100#3, r4 := 0b000#3, r6 := 0b101#3 }.valid = false ∧ Code.standard.valid = true := by decide

/-- R210: ARQ.START in SLW is abandoned after two of its three events; FSM is Idle again and no response is given. -/
theorem test_abandoned_command :
    after ([], [], .transmitting, 0) (fun t => (t.events, t.rsps, t.fsm, t.draws.length))
      (step { State.resetOf slwCfg with draws := quiet 8, inputs := [.abandoned 0x40000247#32 2 3] }) =
      ([.data 0#8 0#16 false, .data 1#8 1#16 false], [], .idle, 5) := by decide +kernel

/-- R210, R220: with one draw ARQ.START waits after its first event, and the hardware reset abandons it. -/
theorem test_reset_abandons_a_waiting_command :
    after ([], [], .transmitting, 9) (fun t => (t.events, t.rsps, t.fsm, t.inputs.length))
      (step { State.resetOf slwCfg with draws := quiet 1, inputs := [.command 0x40000247#32, .hardReset] }) =
      ([.data 0#8 0#16 false], [], .idle, 0) := by decide +kernel

/-- R63, R121 (DATALEN = 16): the begin-experiment signal, and an ACK frame. -/
theorem test_receivedCommands :
    receivedCommands Cfg.resetCfg [0x02#8, 0x47#8] = [.arqCtrl 0x02#8 0x47#8] ∧
    receivedCommands Cfg.resetCfg [0x02#8, 0x06#8] = [.arqRxack 0x02#8 0x06#8] := by decide

/-- R63 before R122 (log entry 20): with DATALEN = 1 two other bytes are ambiguous and dropped, the signal is not. -/
theorem test_receivedCommands_datalen_one :
    receivedCommands { Cfg.resetCfg with dataLen := 1 } [0x02#8, 0x47#8] = [.arqCtrl 0x02#8 0x47#8] ∧
    receivedCommands { Cfg.resetCfg with dataLen := 1 } [0x02#8, 0x06#8] = [] := by decide

/-! ## The invariant on a concrete state -/

/-- The fields of `Inv` as one computation. -/
def invCheck (s : State) : Bool :=
  s.cfg.valid && decide (s.txq.slot.length = s.cfg.w ∧ s.txq.size.toNat ≤ s.cfg.w ∧ s.txq.front.toNat < s.cfg.w ∧
    s.txq.rear.toNat < s.cfg.w ∧ s.txq.rear.toNat = (s.txq.front.toNat + s.txq.size.toNat + s.cfg.w - 1) % s.cfg.w) &&
  decide (s.rxq.slot.length = s.cfg.d ∧ s.rxq.size.toNat ≤ s.cfg.d ∧ s.rxq.front.toNat < s.cfg.d ∧
    s.rxq.rear.toNat < s.cfg.d ∧ s.rxq.rear.toNat = (s.rxq.front.toNat + s.rxq.size.toNat + s.cfg.d - 1) % s.cfg.d) &&
  decide (s.sentCount.toNat ≤ s.cfg.m) && decide (s.nextSeq = seqOfUnit s.cfg s.sentCount.toNat) &&
  decide (s.cfg.base ≤ s.rxExp.toNat ∧ s.rxExp.toNat ≤ s.cfg.base + s.cfg.lenm - 1) &&
  decide (s.fsm = .transmitting → s.txq.size.toNat ≤ s.sentCount.toNat) &&
  decide (s.fsm = .transmitting → ∀ j, j < s.txq.size.toNat → s.txq.entry s.cfg.w j = seqOfUnit s.cfg (unitAt s j)) &&
  ((List.range 16).all fun i => !ackBit s i || (decide (s.fsm = .transmitting) &&
    decide (s.cfg.mode = .sr ∨ s.cfg.mode = .slw) &&
    (List.range s.txq.size.toNat).any fun j => decide (s.txq.entryIndex s.cfg.w j = i))) &&
  decide (s.txq.size ≠ 0#8 → ackBit s s.txq.front.toNat = false) &&
  decide (s.fsm = .transmitting → s.txq.size = 0#8 → s.ackTimer = 0#16) &&
  decide (s.fsm = .transmitting → ¬(s.sentCount.toNat = s.cfg.m ∧ s.txq.size = 0#8)) &&
  decide (s.fsm = .idle → s.ackTimer = 0#16 ∧ s.txTimer = 0#16) &&
  !fires s.cfg s.ackTimer s.cfg.ackTimeout && !fires s.cfg s.txTimer s.cfg.txTimeout

theorem inv_of_check {s : State} (h : invCheck s = true) : Inv s := by
  simp only [invCheck, Bool.and_eq_true, decide_eq_true_eq, Bool.not_eq_true'] at h
  obtain ⟨⟨⟨⟨⟨⟨⟨⟨⟨⟨⟨⟨⟨⟨h1, h2⟩, h3⟩, h4⟩, h5⟩, h6⟩, h7⟩, h8⟩, h9⟩, h10⟩, h11⟩, h12⟩, h13⟩, h14⟩, h15⟩ := h
  refine ⟨h1, ⟨⟨h2.1, h2.2.1, h2.2.2.1, h2.2.2.2.1, h2.2.2.2.2⟩, ⟨h3.1, h3.2.1, h3.2.2.1, h3.2.2.2.1, h3.2.2.2.2⟩⟩,
    h4, h5, h6, h7, h8, ?_, h10, h11, h12, h13, h14, h15⟩
  intro i hi
  have hlt : i < 16 := by
    by_contra hge
    simp [ackBit, BitVec.getLsbD_of_ge _ _ (Nat.le_of_not_lt hge)] at hi
  have := List.all_eq_true.1 h9 i (List.mem_range.2 hlt)
  simp only [hi, Bool.not_true, Bool.false_or, Bool.and_eq_true, decide_eq_true_eq, List.any_eq_true, List.mem_range] at this
  obtain ⟨⟨ha, hb⟩, j, hj, hk⟩ := this
  exact ⟨ha, hb, j, hj, hk⟩

/-! ## Witnesses: a state and operands that meet the hypotheses of each statement -/

theorem witness_EncodeOfDecode : decode 0x20010005#32 = .ok (.qEnq .rxq 5#8) := by decide

theorem witness_DecodeFollowsTheOpcodeTable :
    decode 0x50FF0000#32 = .ok (.regRd 0xFF#8) ∧
    (⟨"Q.ENQ", 0x20000000#32, 0xFFFEFF00#32⟩ : OpcodeRow) ∈ opcodeRows ∧
    (⟨"Q.ENQ", 0x20000000#32, 0xFFFEFF00#32⟩ : OpcodeRow).fits 0x200100FF#32 = true := by decide

theorem witness_IllegalWordOnlySetsErr4AndResponds :
    State.reset.cfg.valid = true ∧ { State.reset with inputs := [.command 0x52000000#32] }.inputs = [.command 0x52000000#32] ∧
    (∀ row ∈ opcodeRows, row.fits 0x52000000#32 = false) ∧ (∀ row ∈ opcodeRows, row.fits 0x10000008#32 = false) ∧
    (opcField 0x50120000#32 = 0x50#8 ∧ 0x11#8 < selField 0x50120000#32) := by decide

theorem witness_StepRunsTheDecodedCommand :
    State.reset.cfg.valid = true ∧ { State.reset with inputs := [.command 0#32, .hardReset] }.inputs = [.command 0#32, .hardReset] ∧
    decode 0#32 = .ok .nop ∧
    ({ State.reset with inputs := [.command 0#32, .command 0#32] }.inputs = [.command 0#32, .command 0#32] ∧
      [Input.command 0#32].head? ≠ some .hardReset) ∧ ∃ t, exec .nop State.reset = .next t :=
  ⟨by decide, by decide, by decide, by decide, _, rfl⟩

theorem witness_StepsThatRunNoCommand :
    (State.reset.cfg.valid = true ∧ State.reset.inputs = []) ∧
    { State.reset with cfg := { Cfg.resetCfg with lenm := 1 } }.cfg.valid = false ∧
    { State.reset with inputs := [.hardReset] }.inputs = [.hardReset] ∧
    ({ State.reset with draws := [], inputs := [.abandoned 0x40000247#32 1 1] }.inputs = [.abandoned 0x40000247#32 1 1] ∧
      ∃ u, runWord 0x40000247#32 { State.reset with inputs := [], draws := [] ++ quiet 1 } = .next u) ∧
    ({ State.reset with inputs := [.command 0x40000247#32, .hardReset] }.inputs = [.command 0x40000247#32, .hardReset] ∧
      runWord 0x40000247#32 { State.reset with inputs := [.hardReset] } = .fault .drawStall ∧
      ∃ u, runWord 0x40000247#32 { State.reset with inputs := [], draws := State.reset.draws ++ quiet 1 } = .next u) :=
  ⟨by decide, by decide, by decide, ⟨by decide, _, rfl⟩, by decide, rfl, _, rfl⟩

theorem witness_HardwareResetState :
    (sending srCfg 3 0b010#16).cfg.valid = true ∧
    { sending srCfg 3 0b010#16 with inputs := [.hardReset] }.inputs = [.hardReset] ∧
    { sending srCfg 3 0b010#16 with inputs := [.abandoned 0x43000000#32 0 0] }.inputs = [.abandoned 0x43000000#32 0 0] := by
  decide

theorem witness_EveryCommandCompletesWithOneResponse : fresh.cfg.valid = true ∧ 256 ≤ { fresh with draws := quiet 256 }.draws.length := ⟨by decide, (List.length_replicate (n := 256) (a := 0xFFFF#16)).ge⟩

theorem witness_OnlyDrawingCommandsStall :
    exec (.arqCtrl 0x02#8 0x47#8) State.reset = .fault .drawStall ∧
    exec (.arqRxdata 0#8) State.reset = .fault .drawStall ∧
    exec (.arqRxack 0#8 0x06#8) { sending srCfg 3 0#16 with draws := [] } = .fault .drawStall ∧
    exec .arqTick { sending srCfg 3 0#16 with ackTimer := 10#16, draws := [] } = .fault .drawStall ∧
    exec .arqEom { waiting slwCfg [4#8] with draws := [] } = .fault .drawStall := ⟨rfl, rfl, rfl, rfl, rfl⟩

theorem witness_DrawsTakenDoNotDependOnTheirValues :
    (∃ t t', exec (.arqCtrl 0x02#8 0x47#8) { fresh with draws := [0#16, 1#16] } = .next t ∧
      exec (.arqCtrl 0x02#8 0x47#8) { fresh with draws := [9#16] } = .next t') ∧
    (∃ t t', exec (.arqRxack 0#8 0x06#8) { sending srCfg 3 0#16 with draws := [0#16] } = .next t ∧
      exec (.arqRxack 0#8 0x06#8) { sending srCfg 3 0#16 with draws := [7#16, 8#16] } = .next t') :=
  ⟨⟨_, _, rfl, rfl⟩, ⟨_, _, rfl, rfl⟩⟩

theorem witness_NopOnlyResponds : opcField 0x00000001#32 = 0x00#8 ∧ 0x00000001#32 ≠ 0x00000000#32 := by decide

theorem witness_RegReadAnswersTheRegister :
    fresh.cfg.valid = true ∧ 0x11#8 ≤ 0x11#8 ∧ 0x00#8 ≤ 0x11#8 ∧ 0x11#8 < 0x12#8 ∧ Inv (sending srCfg 2 0b010#16) ∧
    ¬(sending srCfg 2 0b010#16).txq.holds srCfg.w 2 :=
  ⟨by decide, by decide, by decide, by decide, inv_of_check (by decide), by unfold Queue.holds; decide⟩

theorem witness_ClrerrClearsTheMaskedBits :
    opcField 0x5100003F#32 = 0x51#8 ∧ 0x5100003F#32 &&& 0x00FFFFE0#32 ≠ 0#32 := by decide

theorem witness_FecSynAnswersTheSyndrome : Code.standard.valid = true := by decide

theorem witness_FecDecAppliesTheSelector : Code.standard.valid = true := by decide

theorem witness_FecCorDetectsAndCorrects :
    syn fresh.cfg.code 0b110100#6 = 0#3 ∧
    (fresh.cfg.valid = true ∧ (syn fresh.cfg.code 0b110101#6, (0 : Fin 6)) ∈ fresh.cfg.code.synTab) ∧
    (syn fresh.cfg.code 0b100010#6 ≠ 0#3 ∧ ∀ p : Fin 6, (syn fresh.cfg.code 0b100010#6, p) ∉ fresh.cfg.code.synTab) := by
  decide

theorem witness_ValidCodeCorrectsCoveredSingleErrors :
    Code.standard.valid = true ∧ (hColumn Code.standard 0, (0 : Fin 6)) ∈ Code.standard.synTab ∧
    (hColumn Code.standard 5, (5 : Fin 6)) ∈ Code.standard.synTab := by decide

theorem witness_EnqueueWritesTheNextSlot :
    (fresh.fsm = .idle ∧ fresh.txq.size.toNat ≠ fresh.cfg.w ∧ fresh.rxq.size.toNat ≠ fresh.cfg.d) ∧
    ((waiting slwCfg [1#8, 2#8, 3#8]).fsm = .idle ∧
      ((waiting slwCfg [1#8, 2#8, 3#8]).queue .rxq).size.toNat = capacity slwCfg .rxq) ∧
    (sending gbnCfg 2 0#16).fsm = .transmitting := by decide

theorem witness_DequeueDropsTheFrontEntry :
    ({ sending gbnCfg 2 0#16 with fsm := .idle }.fsm = .idle ∧ { sending gbnCfg 2 0#16 with fsm := .idle }.txq.size ≠ 0#8) ∧
    ((waiting slwCfg [4#8]).fsm = .idle ∧ (waiting slwCfg [4#8]).rxq.size ≠ 0#8) ∧
    (fresh.fsm = .idle ∧ (fresh.queue .txq).size = 0#8) ∧ (sending gbnCfg 2 0#16).fsm = .transmitting := by decide

theorem witness_FrontAndRearAnswerTheEndSlots :
    (((sending gbnCfg 3 0#16).queue .txq).size ≠ 0#8 ∧
      ((sending gbnCfg 3 0#16).queue .txq).slot[((sending gbnCfg 3 0#16).queue .txq).front.toNat]? = some 1#8 ∧
      ((sending gbnCfg 3 0#16).queue .txq).slot[((sending gbnCfg 3 0#16).queue .txq).rear.toNat]? = some 3#8) ∧
    (fresh.queue .rxq).size = 0#8 ∧
    (QueuesWf (sending gbnCfg 1 0#16) ∧ ((sending gbnCfg 1 0#16).queue .txq).size = 1#8) :=
  ⟨by decide, by decide, (inv_of_check (by decide)).queues, by decide⟩

theorem witness_ClearEmptiesTheQueue :
    (waiting slwCfg [4#8]).fsm = .idle ∧ (sending gbnCfg 2 0#16).fsm = .transmitting := by decide

/-- A full receiver window and a full sender window are well formed. -/
theorem witness_SizeAnswersTheCount : QueuesWf (waiting slwCfg [1#8, 2#8, 3#8]) ∧ QueuesWf (sending gbnCfg 3 0#16) :=
  ⟨⟨⟨by decide, by decide, by decide, by decide, by decide⟩, ⟨by decide, by decide, by decide, by decide, by decide⟩⟩,
    (inv_of_check (by decide)).queues⟩

theorem witness_BusyGuard : (sending gbnCfg 2 0#16).fsm = .transmitting := by decide

/-- An empty, a partly filled and a full queue. -/
theorem witness_QueuesAreBoundedFifos :
    ((waiting slwCfg []).cfg.valid = true ∧ QueuesWf (waiting slwCfg []) ∧ (waiting slwCfg []).fsm = .idle ∧
      (waiting slwCfg []).entriesOf .rxq = []) ∧
    (QueuesWf (waiting slwCfg [1#8, 2#8]) ∧ (waiting slwCfg [1#8, 2#8]).entriesOf .rxq = 1#8 :: [2#8] ∧
      (waiting slwCfg [1#8, 2#8]).entriesOf .rxq = [1#8] ++ [2#8] ∧
      ((waiting slwCfg [1#8, 2#8]).entriesOf .rxq).length < capacity slwCfg .rxq) ∧
    (QueuesWf (waiting slwCfg [1#8, 2#8, 3#8]) ∧
      ((waiting slwCfg [1#8, 2#8, 3#8]).entriesOf .rxq).length = capacity slwCfg .rxq) :=
  ⟨⟨by decide, ⟨⟨by decide, by decide, by decide, by decide, by decide⟩, ⟨by decide, by decide, by decide, by decide, by decide⟩⟩,
      by decide, by decide⟩,
    ⟨⟨⟨by decide, by decide, by decide, by decide, by decide⟩, ⟨by decide, by decide, by decide, by decide, by decide⟩⟩,
      by decide, by decide, by decide⟩,
    ⟨⟨⟨by decide, by decide, by decide, by decide, by decide⟩, ⟨by decide, by decide, by decide, by decide, by decide⟩⟩,
      by decide⟩⟩

/-- DATALEN = 16: lengths at the ends of the range, and where the clauses meet. -/
theorem witness_FrmClassAppliesTheLengthRule :
    (0 < (34#16).toNat ∧ (34#16).toNat % (fresh.cfg.dataLen + 1) = 0 ∧ (34#16).toNat % 2 = 0) ∧
    (0 < (65535#16).toNat ∧ (65535#16).toNat % (fresh.cfg.dataLen + 1) = 0 ∧ (65535#16).toNat % 2 ≠ 0) ∧
    (0 < (2#16).toNat ∧ (2#16).toNat % (fresh.cfg.dataLen + 1) ≠ 0 ∧ (2#16).toNat % 2 = 0) ∧
    ((0#16).toNat = 0 ∧ ((1#16).toNat % (fresh.cfg.dataLen + 1) ≠ 0 ∧ (1#16).toNat % 2 ≠ 0)) := by decide

theorem witness_AmbiguousLengthsByParityOfDatalen :
    ({ Cfg.resetCfg with dataLen := 1 }.dataLen % 2 = 1 ∧ 0 < 2 ∧ ({ Cfg.resetCfg with dataLen := 1 }.dataLen + 1) ∣ 2) ∧
    Cfg.resetCfg.dataLen % 2 = 0 := by decide

/-- DATALEN = 2: one data frame, one ACK frame, and a buffer of two data frames or three ACK frames. -/
theorem witness_BufferBecomesOneCommandAFrame :
    ((∀ f ∈ [((7#8 : Byte), [1#8, 2#8])], f.2.length = { Cfg.resetCfg with dataLen := 2 }.dataLen) ∧
      (1 * ({ Cfg.resetCfg with dataLen := 2 }.dataLen + 1)) % 2 = 1) ∧
    ¬({ Cfg.resetCfg with dataLen := 2 }.dataLen + 1) ∣ 2 * [((7#8 : Byte), (6#8 : Byte))].length ∧
    (({ Cfg.resetCfg with dataLen := 2 }.dataLen + 1) ∣ (List.replicate 6 (0#8 : Byte)).length ∧
      2 ∣ (List.replicate 6 (0#8 : Byte)).length) ∧ [0x02#8, 0x46#8] ≠ [0x02#8, 0x47#8] := by decide

theorem witness_LossComparator : (0 : Nat) ≤ 65536 ∧ (65536 : Nat) ≤ 65536 := by decide

/-- The largest legal thresholds as well as CFG-A's. -/
theorem witness_TimerFiresFirstOnItsTick :
    Cfg.resetCfg.valid = true ∧ { Cfg.resetCfg with ackTimeout := 655340, txTimeout := 0 }.valid = true := by decide

theorem witness_OtherControlPairsAreIgnored :
    ¬(0x02#8 = 0x02#8 ∧ 0x46#8 = 0x47#8) ∧ ¬(0x03#8 = 0x02#8 ∧ 0x47#8 = 0x47#8) := by decide

/-- A full window to send, no unit at all, and one draw too few. -/
theorem witness_StartSignalFillsTheWindow :
    ((sending gbnCfg 2 0#16).cfg.valid = true ∧ (sending gbnCfg 2 0#16).txq.slot.length = gbnCfg.w ∧
      3 = min gbnCfg.w gbnCfg.m ∧ 3 ≤ (sending gbnCfg 2 0#16).draws.length) ∧
    ({ Cfg.resetCfg with m := 0 }.valid = true ∧ 0 = min { Cfg.resetCfg with m := 0 }.w { Cfg.resetCfg with m := 0 }.m) ∧
    { sending gbnCfg 2 0#16 with draws := quiet 2 }.draws.length < 3 := by decide

/-- Out of order; a window with room, at its depth less one, and full; and no draw. -/
theorem witness_DataFrameAcceptedInOrder :
    6#8 ≠ (waiting slwCfg [4#8]).rxExp ∧
    (QueuesWf (waiting slwCfg [4#8]) ∧ (waiting slwCfg [4#8]).cfg.valid = true ∧
      ((waiting slwCfg [4#8]).entriesOf .rxq).length + 1 < slwCfg.d) ∧
    (QueuesWf (waiting slwCfg [3#8, 4#8]) ∧ (waiting slwCfg [3#8, 4#8]).draws = 0xFFFF#16 :: quiet 7 ∧
      ((waiting slwCfg [3#8, 4#8]).entriesOf .rxq).length + 1 = slwCfg.d ∧
      (waiting slwCfg [3#8, 4#8]).entriesOf .rxq ++ [5#8] = 3#8 :: [4#8, 5#8]) ∧
    (QueuesWf (waiting slwCfg [2#8, 3#8, 4#8]) ∧ ((waiting slwCfg [2#8, 3#8, 4#8]).entriesOf .rxq).length = slwCfg.d ∧
      (waiting slwCfg [2#8, 3#8, 4#8]).entriesOf .rxq = 2#8 :: [3#8, 4#8]) ∧
    ({ waiting slwCfg [3#8, 4#8] with draws := [] }.draws = [] ∧
      slwCfg.d ≤ ({ waiting slwCfg [3#8, 4#8] with draws := [] }.entriesOf .rxq).length + 1) :=
  ⟨by decide,
    ⟨⟨⟨by decide, by decide, by decide, by decide, by decide⟩, ⟨by decide, by decide, by decide, by decide, by decide⟩⟩,
      by decide, by decide⟩,
    ⟨⟨⟨by decide, by decide, by decide, by decide, by decide⟩, ⟨by decide, by decide, by decide, by decide, by decide⟩⟩,
      rfl, by decide, by decide⟩,
    ⟨⟨⟨by decide, by decide, by decide, by decide, by decide⟩, ⟨by decide, by decide, by decide, by decide, by decide⟩⟩,
      by decide, by decide⟩,
    by decide⟩

theorem witness_DuplicateFrameIsNotAcknowledged :
    fresh.cfg.valid = true ∧ inSeqSpace fresh.cfg fresh.rxExp ∧ ∃ t, exec (.arqRxdata fresh.rxExp) fresh = .next t :=
  ⟨by decide, by unfold inSeqSpace; decide, _, rfl⟩

theorem witness_AckChecksInOrder :
    fresh.fsm = .idle ∧ ((sending srCfg 3 0#16).fsm = .transmitting ∧ { sending srCfg 3 0#16 with draws := [] }.draws = []) ∧
    ({ sending { srCfg with pAckIn := 1 } 3 0#16 with draws := [0#16] }.draws = 0#16 :: [] ∧ (0#16).toNat < { srCfg with pAckIn := 1 }.pAckIn) ∧
    ({ srCfg with pAckIn := 1 }.pAckIn ≤ (1#16).toNat ∧ 0x15#8 ≠ 0x06#8) := by decide

theorem witness_StopAndWaitAckTakesTheFrontEntry :
    Inv (sending Cfg.resetCfg 1 0#16) ∧ Cfg.resetCfg.mode = .sw ∧ (sending Cfg.resetCfg 1 0#16).fsm = .transmitting ∧
    (sending Cfg.resetCfg 1 0#16).draws = 0xFFFF#16 :: quiet 7 ∧ Cfg.resetCfg.pAckIn ≤ (0xFFFF#16).toNat ∧
    ((sending Cfg.resetCfg 1 0#16).entriesOf .txq).head? = some 0#8 ∧
    ((sending Cfg.resetCfg 1 0#16).entriesOf .txq).head? ≠ some 1#8 :=
  ⟨inv_of_check (by decide), rfl, rfl, rfl, by decide, by decide, by decide⟩

/-- Offsets 0 and 2 of three entries, and a number that is not outstanding. -/
theorem witness_GoBackNAckIsCumulative :
    Inv (sending gbnCfg 3 0#16) ∧ gbnCfg.mode = .gbn ∧ (sending gbnCfg 3 0#16).draws = 0xFFFF#16 :: quiet 7 ∧
    (0 < (sending gbnCfg 3 0#16).txq.size.toNat ∧ (sending gbnCfg 3 0#16).txq.entry gbnCfg.w 0 = 1#8) ∧
    (2 < (sending gbnCfg 3 0#16).txq.size.toNat ∧ (sending gbnCfg 3 0#16).txq.entry gbnCfg.w 2 = 3#8) ∧
    4#8 ∉ (sending gbnCfg 3 0#16).entriesOf .txq :=
  ⟨inv_of_check (by decide), rfl, rfl, by decide, by decide, by decide⟩

/-- The front entry with the one behind it already marked, in SR; a marked entry and an absent one, in SLW. -/
theorem witness_SelectiveAckMarksAndSlides :
    (Inv (sending srCfg 3 0b010#16) ∧ srCfg.mode = .sr ∧ (sending srCfg 3 0b010#16).draws = 0xFFFF#16 :: quiet 7 ∧
      0 < (sending srCfg 3 0b010#16).txq.size.toNat ∧ (sending srCfg 3 0b010#16).txq.entry srCfg.w 0 = 0#8 ∧
      ackBit (sending srCfg 3 0b010#16) ((sending srCfg 3 0b010#16).txq.entryIndex srCfg.w 0) = false ∧
      markedPrefix ((ackMarks (sending srCfg 3 0b010#16)).set 0 true) = 2) ∧
    (Inv (sending slwCfg 3 0b100#16) ∧ slwCfg.mode = .slw ∧ 2 < (sending slwCfg 3 0b100#16).txq.size.toNat ∧
      (sending slwCfg 3 0b100#16).txq.entry slwCfg.w 2 = 2#8 ∧
      ackBit (sending slwCfg 3 0b100#16) ((sending slwCfg 3 0b100#16).txq.entryIndex slwCfg.w 2) = true ∧
      3#8 ∉ (sending slwCfg 3 0b100#16).entriesOf .txq) :=
  ⟨⟨inv_of_check (by decide), rfl, rfl, by decide, by decide, by decide, by decide⟩,
    ⟨inv_of_check (by decide), rfl, by decide, by decide, by decide, by decide⟩⟩

/-- A tick on which both timers fire and a new frame is due: three frames; with two draws it cannot complete. -/
theorem witness_TickCountsThenFires :
    fresh.fsm = .idle ∧
    (Inv { sending gbnCfg 2 0#16 with ackTimer := 10#16, txTimer := 5#16 } ∧
      (tickFrames { sending gbnCfg 2 0#16 with ackTimer := 10#16, txTimer := 5#16 }).length = 3) ∧
    (Inv { sending gbnCfg 2 0#16 with ackTimer := 10#16, txTimer := 5#16, draws := quiet 2 } ∧
      { sending gbnCfg 2 0#16 with ackTimer := 10#16, txTimer := 5#16, draws := quiet 2 }.draws.length <
        (tickFrames { sending gbnCfg 2 0#16 with ackTimer := 10#16, txTimer := 5#16, draws := quiet 2 }).length) :=
  ⟨rfl, ⟨inv_of_check (by decide), by decide⟩, ⟨inv_of_check (by decide), by decide⟩⟩

theorem witness_RetransmitIsRewindAndResend :
    (Inv (sending gbnCfg 3 0#16) ∧ (sending gbnCfg 3 0#16).fsm = .transmitting ∧ gbnCfg.mode = .gbn ∧
      (sending gbnCfg 3 0#16).txq.size.toNat ≤ (sending gbnCfg 3 0#16).draws.length) ∧
    (Inv (sending Cfg.resetCfg 1 0#16) ∧ Cfg.resetCfg.mode = .sw) :=
  ⟨⟨inv_of_check (by decide), rfl, rfl, by decide⟩, inv_of_check (by decide), rfl⟩

theorem witness_RetransmitOnlyEmits :
    Inv (sending srCfg 3 0b010#16) ∧ (sending srCfg 3 0b010#16).fsm = .transmitting ∧
    (outstandingFrames (sending srCfg 3 0b010#16)).length = 2 ∧ 2 ≤ (sending srCfg 3 0b010#16).draws.length :=
  ⟨inv_of_check (by decide), rfl, by decide, by decide⟩

/-- A full window with exactly its draws, and one draw too few. -/
theorem witness_EomDrainsTheReceiverWindow :
    (slwCfg.valid = true ∧ QueuesWf { waiting slwCfg [2#8, 3#8, 4#8] with draws := quiet 3 } ∧
      { waiting slwCfg [2#8, 3#8, 4#8] with draws := quiet 3 }.rxq.size.toNat ≤ 3) ∧
    ({ waiting slwCfg [2#8, 3#8, 4#8] with draws := quiet 2 }.draws.length <
      { waiting slwCfg [2#8, 3#8, 4#8] with draws := quiet 2 }.rxq.size.toNat) :=
  ⟨⟨by decide, ⟨⟨by decide, by decide, by decide, by decide, by decide⟩, ⟨by decide, by decide, by decide, by decide, by decide⟩⟩,
    by decide⟩, by decide⟩

theorem witness_InvariantHoldsAfterReset : Cfg.resetCfg.valid = true ∧ gbnCfg.valid = true ∧ srCfg.valid = true ∧ slwCfg.valid = true := by
  decide

/-- A tick that retransmits and sends, as a step. -/
theorem witness_StepKeepsTheInvariant :
    Inv { sending gbnCfg 2 0#16 with ackTimer := 10#16, txTimer := 5#16, inputs := [.command 0x43000000#32] } ∧
    ∃ t, step { sending gbnCfg 2 0#16 with ackTimer := 10#16, txTimer := 5#16, inputs := [.command 0x43000000#32] } = .next t :=
  ⟨inv_of_check (by decide), _, rfl⟩

theorem witness_StepKeepsTheWindowBounds :
    Inv { waiting slwCfg [3#8, 4#8] with inputs := [.command 0x41000005#32] } ∧
    ReceiverWindowBelowDepth { waiting slwCfg [3#8, 4#8] with inputs := [.command 0x41000005#32] } ∧
    (∃ t, step { waiting slwCfg [3#8, 4#8] with inputs := [.command 0x41000005#32] } = .next t) ∧
    (∀ (w : Word) (rest : List Input) (v : Byte),
      { waiting slwCfg [3#8, 4#8] with inputs := [.command 0x41000005#32] }.inputs = .command w :: rest →
      decode w = .ok (.qEnq .rxq v) →
      { waiting slwCfg [3#8, 4#8] with inputs := [.command 0x41000005#32] }.fsm = .transmitting) := by
  refine ⟨inv_of_check (by decide), by unfold ReceiverWindowBelowDepth; decide, ⟨_, rfl⟩, ?_⟩
  intro w rest v h h'
  cases h
  rw [show decode 0x41000005#32 = .ok (.arqRxdata 5#8) from by decide] at h'
  cases h'

theorem witness_OutstandingSequenceNumbersAreDistinct :
    Inv (sending gbnCfg 3 0#16) ∧ (sending gbnCfg 3 0#16).fsm = .transmitting := ⟨inv_of_check (by decide), rfl⟩

/-- The same tick emits units 0, 1 and 2 of a sequence space of four. -/
theorem witness_DataEventsCarryTheirUnit :
    Inv { sending gbnCfg 2 0#16 with ackTimer := 10#16, txTimer := 5#16, inputs := [.command 0x43000000#32] } ∧
    ∃ t, step { sending gbnCfg 2 0#16 with ackTimer := 10#16, txTimer := 5#16, inputs := [.command 0x43000000#32] } = .next t ∧
      t.events = [] ++ [.data 1#8 0#16 false, .data 2#8 1#16 false, .data 3#8 2#16 false] :=
  ⟨inv_of_check (by decide), _, rfl, by decide⟩

/-- Two states that differ in the one slot that holds no entry. -/
theorem witness_FreeSlotsAreNeverRead :
    QueuesWf (sending gbnCfg 2 0#16) ∧
    SameButFreeSlots (sending gbnCfg 2 0#16)
      { sending gbnCfg 2 0#16 with txq := { (sending gbnCfg 2 0#16).txq with slot := [1#8, 2#8, 0xEE#8] } } ∧
    sending gbnCfg 2 0#16 ≠
      { sending gbnCfg 2 0#16 with txq := { (sending gbnCfg 2 0#16).txq with slot := [1#8, 2#8, 0xEE#8] } } :=
  ⟨(inv_of_check (by decide)).queues,
    ⟨by decide, ⟨by decide, by decide, by decide, by decide, by decide⟩, ⟨by decide, by decide, by decide, by decide, by decide⟩⟩,
    by decide⟩

theorem witness_ErrBitsAreStickyAndOwned :
    fresh.cfg.valid = true ∧ (∀ mask, Instr.qDeq .txq ≠ .regClrerr mask) ∧ ∃ t, exec (.qDeq .txq) fresh = .next t :=
  ⟨by decide, by decide, _, rfl⟩

theorem witness_OnlyNamedCommandsWriteTheArqRegisters :
    (∃ t, exec .arqTick (sending gbnCfg 2 0#16) = .next t) ∧ (∀ x m, Instr.arqTick ≠ .arqRxack x m) ∧
    (∃ t, exec (.arqCtrl 0x02#8 0x46#8) fresh = .next t) ∧ Instr.arqCtrl 0x02#8 0x46#8 ≠ .arqCtrl 0x02#8 0x47#8 :=
  ⟨⟨_, rfl⟩, (by intro x m h; cases h), ⟨_, rfl⟩, by decide⟩

theorem witness_ReadingCommandsAreIdempotent :
    Instr.wellFormed (.regRd 0x11#8) = true ∧ Instr.wellFormed (.qFront .txq) = true := by decide

end Sys2Proof.Tests
end

/-! Steps and valid codes (00_scope.md R3, R9): a step on a command word runs the command it decodes to, and what the
parts of R9 give about the block-code functions of 41_fec.md. -/

namespace Sys2Proof.Machine

/-! ## A step on a command word (00_scope.md R3, 20_memory.md R48) -/

/-- On a valid configuration the step takes the command word from the port and runs it. -/
theorem step_command {s : State} {w : Word} {rest : List Input} (hv : s.cfg.valid = true)
    (hi : s.inputs = .command w :: rest) : step s = runCommand w { s with inputs := rest } := by
  simp only [step, nextInput_cons hi, ifValid_valid hv]

theorem runWord_of_decode {w : Word} {i : Instr} (hd : decode w = .ok i) (s : State) : runWord w s = exec i s := by
  simp only [runWord, hd]

/-- Settles O10: the step is `runCommand` on the decoded word, and only a stalled command with a hardware reset next is
not simply `runWord`. -/
theorem stepRunsTheDecodedCommand : Obligations.StepRunsTheDecodedCommand := by
  intro s w rest i hv hi hd
  rw [step_command hv hi, ← runWord_of_decode hd]
  exact ⟨fun t => runCommand_next, fun hr => runCommand_of_no_reset hr⟩

/-! ## Rows scaled by a bit, and the syndrome is linear (41_fec.md R103, R106) -/

theorem parity_xor (a b : Codeword) : parity (a ^^^ b) = (parity a ^^ parity b) := by
  simp only [parity, BitVec.getLsbD_xor, Bool.xor_assoc, Bool.xor_left_comm]

theorem packSyndrome_xor : ∀ a₁ a₂ a₃ b₁ b₂ b₃ : Bool, packSyndrome (a₁ ^^ b₁) (a₂ ^^ b₂) (a₃ ^^ b₃) =
    packSyndrome a₁ a₂ a₃ ^^^ packSyndrome b₁ b₂ b₃ := by
  decide

theorem xor_and_row (a b h : Codeword) : (a ^^^ b) &&& h = (a &&& h) ^^^ (b &&& h) := by
  ext i
  simp [Bool.and_xor_distrib_right]

theorem syn_xor (k : Code) (a b : Codeword) : syn k (a ^^^ b) = syn k a ^^^ syn k b := by
  simp only [syn, xor_and_row, parity_xor, packSyndrome_xor]

theorem getLsbD_gf2Scale {n : Nat} (b : Bool) (row : BitVec n) (j : Nat) :
    (gf2Scale b row).getLsbD j = (b && row.getLsbD j) := by
  cases b <;> simp [gf2Scale]

theorem gf2Scale_zero {n : Nat} (b : Bool) : gf2Scale b 0#n = 0#n := by
  simp only [gf2Scale, ite_self]

theorem syn_zero (k : Code) : syn k 0#6 = 0#3 := by
  simp [syn, parity, packSyndrome]

theorem syn_gf2Scale (k : Code) (b : Bool) (g : Codeword) : syn k (gf2Scale b g) = gf2Scale b (syn k g) := by
  cases b
  · exact syn_zero k
  · rfl

/-- A single bit has its parity against a row of H in that row's own bit. -/
theorem parity_oneBit_and (h : Codeword) (p : Fin 6) : parity ((1#6 <<< p.val) &&& h) = h.getLsbD p.val := by
  fin_cases p <;> simp [parity]

/-- A single-bit error at `p` has column `p` of H as its syndrome (R9 d). -/
theorem syn_oneBit (k : Code) (p : Fin 6) : syn k (1#6 <<< p.val) = hColumn k p := by
  simp only [syn, hColumn, parity_oneBit_and]

/-! ## What R9 (c) and (d) give: codewords are clean, covered errors are found -/

/-- R9 (c), `G · Hᵗ = 0`. -/
theorem syn_enc {k : Code} (hk : k.valid = true) (m : Symbol) : syn k (enc k m) = 0#3 := by
  obtain ⟨⟨hg1, hg2, hg3⟩, -⟩ := k.valid_iff.1 hk
  simp only [enc, syn_xor, syn_gf2Scale, hg1, hg2, hg3, gf2Scale_zero, BitVec.xor_self]

/-- An entry of SYNTAB is the one its syndrome finds, as no syndrome stands there twice. -/
theorem synPosition_of_mem {k : Code} (hk : k.valid = true) {x : Syndrome} {p : Fin 6} (h : (x, p) ∈ k.synTab) :
    synPosition k x = some p := by
  obtain ⟨-, -, hnodup, -⟩ := k.valid_iff.1 hk
  obtain ⟨l₁, l₂, hl⟩ := List.append_of_mem h
  rw [hl, List.map_append, List.map_cons, List.nodup_middle, List.nodup_cons] at hnodup
  have hbefore : x ∉ l₁.map Prod.fst := fun hx => hnodup.1 (List.mem_append_left _ hx)
  refine List.lookup_eq_some_iff.2 ⟨l₁, l₂, hl, fun e he => bne_iff_ne.2 fun hxe => hbefore ?_⟩
  exact hxe ▸ List.mem_map_of_mem he

theorem cor_of_syn_zero {k : Code} {c : Codeword} (h : syn k c = 0#3) : cor k c = .clean c := by
  simp only [cor, h, if_true]

theorem cor_of_covered {k : Code} (hk : k.valid = true) {c : Codeword} {p : Fin 6} (h : (syn k c, p) ∈ k.synTab) :
    cor k c = .fixed (c ^^^ (1#6 <<< p.val)) p := by
  obtain ⟨-, htab, -⟩ := k.valid_iff.1 hk
  have hne : syn k c ≠ 0#3 := (htab _ h).1
  simp only [cor, hne, if_false, synPosition_of_mem hk h]

theorem cor_enc {k : Code} (hk : k.valid = true) (m : Symbol) : cor k (enc k m) = .clean (enc k m) :=
  cor_of_syn_zero (syn_enc hk m)

theorem cor_enc_oneBit {k : Code} (hk : k.valid = true) (m : Symbol) {p : Fin 6} (h : (hColumn k p, p) ∈ k.synTab) :
    cor k (enc k m ^^^ (1#6 <<< p.val)) = .fixed (enc k m) p := by
  have hsyn : syn k (enc k m ^^^ (1#6 <<< p.val)) = hColumn k p := by
    rw [syn_xor, syn_enc hk, syn_oneBit, BitVec.zero_xor]
  rw [cor_of_covered hk (hsyn ▸ h), BitVec.xor_assoc, BitVec.xor_self, BitVec.xor_zero]

/-! ## What R9 (e) gives: R selects -/

theorem dec_enc {k : Code} (hk : k.valid = true) (m : Symbol) : dec k (enc k m) = m := by
  obtain ⟨-, -, -, -, hdec⟩ := k.valid_iff.1 hk
  exact hdec m

/-- The codeword bits c1 to c6 by position (00_scope.md R13), in the order of the rows of R. -/
def bitPositions : List (Fin 6) := [5, 4, 3, 2, 1, 0]

theorem mem_bitPositions : ∀ q : Fin 6, q ∈ bitPositions := by decide

/-- The row of R for the codeword bit at a position. -/
def selectorRow (k : Code) : Fin 6 → Symbol
  | 5 => k.r1
  | 4 => k.r2
  | 3 => k.r3
  | 2 => k.r4
  | 1 => k.r5
  | 0 => k.r6

theorem map_selectorRow (k : Code) : bitPositions.map (selectorRow k) = [k.r1, k.r2, k.r3, k.r4, k.r5, k.r6] := rfl

/-- A decoded bit is the GF(2) sum of the codeword bits against its column of R (41_fec.md R105). -/
theorem getLsbD_dec (k : Code) (c : Codeword) (j : Nat) : (dec k c).getLsbD j =
    (bitPositions.map fun q => c.getLsbD q.val && (selectorRow k q).getLsbD j).foldl xor false := by
  simp [dec, BitVec.getLsbD_xor, getLsbD_gf2Scale, bitPositions, selectorRow]

/-- Every column of R has its one 1 at some position. -/
theorem selects_column {k : Code} (h : k.selects = true) (j : Fin 3) :
    ∃ p : Fin 6, ∀ q, (selectorRow k q).getLsbD j.val = decide (q = p) := by
  have hone := List.all_eq_true.1 h j.val (List.mem_range.2 j.isLt)
  rw [beq_iff_eq, ← map_selectorRow, List.filter_map, List.length_map] at hone
  obtain ⟨p, hp⟩ := List.length_eq_one_iff.1 hone
  refine ⟨p, fun q => Bool.eq_iff_iff.2 ?_⟩
  have hq : q ∈ bitPositions.filter ((fun r => r.getLsbD j.val) ∘ selectorRow k) ↔ q = p := by
    rw [hp, List.mem_singleton]
  simpa [mem_bitPositions] using hq

/-- A GF(2) sum that meets a single position is the bit there. -/
theorem foldl_xor_single (c : Codeword) (p : Fin 6) :
    (bitPositions.map fun q => c.getLsbD q.val && decide (q = p)).foldl xor false = c.getLsbD p.val := by
  fin_cases p <;> simp [bitPositions]

theorem dec_reads_one_bit {k : Code} (h : k.selects = true) (j : Fin 3) :
    ∃ p : Fin 6, ∀ c, (dec k c).getLsbD j.val = c.getLsbD p.val := by
  obtain ⟨p, hp⟩ := selects_column h j
  exact ⟨p, fun c => by simp only [getLsbD_dec, hp, foldl_xor_single]⟩

/-- Settles O24: covered errors and clean codewords by the linearity of the syndrome; the bit that decoding reads carries
the information bit because decoding undoes encoding. -/
theorem validCodeCorrectsCoveredSingleErrors : Obligations.ValidCodeCorrectsCoveredSingleErrors := by
  refine ⟨fun k m p hk hp => cor_enc_oneBit hk m hp, fun k m hk => ⟨cor_enc hk m, dec_enc hk m⟩, fun k j hk => ?_⟩
  obtain ⟨-, -, -, hsel, -⟩ := k.valid_iff.1 hk
  obtain ⟨p, hread⟩ := dec_reads_one_bit hsel j
  exact ⟨p, hread, fun m => by rw [← hread, dec_enc hk]⟩

end Sys2Proof.Machine

/-! What the queue primitives keep and change whatever the queue (10_state.md R27, R28; 40_queue.md R80 to R92): the queues
stay well formed, the entries are a list, and nothing but the queues, the ACKBITs, ERR and the response port is touched. -/

namespace Sys2Proof.Machine

/-! ## One bit of a register written (10_state.md R29) -/

theorem getLsbD_clear_bit {n : Nat} (a : BitVec n) (k i : Nat) :
    (a &&& ~~~(1#n <<< k)).getLsbD i = (a.getLsbD i && !decide (i = k)) := by
  by_cases hi : i < n
  · have hk : (!(!decide (i < k) && decide (i - k = 0))) = !decide (i = k) := by
      rw [Bool.eq_iff_iff]
      simp
      omega
    simp [hi, hk]
  · simp [BitVec.getLsbD_of_ge a i (by omega)]

theorem getLsbD_of_clear_bit {n : Nat} {a : BitVec n} {k i : Nat} (h : (a &&& ~~~(1#n <<< k)).getLsbD i = true) :
    a.getLsbD i = true ∧ i ≠ k := by
  rw [getLsbD_clear_bit, Bool.and_eq_true, Bool.not_eq_true', decide_eq_false_iff_not] at h
  exact h

theorem getLsbD_set_bit {n : Nat} {a : BitVec n} {k i : Nat} (h : (a ||| (1#n <<< k)).getLsbD i = true) :
    a.getLsbD i = true ∨ i = k := by
  rw [BitVec.getLsbD_or, Bool.or_eq_true] at h
  refine h.imp_right fun hk => ?_
  simp at hk
  omega

/-! ## The queue primitives for either queue -/

theorem capacity_bounds {c : Cfg} (hv : c.valid = true) (q : QSel) : 1 ≤ capacity c q ∧ capacity c q ≤ 255 := by
  cases q with
  | txq => exact ⟨(Cfg.valid_w hv).1, (Cfg.valid_w hv).2.trans (by omega)⟩
  | rxq => exact Cfg.valid_d hv

theorem qenq_ok {sel : QSel} {s : State} (h : (s.queue sel).size.toNat ≠ capacity s.cfg sel) (v : Byte) :
    qenq sel v s = (.ok, clearSlotAck sel ((s.queue sel).nextRear (capacity s.cfg sel))
      (s.setQueue sel ((s.queue sel).pushed (capacity s.cfg sel) v))) := if_neg h

theorem qdeq_ok {sel : QSel} {s : State} (h : (s.queue sel).size ≠ 0#8) :
    qdeq sel s = (.ok, (clearSlotAck sel (s.queue sel).front.toNat s).setQueue sel
      ((s.queue sel).popped (capacity s.cfg sel))) := if_neg h

theorem setQueue_queue_ne {q q' : QSel} (h : q' ≠ q) (s : State) (x : Queue) : (s.setQueue q x).queue q' = s.queue q' := by
  cases q <;> cases q'
  case txq.txq | rxq.rxq => exact absurd rfl h
  case txq.rxq | rxq.txq => rfl

@[simp] theorem respond_queue (st : Status) (d : BitVec 24) (s : State) (q : QSel) :
    (respond st d s).queue q = s.queue q := by cases q <;> rfl

@[simp] theorem setErr_queue (b : ErrBit) (s : State) (q : QSel) : (setErr b s).queue q = s.queue q := by cases q <;> rfl

theorem entriesOf_congr {s t : State} {q : QSel} (hc : t.cfg = s.cfg) (hq : t.queue q = s.queue q) :
    t.entriesOf q = s.entriesOf q := by
  simp only [State.entriesOf, hc, hq]

/-! ## Well-formed queues stay well formed (10_state.md R27) -/

theorem queuesWf_iff {s : State} : QueuesWf s ↔ ∀ q, (s.queue q).Wf (capacity s.cfg q) :=
  ⟨fun h q => by cases q; exacts [h.txq, h.rxq], fun h => ⟨h .txq, h .rxq⟩⟩

theorem QueuesWf.congr {s t : State} (h : QueuesWf s) (hc : t.cfg = s.cfg) (hq : ∀ q, t.queue q = s.queue q) :
    QueuesWf t :=
  queuesWf_iff.2 fun q => by rw [hc, hq]; exact queuesWf_iff.1 h q

theorem QueuesWf.setQueue {s : State} {sel : QSel} {x : Queue} (h : QueuesWf s) (hx : x.Wf (capacity s.cfg sel)) :
    QueuesWf (s.setQueue sel x) := by
  refine queuesWf_iff.2 fun q => ?_
  rw [setQueue_cfg]
  by_cases hq : q = sel
  · rw [hq, setQueue_queue]; exact hx
  · rw [setQueue_queue_ne hq]; exact queuesWf_iff.1 h q

theorem QueuesWf.room {s : State} (h : QueuesWf s) {sel : QSel} (hf : (s.queue sel).size.toNat ≠ capacity s.cfg sel) :
    (s.queue sel).size.toNat < capacity s.cfg sel :=
  Nat.lt_of_le_of_ne (queuesWf_iff.1 h sel).size_le hf

section
variable {s : State} (hv : s.cfg.valid = true) (h : QueuesWf s)
include hv h

theorem QueuesWf.qenq (sel : QSel) (v : Byte) : QueuesWf (qenq sel v s).2 := by
  by_cases hf : (s.queue sel).size.toNat = capacity s.cfg sel
  · rw [qenq_full hf]; exact h.congr rfl fun _ => setErr_queue _ _ _
  · rw [qenq_ok hf]
    have hp := Queue.pushed_wf (queuesWf_iff.1 h sel) (capacity_bounds hv sel).2 (h.room hf) v
    exact (h.setQueue hp).congr (clearSlotAck_cfg ..) fun _ => clearSlotAck_queue ..

theorem QueuesWf.qdeq (sel : QSel) : QueuesWf (qdeq sel s).2 := by
  by_cases he : (s.queue sel).size = 0#8
  · rw [qdeq_empty he]; exact h.congr rfl fun _ => setErr_queue _ _ _
  · rw [qdeq_ok he]
    have hc : QueuesWf (clearSlotAck sel (s.queue sel).front.toNat s) :=
      h.congr (clearSlotAck_cfg ..) fun _ => clearSlotAck_queue ..
    have hp := Queue.popped_wf (queuesWf_iff.1 h sel) (capacity_bounds hv sel).2 he
    exact hc.setQueue (by rw [clearSlotAck_cfg]; exact hp)

theorem QueuesWf.cleared (sel : QSel) : ((s.queue sel).cleared (capacity s.cfg sel)).Wf (capacity s.cfg sel) :=
  Queue.cleared_wf (queuesWf_iff.1 h sel).slots (capacity_bounds hv sel).1 (capacity_bounds hv sel).2

theorem QueuesWf.qclear (sel : QSel) : QueuesWf (qclear sel s) :=
  (h.setQueue (h.cleared hv sel)).congr (clearQueueAcks_cfg ..) fun _ => clearQueueAcks_queue ..

end

/-! ## What a queue primitive touches -/

/-- Nothing but the queues, the ACKBITs, ERR and the response port differs, and no ACKBIT is new. -/
def QueueChange (s t : State) : Prop :=
  ∃ tq rq a e r, t = { s with txq := tq, rxq := rq, ackbits := a, err := e, rsps := r } ∧
    ∀ i, a.getLsbD i = true → s.ackbits.getLsbD i = true

theorem QueueChange.refl (s : State) : QueueChange s s := ⟨_, _, _, _, _, rfl, fun _ => id⟩

theorem QueueChange.respond {s t : State} (h : QueueChange s t) (st : Status) (d : BitVec 24) :
    QueueChange s (respond st d t) := by
  obtain ⟨tq, rq, a, e, r, rfl, ha⟩ := h
  exact ⟨_, _, _, _, _, rfl, ha⟩

theorem setErr_queueChange (b : ErrBit) (s : State) : QueueChange s (setErr b s) := ⟨_, _, _, _, _, rfl, fun _ => id⟩

theorem qenq_queueChange (sel : QSel) (v : Byte) (s : State) : QueueChange s (qenq sel v s).2 := by
  by_cases hf : (s.queue sel).size.toNat = capacity s.cfg sel
  · rw [qenq_full hf]; exact setErr_queueChange _ _
  · rw [qenq_ok hf]
    cases sel with
    | txq => exact ⟨_, _, _, _, _, rfl, fun _ h => (getLsbD_of_clear_bit h).1⟩
    | rxq => exact ⟨_, _, _, _, _, rfl, fun _ => id⟩

theorem qdeq_queueChange (sel : QSel) (s : State) : QueueChange s (qdeq sel s).2 := by
  by_cases he : (s.queue sel).size = 0#8
  · rw [qdeq_empty he]; exact setErr_queueChange _ _
  · rw [qdeq_ok he]
    cases sel with
    | txq => exact ⟨_, _, _, _, _, rfl, fun _ h => (getLsbD_of_clear_bit h).1⟩
    | rxq => exact ⟨_, _, _, _, _, rfl, fun _ => id⟩

theorem qclear_queueChange (sel : QSel) (s : State) : QueueChange s (qclear sel s) := by
  cases sel with
  | txq => exact ⟨_, _, _, _, _, rfl, fun i h => by simp at h⟩
  | rxq => exact ⟨_, _, _, _, _, rfl, fun _ => id⟩

/-! ## The queue commands past the BUSY guard -/

theorem enqCommand_full {q : QSel} {s : State} (h : (s.queue q).size.toNat = capacity s.cfg q) (v : Byte) :
    enqCommand q v s = respond .qFull (BitVec.ofNat 24 (capacity s.cfg q)) (setErr .qFull s) := by
  simp only [enqCommand, qenq_full h]

theorem enqCommand_ok {q : QSel} {s : State} (h : (s.queue q).size.toNat ≠ capacity s.cfg q) (v : Byte) :
    enqCommand q v s = respond .ok ((qsize q (qenq q v s).2).setWidth 24) (qenq q v s).2 := by
  simp only [enqCommand, qenq_ok h]

theorem deqCommand_empty {q : QSel} {s : State} (h : (s.queue q).size = 0#8) :
    deqCommand q s = respond .qEmpty 0#24 (setErr .qEmpty s) := by
  simp only [deqCommand, qdeq_empty h]

theorem deqCommand_ok {q : QSel} {s : State} (h : (s.queue q).size ≠ 0#8) :
    deqCommand q s = respond .ok ((qsize q (qdeq q s).2).setWidth 24) (qdeq q s).2 := by
  simp only [deqCommand, qdeq_ok h]

theorem enqCommand_cases (q : QSel) (v : Byte) (s : State) :
    ∃ st d, enqCommand q v s = respond st d (qenq q v s).2 := by
  by_cases h : (s.queue q).size.toNat = capacity s.cfg q
  · exact ⟨_, _, by rw [enqCommand_full h, qenq_full h]⟩
  · exact ⟨_, _, enqCommand_ok h v⟩

theorem deqCommand_cases (q : QSel) (s : State) : ∃ st d, deqCommand q s = respond st d (qdeq q s).2 := by
  by_cases h : (s.queue q).size = 0#8
  · exact ⟨_, _, by rw [deqCommand_empty h, qdeq_empty h]⟩
  · exact ⟨_, _, deqCommand_ok h⟩

/-! ## Which commands touch what -/

/-- The commands that read a register, a queue or nothing: they change ERR and answer (20_memory.md R45). -/
def readsOnly : Instr → Prop
  | .nop | .fecEnc _ | .fecSyn _ | .fecCor _ | .fecDec _ | .qFront _ | .qRear _ | .qSize _ | .frmClass _ | .regRd _
  | .regClrerr _ => True
  | .qEnq _ _ | .qDeq _ | .qClear _ | .arqCtrl _ _ | .arqRxdata _ | .arqRxack _ _ | .arqTick | .arqEom | .arqDisc => False

theorem exec_readsOnly {i : Instr} (h : readsOnly i) (s : State) :
    ∃ e r, exec i s = .next { s with err := e, rsps := r } := by
  cases i with
  | nop | fecEnc sym | fecSyn cw | fecDec cw | qSize q | regClrerr mask => exact ⟨_, _, rfl⟩
  | fecCor cw => simp only [exec, execFecCor]; split <;> exact ⟨_, _, rfl⟩
  | frmClass len => simp only [exec, execFrmClass]; split <;> exact ⟨_, _, rfl⟩
  | regRd r => simp only [exec, execRegRd]; split <;> exact ⟨_, _, rfl⟩
  | qFront q => simp only [exec, execQFront, qfront]; split <;> exact ⟨_, _, rfl⟩
  | qRear q => simp only [exec, execQRear, qrear]; split <;> exact ⟨_, _, rfl⟩
  | qEnq | qDeq | qClear | arqCtrl | arqRxdata | arqRxack | arqTick | arqEom | arqDisc => exact h.elim

/-- The commands that change one queue (40_queue.md R86). -/
def changesQueue : Instr → Prop
  | .qEnq _ _ | .qDeq _ | .qClear _ => True
  | .nop | .fecEnc _ | .fecSyn _ | .fecCor _ | .fecDec _ | .qFront _ | .qRear _ | .qSize _ | .frmClass _ | .regRd _
  | .regClrerr _ | .arqCtrl _ _ | .arqRxdata _ | .arqRxack _ _ | .arqTick | .arqEom | .arqDisc => False

/-- The BUSY guard adds nothing but a response. -/
theorem unlessBusy_queueChange {f : State → State} {s : State} (hf : QueueChange s (f s)) :
    QueueChange s (unlessBusy f s) := by
  cases hs : s.fsm with
  | idle => rw [unlessBusy_idle hs]; exact hf
  | transmitting => rw [unlessBusy_busy hs]; exact (QueueChange.refl s).respond _ _

/-- Behind the BUSY guard such a command makes a `QueueChange`, and keeps well-formed queues well formed. -/
theorem exec_changesQueue {i : Instr} (h : changesQueue i) : ∃ f : State → State,
    (∀ s, exec i s = .next (unlessBusy f s)) ∧ (∀ s, QueueChange s (f s)) ∧
    ∀ s, s.cfg.valid = true → QueuesWf s → QueuesWf (f s) := by
  cases i with
  | qEnq q v =>
    refine ⟨enqCommand q v, fun _ => rfl, fun s => ?_, fun s hv hw => ?_⟩ <;> obtain ⟨st, d, he⟩ := enqCommand_cases q v s
    · rw [he]; exact (qenq_queueChange q v s).respond st d
    · rw [he]; exact (hw.qenq hv q v).congr rfl fun _ => respond_queue _ _ _ _
  | qDeq q =>
    refine ⟨deqCommand q, fun _ => rfl, fun s => ?_, fun s hv hw => ?_⟩ <;> obtain ⟨st, d, he⟩ := deqCommand_cases q s
    · rw [he]; exact (qdeq_queueChange q s).respond st d
    · rw [he]; exact (hw.qdeq hv q).congr rfl fun _ => respond_queue _ _ _ _
  | qClear q =>
    exact ⟨clearCommand q, fun _ => rfl, fun s => (qclear_queueChange q s).respond _ _,
      fun s hv hw => (hw.qclear hv q).congr rfl fun _ => respond_queue _ _ _ _⟩
  | nop | fecEnc | fecSyn | fecCor | fecDec | qFront | qRear | qSize | frmClass | regRd | regClrerr | arqCtrl | arqRxdata
  | arqRxack | arqTick | arqEom | arqDisc => exact h.elim

end Sys2Proof.Machine

/-! The invariant (10_state.md R22 to R31, R137): what each ARQ procedure does to the sender's window, and that every step
keeps `Inv`. A procedure runs in the middle of a command, where `Inv` can fail for a moment (a finished transfer before
`check_done`, an acknowledged front entry before the window slides, a timer before its test), so the proofs go through
`Window` and `Unchecked`, the parts of `Inv` that hold there. -/

namespace Sys2Proof.Machine

/-! ## The sequence space (10_state.md R26, R30) -/

theorem inSeqSpace_base {c : Cfg} (hv : c.valid = true) : inSeqSpace c (BitVec.ofNat 8 c.base) := by
  have hb := Cfg.valid_base hv
  have hl := Cfg.valid_lenm hv
  rw [inSeqSpace, toNat_ofNat8 (by omega)]
  omega

theorem inSeqSpace_nextSeqOf {c : Cfg} (hv : c.valid = true) {x : Byte} (hx : inSeqSpace c x) :
    inSeqSpace c (nextSeqOf c x) := by
  have hfit := Cfg.valid_seq_fits hv
  obtain ⟨hlo, hhi⟩ := hx
  unfold nextSeqOf
  split
  · exact inSeqSpace_base hv
  · rw [inSeqSpace, toNat_inc8 (by omega)]
    omega

theorem seqOfUnit_toNat {c : Cfg} (hv : c.valid = true) (u : Nat) : (seqOfUnit c u).toNat = c.base + u % c.lenm := by
  have hl := Cfg.valid_lenm hv
  have hfit := Cfg.valid_seq_fits hv
  have := Nat.mod_lt u (show 0 < c.lenm by omega)
  exact toNat_ofNat8 (by omega)

theorem seqOfUnit_zero (c : Cfg) : seqOfUnit c 0 = BitVec.ofNat 8 c.base := by
  simp [seqOfUnit]

/-- `nextseq` goes from a unit's number to the next unit's. -/
theorem nextSeqOf_seqOfUnit {c : Cfg} (hv : c.valid = true) (u : Nat) :
    nextSeqOf c (seqOfUnit c u) = seqOfUnit c (u + 1) := by
  have hl := Cfg.valid_lenm hv
  have hfit := Cfg.valid_seq_fits hv
  have hu := seqOfUnit_toNat hv u
  have hlt := Nat.mod_lt u (show 0 < c.lenm by omega)
  have hmod : (u + 1) % c.lenm = if u % c.lenm = c.lenm - 1 then 0 else u % c.lenm + 1 := by
    rw [Nat.add_mod, Nat.mod_eq_of_lt (show 1 < c.lenm by omega), mod_one_turn (by omega)]
    split <;> split <;> omega
  apply BitVec.eq_of_toNat_eq
  rw [seqOfUnit_toNat hv, hmod, nextSeqOf, hu]
  by_cases h : u % c.lenm = c.lenm - 1
  · rw [if_pos (by omega), if_pos h, toNat_ofNat8 (by omega)]
    rfl
  · rw [if_neg (by omega), if_neg h, toNat_inc8 (by omega), hu, Nat.add_assoc]

/-- Units less than LENM apart have different numbers. -/
theorem seqOfUnit_inj {c : Cfg} (hv : c.valid = true) {u a b : Nat} (ha : a < c.lenm) (hb : b < c.lenm)
    (h : seqOfUnit c (u + a) = seqOfUnit c (u + b)) : a = b := by
  have he := congrArg BitVec.toNat h
  rw [seqOfUnit_toNat hv, seqOfUnit_toNat hv] at he
  have hm : a ≡ b [MOD c.lenm] := Nat.ModEq.add_left_cancel' u (Nat.add_left_cancel he)
  exact hm.eq_of_lt_of_lt ha hb

/-! ## Where the invariant looks -/

theorem fires_zero (c : Cfg) (threshold : Nat) : fires c 0#16 threshold = false := by
  simp [fires]

/-- The invariant looks neither at ERR nor at the ports. -/
theorem Inv.ports {s : State} (h : Inv s) (e : BitVec 5) (i : List Input) (d : List Draw) (ev : List Event)
    (r : List Response) : Inv { s with err := e, inputs := i, draws := d, events := ev, rsps := r } where
  cfg_valid := h.cfg_valid
  queues := ⟨h.queues.txq, h.queues.rxq⟩
  sent_le := h.sent_le
  next_seq := h.next_seq
  rx_exp := h.rx_exp
  units_sent := h.units_sent
  entries := h.entries
  ackbits_held := h.ackbits_held
  front_unacked := h.front_unacked
  timer_stopped := h.timer_stopped
  unfinished := h.unfinished
  idle_timers := h.idle_timers
  ack_timer_below := h.ack_timer_below
  tx_timer_below := h.tx_timer_below

/-- Of the receiver, the invariant asks a well-formed RXQ and RX_EXP in the sequence space (R27, R31). -/
theorem Inv.receiver {s : State} (h : Inv s) {q : Queue} {x : Byte} (hq : q.Wf s.cfg.d) (hx : inSeqSpace s.cfg x) :
    Inv { s with rxq := q, rxExp := x } where
  cfg_valid := h.cfg_valid
  queues := ⟨h.queues.txq, hq⟩
  sent_le := h.sent_le
  next_seq := h.next_seq
  rx_exp := hx
  units_sent := h.units_sent
  entries := h.entries
  ackbits_held := h.ackbits_held
  front_unacked := h.front_unacked
  timer_stopped := h.timer_stopped
  unfinished := h.unfinished
  idle_timers := h.idle_timers
  ack_timer_below := h.ack_timer_below
  tx_timer_below := h.tx_timer_below

/-- In Idle the invariant asks nothing of the entries, no ACKBIT and both timers 0. -/
theorem Inv.of_idle {s : State} (hi : s.fsm = .idle) (hv : s.cfg.valid = true) (hw : QueuesWf s)
    (hs : s.sentCount.toNat ≤ s.cfg.m) (hn : s.nextSeq = seqOfUnit s.cfg s.sentCount.toNat)
    (hx : inSeqSpace s.cfg s.rxExp) (ha : ∀ i, ackBit s i = false) (hat : s.ackTimer = 0#16) (htt : s.txTimer = 0#16) :
    Inv s where
  cfg_valid := hv
  queues := hw
  sent_le := hs
  next_seq := hn
  rx_exp := hx
  units_sent := by simp [hi]
  entries := by simp [hi]
  ackbits_held := by simp [ha]
  front_unacked := fun _ => ha _
  timer_stopped := by simp [hi]
  unfinished := by simp [hi]
  idle_timers := fun _ => ⟨hat, htt⟩
  ack_timer_below := by rw [hat]; exact fires_zero _ _
  tx_timer_below := by rw [htt]; exact fires_zero _ _

/-- R29: in Idle no ACKBIT is set. -/
theorem Inv.no_ackBit {s : State} (h : Inv s) (hi : s.fsm = .idle) (i : Nat) : ackBit s i = false := by
  cases hb : ackBit s i with
  | false => rfl
  | true =>
    obtain ⟨ht, -⟩ := h.ackbits_held i hb
    rw [hi] at ht
    cases ht

/-! ## After reset (10_state.md R36, 70_reset_and_hazards.md R212) -/

/-- A state with the reset values, whatever its slots, ERR and ports. -/
theorem Inv.of_reset {s : State} (hv : s.cfg.valid = true) (hw : QueuesWf s) (hi : s.fsm = .idle)
    (hs : s.sentCount = 0#16) (hn : s.nextSeq = BitVec.ofNat 8 s.cfg.base) (hx : s.rxExp = BitVec.ofNat 8 s.cfg.base)
    (ha : s.ackbits = 0#16) (hat : s.ackTimer = 0#16) (htt : s.txTimer = 0#16) : Inv s :=
  .of_idle hi hv hw (by simp [hs]) (by rw [hn, hs]; exact (seqOfUnit_zero _).symm) (by rw [hx]; exact inSeqSpace_base hv)
    (by simp [ackBit, ha]) hat htt

/-- Settles O52: the reset values of the registers and empty queues are all that `Inv` asks for in Idle. -/
theorem invariantHoldsAfterReset : Obligations.InvariantHoldsAfterReset := by
  intro c hv
  have htx := capacity_bounds hv .txq
  have hrx := capacity_bounds hv .rxq
  exact .of_reset hv ⟨Queue.resetOf_wf htx.1 htx.2, Queue.resetOf_wf hrx.1 hrx.2⟩ rfl rfl rfl rfl rfl rfl rfl

theorem QueuesWf.both_cleared {s : State} (hv : s.cfg.valid = true) (h : QueuesWf s) :
    (s.txq.cleared s.cfg.w).Wf s.cfg.w ∧ (s.rxq.cleared s.cfg.d).Wf s.cfg.d := ⟨h.cleared hv .txq, h.cleared hv .rxq⟩

theorem hardReset_inv {s : State} (hv : s.cfg.valid = true) (hw : QueuesWf s) : Inv (hardReset s) := by
  obtain ⟨htx, hrx⟩ := hw.both_cleared hv
  exact .of_reset hv ⟨htx, hrx⟩ rfl rfl rfl rfl rfl rfl rfl

theorem disconnected_inv {s : State} (hv : s.cfg.valid = true) (hw : QueuesWf s) :
    Inv { resetSession s with fsm := .idle } := by
  obtain ⟨htx, hrx⟩ := hw.both_cleared hv
  exact .of_reset hv ⟨htx, hrx⟩ rfl rfl rfl rfl rfl rfl rfl

theorem abandon_inv {s : State} (hv : s.cfg.valid = true) (hw : QueuesWf s) (w : Word) (nEvents nDraws : Nat) :
    Inv (abandon w nEvents nDraws s) := by
  obtain ⟨k, evs, he, -⟩ := abandon_cases w nEvents nDraws s
  rw [he]
  exact hardReset_inv hv ⟨hw.txq, hw.rxq⟩

/-! ## Outstanding sequence numbers (10_state.md R30) -/

/-- Settles O55: the entries are the numbers of consecutive units, at most W < LENM of them. -/
theorem outstandingSequenceNumbersAreDistinct : Obligations.OutstandingSequenceNumbersAreDistinct := by
  intro s h ht
  refine List.Nodup.map_on (fun a ha b hb he => ?_) List.nodup_range
  have hroom : s.txq.size.toNat < s.cfg.lenm := h.queues.txq.size_le.trans_lt (Cfg.valid_w_lt_lenm h.cfg_valid)
  have ha' : a < s.txq.size.toNat := List.mem_range.1 ha
  have hb' : b < s.txq.size.toNat := List.mem_range.1 hb
  have hseq : seqOfUnit s.cfg (unitAt s a) = seqOfUnit s.cfg (unitAt s b) := by
    rw [← h.entries ht a ha', ← h.entries ht b hb']
    exact he
  exact seqOfUnit_inj h.cfg_valid (by omega) (by omega) hseq

/-! ## The sender's window while Transmitting -/

/-- What holds of a Transmitting state throughout a command, timers and `check_done` aside. -/
structure Window (s : State) : Prop where
  cfg_valid : s.cfg.valid = true
  queues : QueuesWf s
  transmitting : s.fsm = .transmitting
  sent_le : s.sentCount.toNat ≤ s.cfg.m
  next_seq : s.nextSeq = seqOfUnit s.cfg s.sentCount.toNat
  rx_exp : inSeqSpace s.cfg s.rxExp
  units_sent : s.txq.size.toNat ≤ s.sentCount.toNat
  entries : ∀ j, j < s.txq.size.toNat → s.txq.entry s.cfg.w j = seqOfUnit s.cfg (unitAt s j)
  ackbits_held : ∀ i, ackBit s i = true → (s.cfg.mode = .sr ∨ s.cfg.mode = .slw) ∧ s.txq.holds s.cfg.w i

/-- The window has slid past every acknowledged front entry (R145). -/
def FrontUnacked (s : State) : Prop := s.txq.size ≠ 0#8 → ackBit s s.txq.front.toNat = false

/-- A Transmitting state that lacks only `check_done` to meet the invariant. -/
structure Unchecked (s : State) : Prop where
  window : Window s
  front_unacked : FrontUnacked s
  timer_stopped : s.txq.size = 0#8 → s.ackTimer = 0#16
  ack_timer_below : fires s.cfg s.ackTimer s.cfg.ackTimeout = false
  tx_timer_below : fires s.cfg s.txTimer s.cfg.txTimeout = false

theorem Inv.unchecked {s : State} (h : Inv s) (ht : s.fsm = .transmitting) : Unchecked s where
  window := {
    cfg_valid := h.cfg_valid
    queues := h.queues
    transmitting := ht
    sent_le := h.sent_le
    next_seq := h.next_seq
    rx_exp := h.rx_exp
    units_sent := h.units_sent ht
    entries := h.entries ht
    ackbits_held := fun i hi => (h.ackbits_held i hi).2 }
  front_unacked := h.front_unacked
  timer_stopped := h.timer_stopped ht
  ack_timer_below := h.ack_timer_below
  tx_timer_below := h.tx_timer_below

theorem Unchecked.inv {s : State} (h : Unchecked s) (hu : ¬(s.sentCount.toNat = s.cfg.m ∧ s.txq.size = 0#8)) : Inv s where
  cfg_valid := h.window.cfg_valid
  queues := h.window.queues
  sent_le := h.window.sent_le
  next_seq := h.window.next_seq
  rx_exp := h.window.rx_exp
  units_sent := fun _ => h.window.units_sent
  entries := fun _ => h.window.entries
  ackbits_held := fun i hi => ⟨h.window.transmitting, h.window.ackbits_held i hi⟩
  front_unacked := h.front_unacked
  timer_stopped := fun _ => h.timer_stopped
  unfinished := fun _ => hu
  idle_timers := fun hi => by have := h.window.transmitting; simp [hi] at this
  ack_timer_below := h.ack_timer_below
  tx_timer_below := h.tx_timer_below

/-- The window looks at neither timer, nor at ERR, nor at the ports. -/
theorem Window.timers {s : State} (h : Window s) (x y : Half) (e : BitVec 5) (i : List Input) (d : List Draw)
    (ev : List Event) (r : List Response) :
    Window { s with ackTimer := x, txTimer := y, err := e, inputs := i, draws := d, events := ev, rsps := r } where
  cfg_valid := h.cfg_valid
  queues := ⟨h.queues.txq, h.queues.rxq⟩
  transmitting := h.transmitting
  sent_le := h.sent_le
  next_seq := h.next_seq
  rx_exp := h.rx_exp
  units_sent := h.units_sent
  entries := h.entries
  ackbits_held := h.ackbits_held

/-- No ACKBIT is set with nothing outstanding. -/
theorem Window.no_ackBit {s : State} (h : Window s) (h0 : s.txq.size = 0#8) (i : Nat) : ackBit s i = false := by
  cases hb : ackBit s i with
  | false => rfl
  | true =>
    obtain ⟨-, j, hj, -⟩ := h.ackbits_held i hb
    simp [h0] at hj

/-- In SW and GBN no ACKBIT is ever set. -/
theorem Window.frontUnacked_of_mode {s : State} (h : Window s) (hm : ¬(s.cfg.mode = .sr ∨ s.cfg.mode = .slw)) :
    FrontUnacked s := by
  intro _
  cases hb : ackBit s s.txq.front.toNat with
  | false => rfl
  | true => exact absurd (h.ackbits_held _ hb).1 hm

/-- `check_done` gives what the invariant lacks: a finished transfer leaves Transmitting with both timers 0 (R137). -/
theorem Unchecked.checkDone_inv {s : State} (h : Unchecked s) : Inv (checkDone s) := by
  have hw := h.window
  by_cases hd : s.fsm = .transmitting ∧ s.sentCount.toNat = s.cfg.m ∧ s.txq.size = 0#8
  · rw [checkDone_done hd]
    obtain ⟨-, -, h0⟩ := hd
    exact .of_idle rfl hw.cfg_valid ⟨hw.queues.txq, hw.queues.rxq⟩ hw.sent_le hw.next_seq hw.rx_exp (hw.no_ackBit h0) rfl rfl
  · rw [checkDone_not hd]
    exact h.inv fun hu => hd ⟨hw.transmitting, hu⟩

/-! ## First transmissions (43_arq.md R134, R135) -/

/-- What `send_new()` does but for the ports. -/
def windowSent (s : State) : State :=
  { s with
    txq := s.txq.pushed s.cfg.w s.nextSeq
    ackbits := s.ackbits &&& ~~~(1#16 <<< s.txq.nextRear s.cfg.w)
    nextSeq := nextSeqOf s.cfg s.nextSeq
    sentCount := s.sentCount + 1#16 }

theorem sendNew_some {s t : State} (hc : canSend s = true) (h : sendNew s = some t) :
    ∃ d ev, t = { windowSent s with draws := d, events := ev } := by
  obtain ⟨hroom, -⟩ := (canSend_iff s).1 hc
  cases hd : s.draws with
  | nil => rw [sendNew_nil hd] at h; cases h
  | cons u us =>
    rw [sendNew_cons hd (by omega), Option.some.injEq] at h
    exact ⟨_, _, h.symm⟩

theorem Window.windowSent_size {s : State} (h : Window s) (hc : canSend s = true) :
    (windowSent s).txq.size.toNat = s.txq.size.toNat + 1 :=
  Queue.pushed_size_toNat (capacity_bounds h.cfg_valid .txq).2 ((canSend_iff s).1 hc).1 _

theorem Window.windowSent_sentCount {s : State} (h : Window s) (hc : canSend s = true) :
    (windowSent s).sentCount.toNat = s.sentCount.toNat + 1 := by
  have hm := Cfg.valid_m h.cfg_valid
  obtain ⟨-, hsent⟩ := (canSend_iff s).1 hc
  exact toNat_inc16 (by omega)

/-- A frame sent first time: one more unit, its number the newest entry, no ACKBIT new. -/
theorem Window.sent {s : State} (h : Window s) (hc : canSend s = true) : Window (windowSent s) := by
  obtain ⟨hroom, hsent⟩ := (canSend_iff s).1 hc
  have hcap := (capacity_bounds h.cfg_valid .txq).2
  have hsize := h.windowSent_size hc
  have hcount := h.windowSent_sentCount hc
  have hle := h.units_sent
  have hunit : ∀ j, unitAt (windowSent s) j = unitAt s j := by
    intro j
    rw [unitAt, hsize, hcount, unitAt]
    omega
  exact {
    cfg_valid := h.cfg_valid
    queues := ⟨Queue.pushed_wf h.queues.txq hcap hroom _, h.queues.rxq⟩
    transmitting := h.transmitting
    sent_le := by rw [hcount]; exact hsent
    next_seq := by
      rw [hcount]
      exact (congrArg (nextSeqOf s.cfg) h.next_seq).trans (nextSeqOf_seqOfUnit h.cfg_valid _)
    rx_exp := h.rx_exp
    units_sent := by omega
    entries := by
      intro j hj
      rw [hunit]
      rcases Nat.lt_or_ge j s.txq.size.toNat with hold | hnew
      · exact (Queue.pushed_entry_old h.queues.txq hroom _ hold).trans (h.entries j hold)
      · obtain rfl : j = s.txq.size.toNat := by omega
        have hlast : unitAt s s.txq.size.toNat = s.sentCount.toNat := by rw [unitAt]; omega
        rw [hlast]
        exact (Queue.pushed_entry_new h.queues.txq hroom _).trans h.next_seq
    ackbits_held := by
      intro i hi
      obtain ⟨hm, j, hj, hidx⟩ := h.ackbits_held i (getLsbD_of_clear_bit hi).1
      exact ⟨hm, j, by omega, hidx⟩ }

theorem Unchecked.sendNew {s t : State} (h : Unchecked s) (hc : canSend s = true) (hs : sendNew s = some t) :
    Unchecked t ∧ t.txq.size ≠ 0#8 := by
  obtain ⟨d, ev, rfl⟩ := sendNew_some hc hs
  have hne : (windowSent s).txq.size ≠ 0#8 := toNat_ne_zero8.2 (by rw [h.window.windowSent_size hc]; omega)
  refine ⟨⟨(h.window.sent hc).timers _ _ _ _ _ _ _, fun _ => ?_, fun h0 => absurd h0 hne, h.ack_timer_below,
    h.tx_timer_below⟩, hne⟩
  by_contra hb
  have hold : ackBit s s.txq.front.toNat = true := (getLsbD_of_clear_bit (Bool.not_eq_false _ ▸ hb)).1
  by_cases h0 : s.txq.size = 0#8
  · simp [h.window.no_ackBit h0] at hold
  · simp [h.front_unacked h0] at hold

theorem Unchecked.fillLoop {n : Nat} : ∀ {s t : State}, Unchecked s → fillLoop n s = some t → Unchecked t := by
  induction n with
  | zero =>
    intro s t h hf
    obtain rfl : s = t := Option.some.inj hf
    exact h
  | succ n ih =>
    intro s t h hf
    rw [Machine.fillLoop] at hf
    split at hf
    · rename_i hc
      split at hf
      · cases hf
      · rename_i u hu
        exact ih (h.sendNew hc hu).1 hf
    · obtain rfl : s = t := Option.some.inj hf
      exact h

/-- The window that the ARQ reset signal starts to fill is empty (R140). -/
theorem startSession_unchecked {s : State} (hv : s.cfg.valid = true) (hw : QueuesWf s) : Unchecked (startSession s) := by
  obtain ⟨htx, hrx⟩ := hw.both_cleared hv
  exact {
    window := {
      cfg_valid := hv
      queues := ⟨htx, hrx⟩
      transmitting := rfl
      sent_le := Nat.zero_le _
      next_seq := (seqOfUnit_zero s.cfg).symm
      rx_exp := inSeqSpace_base hv
      units_sent := Nat.le_refl _
      entries := fun j hj => absurd hj (Nat.not_lt_zero j)
      ackbits_held := fun i hi => by simp [ackBit, startSession, resetSession_eq] at hi }
    front_unacked := fun h0 => absurd rfl h0
    timer_stopped := fun _ => rfl
    ack_timer_below := fires_zero _ _
    tx_timer_below := fires_zero _ _ }

/-! ## Taking an ACK (43_arq.md R145) -/

/-- What a dequeue from a TXQ with entries does. -/
def windowPopped (s : State) : State :=
  { s with txq := s.txq.popped s.cfg.w, ackbits := s.ackbits &&& ~~~(1#16 <<< s.txq.front.toNat) }

theorem qdeq_txq_windowPopped {s : State} (h : s.txq.size ≠ 0#8) : (qdeq .txq s).2 = windowPopped s := by
  rw [qdeq_txq_ok h, windowPopped]

/-- The oldest entry leaves: the others move one offset up and keep their units and their ACKBITs. -/
theorem Window.popped {s : State} (h : Window s) (h0 : s.txq.size ≠ 0#8) : Window (windowPopped s) := by
  have hcap := capacity_bounds h.cfg_valid .txq
  have hpos := toNat_ne_zero8.1 h0
  have hle := h.units_sent
  have hsize : (windowPopped s).txq.size.toNat = s.txq.size.toNat - 1 := Queue.popped_size_toNat h0
  have hunit : ∀ j, unitAt (windowPopped s) j = unitAt s (j + 1) := by
    intro j
    rw [unitAt, hsize, unitAt]
    show s.sentCount.toNat - _ + j = _
    omega
  exact {
    cfg_valid := h.cfg_valid
    queues := ⟨Queue.popped_wf h.queues.txq hcap.2 h0, h.queues.rxq⟩
    transmitting := h.transmitting
    sent_le := h.sent_le
    next_seq := h.next_seq
    rx_exp := h.rx_exp
    units_sent := by rw [hsize]; show _ ≤ s.sentCount.toNat; omega
    entries := by
      intro j hj
      rw [hunit]
      exact (Queue.popped_entry hcap.2 hcap.1 j).trans (h.entries (j + 1) (by omega))
    ackbits_held := by
      intro i hi
      obtain ⟨hold, hfront⟩ := getLsbD_of_clear_bit hi
      obtain ⟨hm, j, hj, hidx⟩ := h.ackbits_held i hold
      have hj0 : j ≠ 0 := by
        rintro rfl
        exact hfront (hidx.symm.trans (Queue.entryIndex_zero h.queues.txq))
      refine ⟨hm, j - 1, by omega, (Queue.popped_entryIndex hcap.2 hcap.1 (j - 1)).trans ?_⟩
      rw [Nat.sub_add_cancel (by omega)]
      exact hidx }

theorem Window.qdeq {s : State} (h : Window s) (h0 : s.txq.size ≠ 0#8) : Window (qdeq .txq s).2 := by
  rw [qdeq_txq_windowPopped h0]
  exact h.popped h0

theorem Window.popTimes {n : Nat} : ∀ {s : State}, Window s → n ≤ s.txq.size.toNat → Window (popTimes n s) := by
  induction n with
  | zero => exact fun h _ => h
  | succ n ih =>
    intro s h hn
    have h0 : s.txq.size ≠ 0#8 := toNat_ne_zero8.2 (by omega)
    refine ih (h.qdeq h0) ?_
    rw [qdeq_txq_windowPopped h0]
    show n ≤ (s.txq.popped s.cfg.w).size.toNat
    rw [Queue.popped_size_toNat h0]
    omega

theorem Window.slideLoop {n : Nat} : ∀ {s : State}, Window s → Window (slideLoop n s) := by
  induction n with
  | zero => exact fun h => h
  | succ n ih =>
    intro s h
    rw [Machine.slideLoop]
    split
    · exact h
    · rename_i h0
      split
      · exact ih (h.qdeq h0)
      · exact h

/-- With rounds enough, the loop stops only at an entry without ACKBIT. -/
theorem slideLoop_frontUnacked {n : Nat} : ∀ {s : State}, s.txq.size.toNat ≤ n → FrontUnacked (slideLoop n s) := by
  induction n with
  | zero => exact fun hn h0 => absurd hn (Nat.not_le_of_lt (toNat_ne_zero8.1 h0))
  | succ n ih =>
    intro s hn
    rw [slideLoop]
    split
    · rename_i h0; exact fun hne => absurd h0 hne
    · rename_i h0
      split
      · refine ih ?_
        rw [qdeq_txq_windowPopped h0]
        show (s.txq.popped s.cfg.w).size.toNat ≤ n
        rw [Queue.popped_size_toNat h0]
        omega
      · rename_i hb; exact fun _ => Bool.eq_false_iff.2 hb

/-- Marking an entry, in the modes that mark entries (R145). -/
theorem Window.setAckBit {s : State} (h : Window s) (hm : s.cfg.mode = .sr ∨ s.cfg.mode = .slw) {j : Nat}
    (hj : j < s.txq.size.toNat) : Window (setAckBit (s.txq.entryIndex s.cfg.w j) s) where
  cfg_valid := h.cfg_valid
  queues := ⟨h.queues.txq, h.queues.rxq⟩
  transmitting := h.transmitting
  sent_le := h.sent_le
  next_seq := h.next_seq
  rx_exp := h.rx_exp
  units_sent := h.units_sent
  entries := h.entries
  ackbits_held := by
    intro i hi
    rcases getLsbD_set_bit hi with hold | rfl
    · exact h.ackbits_held i hold
    · exact ⟨hm, j, hj, rfl⟩

theorem takeAckFront_progress {x : Byte} {s t : State} (h : takeAckFront x s = .progress t) :
    1 ≤ s.txq.size.toNat ∧ t = popTimes 1 s := by
  rw [takeAckFront_eq] at h
  split at h
  · rename_i hc; exact ⟨toNat_ne_zero8.1 hc.1, (AckResult.progress.inj h).symm⟩
  · cases h

theorem takeAckCumulative_progress {x : Byte} {s t : State} (h : takeAckCumulative x s = .progress t) :
    ∃ j, j < s.txq.size.toNat ∧ t = popTimes (j + 1) s := by
  cases hf : qfind .txq x s with
  | none => rw [takeAckCumulative_none hf] at h; cases h
  | some j =>
    rw [takeAckCumulative_some hf] at h
    exact ⟨j, (qfind_some hf).1, (AckResult.progress.inj h).symm⟩

theorem takeAckSelective_progress {x : Byte} {s t : State} (h : takeAckSelective x s = .progress t) :
    ∃ j, j < s.txq.size.toNat ∧ t = slide (setAckBit (s.txq.entryIndex s.cfg.w j) s) := by
  cases hf : qfind .txq x s with
  | none => rw [takeAckSelective_none hf] at h; cases h
  | some j =>
    simp only [takeAckSelective, hf] at h
    split at h
    · cases h
    · exact ⟨j, (qfind_some hf).1, (AckResult.progress.inj h).symm⟩

/-- What ACK progress can be, by mode (R145). -/
theorem takeAck_progress {x : Byte} {s t : State} (h : takeAck x s = .progress t) :
    (¬(s.cfg.mode = .sr ∨ s.cfg.mode = .slw) ∧ ∃ n, n ≤ s.txq.size.toNat ∧ t = popTimes n s) ∨
    ((s.cfg.mode = .sr ∨ s.cfg.mode = .slw) ∧
      ∃ j, j < s.txq.size.toNat ∧ t = slide (setAckBit (s.txq.entryIndex s.cfg.w j) s)) := by
  unfold takeAck at h
  cases hm : s.cfg.mode <;> rw [hm] at h
  case sw => exact .inl ⟨by simp, 1, takeAckFront_progress h⟩
  case gbn =>
    obtain ⟨j, hj, he⟩ := takeAckCumulative_progress h
    exact .inl ⟨by simp, j + 1, hj, he⟩
  case sr | slw => exact .inr ⟨by simp, takeAckSelective_progress h⟩

/-- ACK progress changes TXQ and its ACKBITs only. -/
theorem takeAck_rest {x : Byte} {s t : State} (h : takeAck x s = .progress t) :
    ∃ q a, t = { s with txq := q, ackbits := a } := by
  rcases takeAck_progress h with ⟨-, n, hn, rfl⟩ | ⟨-, j, -, rfl⟩
  · obtain ⟨q, a, he, -⟩ := popTimes_rest n s hn
    exact ⟨q, a, he⟩
  · obtain ⟨q, a, he⟩ := slideLoop_rest s.txq.size.toNat (Machine.setAckBit (s.txq.entryIndex s.cfg.w j) s)
    exact ⟨q, a, he⟩

theorem Window.takeAck {x : Byte} {s t : State} (h : Window s) (ht : takeAck x s = .progress t) :
    Window t ∧ FrontUnacked t := by
  rcases takeAck_progress ht with ⟨hm, n, hn, he⟩ | ⟨hm, j, hj, rfl⟩
  · have hw : Window t := he ▸ h.popTimes hn
    obtain ⟨q, a, hrest⟩ := takeAck_rest ht
    exact ⟨hw, hw.frontUnacked_of_mode (by rw [hrest]; exact hm)⟩
  · exact ⟨(h.setAckBit hm hj).slideLoop, slideLoop_frontUnacked (Nat.le_refl _)⟩

theorem Unchecked.ackProgress_inv {x : Byte} {s t : State} (h : Unchecked s) (ht : takeAck x s = .progress t) :
    Inv (ackProgress t) := by
  obtain ⟨hw, hf⟩ := h.window.takeAck ht
  obtain ⟨q, a, rfl⟩ := takeAck_rest ht
  exact Unchecked.checkDone_inv ⟨hw.timers _ _ _ _ _ _ _, hf, fun _ => rfl, fires_zero _ _, h.tx_timer_below⟩

/-! ## One tick (43_arq.md R150) -/

/-- The ACK timer's test ends at 0 or at a value that does not fire; with nothing outstanding it leaves a stopped timer. -/
theorem ackTimerTest_some {s t : State} (h : ackTimerTest s = some t) :
    ∃ x d ev, t = { s with ackTimer := x, draws := d, events := ev } ∧ (s.txq.size = 0#8 → x = s.ackTimer) ∧
      (s.txq.size ≠ 0#8 → fires s.cfg x s.cfg.ackTimeout = false) := by
  unfold ackTimerTest at h
  split at h
  · rename_i hc
    rw [retransmit_eq] at h
    split at h
    · exact ⟨_, _, _, (Option.some.inj h).symm, fun h0 => absurd h0 hc.1, fun _ => fires_zero _ _⟩
    · cases h
  · rename_i hc
    obtain rfl : s = t := Option.some.inj h
    exact ⟨_, _, _, rfl, fun _ => rfl, fun h0 => Bool.eq_false_iff.2 fun hf => hc ⟨h0, hf⟩⟩

/-- The transmit timer's test ends at 0 or at a value that does not fire, and may send one frame. -/
theorem txTimerTest_some {s t : State} (h : txTimerTest s = some t) :
    ∃ y, fires s.cfg y s.cfg.txTimeout = false ∧
      (t = { s with txTimer := y } ∨ canSend { s with txTimer := y } = true ∧ sendNew { s with txTimer := y } = some t) := by
  unfold txTimerTest at h
  split at h
  · split at h
    · rename_i hc
      exact ⟨0#16, fires_zero _ _, .inr ⟨hc, h⟩⟩
    · exact ⟨0#16, fires_zero _ _, .inl (Option.some.inj h).symm⟩
  · rename_i hf
    exact ⟨s.txTimer, Bool.eq_false_iff.2 hf, .inl (Option.some.inj h).symm⟩

theorem Inv.tick {s a t : State} (h : Inv s) (ht : s.fsm = .transmitting) (ha : ackTimerTest (countTick s) = some a)
    (hb : txTimerTest a = some t) : Inv t := by
  have hu := h.unchecked ht
  obtain ⟨x, d, ev, rfl, hx0, hx⟩ := ackTimerTest_some ha
  obtain ⟨y, hy, hcase⟩ := txTimerTest_some hb
  have hstop : s.txq.size = 0#8 → x = 0#16 := by
    intro h0
    rw [hx0 h0]
    simp [countTick, h0, hu.timer_stopped h0]
  have hbelow : fires s.cfg x s.cfg.ackTimeout = false := by
    by_cases h0 : s.txq.size = 0#8
    · rw [hstop h0]; exact fires_zero _ _
    · exact hx h0
  have hc : Unchecked { s with ackTimer := x, txTimer := y, draws := d, events := ev } :=
    ⟨hu.window.timers _ _ _ _ _ _ _, hu.front_unacked, hstop, hbelow, hy⟩
  rcases hcase with rfl | ⟨hcan, hsend⟩
  · exact hc.inv (h.unfinished ht)
  · obtain ⟨ht, hne⟩ := hc.sendNew hcan hsend
    exact ht.inv fun hfin => hne hfin.2

/-! ## The receiver (43_arq.md R138, R155, R158) -/

/-- `emit_ack()` touches RXQ, ERR and the ports. -/
theorem emitAck_rest {s t : State} (h : emitAck s = some t) :
    ∃ q d ev e, t = { s with rxq := q, draws := d, events := ev, err := e } := by
  cases hd : s.draws with
  | nil => rw [emitAck_nil hd] at h; cases h
  | cons u us =>
    by_cases h0 : s.rxq.size = 0#8
    · simp only [emitAck, drawLoss_cons hd] at h
      rw [qdeq_empty (sel := .rxq) (by exact h0)] at h
      exact ⟨_, _, _, _, (Option.some.inj h).symm⟩
    · rw [emitAck_cons hd h0] at h
      exact ⟨_, _, _, _, (Option.some.inj h).symm⟩

theorem Inv.emitAck {s t : State} (h : Inv s) (h0 : s.rxq.size ≠ 0#8) (he : emitAck s = some t) : Inv t := by
  cases hd : s.draws with
  | nil => rw [emitAck_nil hd] at he; cases he
  | cons u us =>
    rw [emitAck_cons hd h0, Option.some.injEq] at he
    subst he
    have hq := Queue.popped_wf h.queues.rxq (capacity_bounds h.cfg_valid .rxq).2 h0
    exact (h.receiver hq h.rx_exp).ports _ _ _ _ _

theorem Inv.drainLoop {n : Nat} : ∀ {s t : State}, Inv s → drainLoop n s = some t → Inv t := by
  induction n with
  | zero =>
    intro s t h hd
    obtain rfl : s = t := Option.some.inj hd
    exact h
  | succ n ih =>
    intro s t h hd
    rw [Machine.drainLoop] at hd
    split at hd
    · obtain rfl : s = t := Option.some.inj hd
      exact h
    · rename_i h0
      split at hd
      · cases hd
      · rename_i u hu
        exact ih (h.emitAck h0 hu) hd

theorem Inv.ackWhenDeep {s t : State} (h : Inv s) (ha : ackWhenDeep s = some t) : Inv t := by
  unfold Machine.ackWhenDeep at ha
  split at ha
  · rename_i hdeep
    have hd := (capacity_bounds h.cfg_valid .rxq).1
    exact h.emitAck (toNat_ne_zero8.2 (Nat.lt_of_lt_of_le hd hdeep)) ha
  · obtain rfl : s = t := Option.some.inj ha
    exact h

theorem Inv.qenq_rxq {s : State} (h : Inv s) (v : Byte) : Inv (qenq .rxq v s).2 := by
  by_cases hf : s.rxq.size.toNat = s.cfg.d
  · rw [qenq_full (sel := .rxq) hf]
    exact h.ports _ _ _ _ _
  · rw [qenq_rxq_ok hf]
    exact h.receiver (Queue.pushed_wf h.queues.rxq (capacity_bounds h.cfg_valid .rxq).2 (h.queues.room (sel := .rxq) hf) v)
      h.rx_exp

/-! ## Commands and steps -/

theorem Inv.queueChange {s t : State} (h : Inv s) (hi : s.fsm = .idle) (hc : QueueChange s t) (hw : QueuesWf t) : Inv t := by
  obtain ⟨tq, rq, a, e, r, rfl, ha⟩ := hc
  obtain ⟨hat, htt⟩ := h.idle_timers hi
  refine .of_idle hi h.cfg_valid hw h.sent_le h.next_seq h.rx_exp (fun i => ?_) hat htt
  by_contra hb
  have hold : ackBit s i = true := ha i (by simpa [ackBit] using hb)
  simp [h.no_ackBit hi] at hold

theorem Inv.arqRsp {s : State} (h : Inv s) (s0 : State) (st : Status) : Inv (arqRsp s0 st s) := h.ports _ _ _ _ _

theorem Inv.unlessBusy {f : State → State} {s : State} (h : Inv s) (hc : QueueChange s (f s)) (hw : QueuesWf (f s)) :
    Inv (unlessBusy f s) := by
  cases hs : s.fsm with
  | idle => rw [unlessBusy_idle hs]; exact h.queueChange hs hc hw
  | transmitting => rw [unlessBusy_busy hs]; exact h.ports _ _ _ _ _

theorem Inv.deliverAck {s : State} (h : Inv s) (ht : s.fsm = .transmitting) (x m : Byte) (s0 : State) :
    Inv (deliverAck x m s0 s) := by
  unfold Machine.deliverAck
  split
  · exact h.arqRsp _ _
  · split
    · exact h.arqRsp _ _
    · exact h.arqRsp _ _
    · rename_i t hp
      exact ((h.unchecked ht).ackProgress_inv hp).arqRsp _ _

/-- A command whose draws are at hand answers `f`'s state with its response. -/
theorem completing_map_next {o : Option State} {f : State → State} {t : State} :
    completing (o.map f) = .next t ↔ ∃ u, o = some u ∧ f u = t := by
  rw [completing_next, Option.map_eq_some_iff]

/-- ARQ.RXACK ignored in Idle, dropped by the channel, or delivered (R145). -/
theorem execArqRxack_next {x m : Byte} {s t : State} (h : execArqRxack x m s = .next t) :
    t = arqRsp s .idleIgnored s ∨ s.fsm = .transmitting ∧ ∃ us,
      t = arqRsp s .ackDropped { s with draws := us } ∨ t = deliverAck x m s { s with draws := us } := by
  unfold execArqRxack at h
  split at h
  · exact .inl (Host.Outcome.next.inj h).symm
  · rename_i hs
    refine .inr ⟨hs, ?_⟩
    cases hd : s.draws with
    | nil => rw [drawLoss_nil hd] at h; cases h
    | cons u us =>
      rw [drawLoss_cons hd] at h
      refine ⟨us, ?_⟩
      cases hb : dropped u s.cfg.pAckIn with
      | true => rw [hb] at h; exact .inl (Host.Outcome.next.inj h).symm
      | false => rw [hb] at h; exact .inr (Host.Outcome.next.inj h).symm

/-- ARQ.TICK ignored in Idle, or the two timer tests one after the other (R150). -/
theorem execArqTick_next {s t : State} (h : execArqTick s = .next t) :
    t = arqRsp s .idleIgnored s ∨ s.fsm = .transmitting ∧ ∃ a u,
      ackTimerTest (countTick s) = some a ∧ txTimerTest a = some u ∧ t = arqRsp s .ok u := by
  unfold execArqTick at h
  split at h
  · exact .inl (Host.Outcome.next.inj h).symm
  · rename_i hs
    obtain ⟨u, hu, rfl⟩ := completing_map_next.1 h
    obtain ⟨a, ha, hb⟩ := Option.bind_eq_some_iff.1 hu
    exact .inr ⟨hs, a, u, ha, hb, rfl⟩

theorem Inv.execArqCtrl {b0 b1 : Byte} {s t : State} (h : Inv s) (he : execArqCtrl b0 b1 s = .next t) : Inv t := by
  unfold Machine.execArqCtrl at he
  split at he
  · obtain ⟨u, hu, rfl⟩ := completing_map_next.1 he
    exact ((startSession_unchecked h.cfg_valid h.queues).fillLoop hu).checkDone_inv.arqRsp _ _
  · exact Host.Outcome.next.inj he ▸ h.arqRsp _ _

theorem Inv.acceptFrame {s : State} (h : Inv s) (x : Byte) : Inv (acceptFrame x s) :=
  (h.receiver h.queues.rxq (inSeqSpace_nextSeqOf h.cfg_valid h.rx_exp)).ports _ _ _ _ _

theorem Inv.execArqRxdata {x : Byte} {s t : State} (h : Inv s) (he : execArqRxdata x s = .next t) : Inv t := by
  unfold Machine.execArqRxdata at he
  split at he
  · exact Host.Outcome.next.inj he ▸ h.arqRsp _ _
  · obtain ⟨u, hu, rfl⟩ := completing_map_next.1 he
    exact (((h.acceptFrame x).qenq_rxq x).ackWhenDeep hu).arqRsp _ _

theorem Inv.execArqRxack {x m : Byte} {s t : State} (h : Inv s) (he : execArqRxack x m s = .next t) : Inv t := by
  rcases execArqRxack_next he with rfl | ⟨hs, us, rfl | rfl⟩
  · exact h.arqRsp _ _
  all_goals have hdrawn : Inv { s with draws := us } := h.ports _ _ _ _ _
  · exact hdrawn.arqRsp _ _
  · exact hdrawn.deliverAck hs x m s

theorem Inv.execArqTick {s t : State} (h : Inv s) (he : execArqTick s = .next t) : Inv t := by
  rcases execArqTick_next he with rfl | ⟨hs, a, u, ha, hu, rfl⟩
  · exact h.arqRsp _ _
  · exact (h.tick hs ha hu).arqRsp _ _

theorem Inv.execArqEom {s t : State} (h : Inv s) (he : execArqEom s = .next t) : Inv t := by
  obtain ⟨u, hu, rfl⟩ := completing_map_next.1 he
  exact (h.drainLoop hu).arqRsp _ _

theorem Inv.execArqDisc {s t : State} (h : Inv s) (he : execArqDisc s = .next t) : Inv t :=
  Host.Outcome.next.inj he ▸ (disconnected_inv h.cfg_valid h.queues).arqRsp _ _

theorem Inv.exec_readsOnly {i : Instr} {s t : State} (h : Inv s) (he : exec i s = .next t) (hi : readsOnly i) : Inv t := by
  obtain ⟨e, r, hr⟩ := Machine.exec_readsOnly hi s
  exact Host.Outcome.next.inj (hr.symm.trans he) ▸ h.ports _ _ _ _ _

theorem Inv.exec_changesQueue {i : Instr} {s t : State} (h : Inv s) (he : exec i s = .next t) (hi : changesQueue i) :
    Inv t := by
  obtain ⟨f, hf, hc, hw⟩ := Machine.exec_changesQueue hi
  exact Host.Outcome.next.inj ((hf s).symm.trans he) ▸ h.unlessBusy (hc s) (hw s h.cfg_valid h.queues)

theorem Inv.exec {i : Instr} {s t : State} (h : Inv s) (he : exec i s = .next t) : Inv t := by
  cases i with
  | nop | fecEnc | fecSyn | fecCor | fecDec | qFront | qRear | qSize | frmClass | regRd | regClrerr =>
    exact h.exec_readsOnly he trivial
  | qEnq | qDeq | qClear => exact h.exec_changesQueue he trivial
  | arqCtrl => exact h.execArqCtrl he
  | arqRxdata => exact h.execArqRxdata he
  | arqRxack => exact h.execArqRxack he
  | arqTick => exact h.execArqTick he
  | arqEom => exact h.execArqEom he
  | arqDisc => exact h.execArqDisc he

theorem Inv.runWord {w : Word} {s t : State} (h : Inv s) (hr : runWord w s = .next t) : Inv t := by
  unfold Machine.runWord at hr
  split at hr
  · exact h.exec hr
  · exact Host.Outcome.next.inj hr ▸ h.ports _ _ _ _ _

/-- A command taken from the port runs to completion, or waits for a draw until a hardware reset abandons it (R220). -/
theorem runCommand_cases {w : Word} {s t : State} (h : runCommand w s = .next t) :
    runWord w s = .next t ∨
      ∃ rest, s.inputs = .hardReset :: rest ∧
        t = abandon w (s.draws.length + 1) s.draws.length { s with inputs := rest } := by
  by_cases hr : s.inputs.head? = some .hardReset
  · obtain ⟨rest, hi⟩ := List.head?_eq_some_iff.1 hr
    unfold runCommand abandonIfStalled at h
    rw [nextInput_cons hi] at h
    cases hw : runWord w s with
    | next u => rw [hw] at h; exact .inl h
    | fault f => rw [hw] at h; exact .inr ⟨rest, hi, (Host.Outcome.next.inj h).symm⟩
    | refused r => rw [hw] at h; cases h
  · rw [runCommand_of_no_reset hr] at h
    exact .inl h

theorem Inv.runCommand {w : Word} {s t : State} (h : Inv s) (hr : runCommand w s = .next t) : Inv t := by
  rcases runCommand_cases hr with hr | ⟨rest, -, rfl⟩
  · exact h.runWord hr
  · exact abandon_inv (s := { s with inputs := rest }) h.cfg_valid ⟨h.queues.txq, h.queues.rxq⟩ _ _ _

/-- Settles O53: the inputs one by one; a command by `Inv.exec`, and a reset or an abandoned command ends in the reset
values, for which well-formed queues are enough. -/
theorem stepKeepsTheInvariant : Obligations.StepKeepsTheInvariant := by
  intro s t h hstep
  unfold step at hstep
  cases hi : s.inputs with
  | nil =>
    simp only [nextInput_nil hi, ifValid_valid h.cfg_valid] at hstep
    obtain rfl := Host.Outcome.next.inj hstep
    exact h
  | cons i rest =>
    have htaken : Inv { s with inputs := rest } := h.ports _ _ _ _ _
    simp only [nextInput_cons hi] at hstep
    cases i with
    | hardReset =>
      simp only [ifValid_valid h.cfg_valid] at hstep
      obtain rfl := Host.Outcome.next.inj hstep
      exact hardReset_inv htaken.cfg_valid htaken.queues
    | command w =>
      simp only [ifValid_valid h.cfg_valid] at hstep
      exact htaken.runCommand hstep
    | abandoned w nEvents nDraws =>
      simp only [ifValid_valid h.cfg_valid] at hstep
      obtain rfl := Host.Outcome.next.inj hstep
      exact abandon_inv htaken.cfg_valid htaken.queues _ _ _

end Sys2Proof.Machine

/-! The queue commands as a bounded first-in first-out list (10_state.md R27, R28; 40_queue.md section 1, R87 to R92): the
entries, oldest first, after each primitive, and each command in Idle said on that list. -/

namespace Sys2Proof.Machine

/-! ## The list of entries -/

namespace Queue

variable {cap : Nat} {q : Queue}

theorem entries_pushed (hq : q.Wf cap) (hcap : cap ≤ 255) (h : q.size.toNat < cap) (v : Byte) :
    (q.pushed cap v).entries cap = q.entries cap ++ [v] := by
  rw [entries, pushed_size_toNat hcap h, List.range_succ, List.map_append, entries]
  congr 1
  · exact List.map_congr_left fun j hj => pushed_entry_old hq h v (List.mem_range.1 hj)
  · rw [List.map_singleton, pushed_entry_new hq h]

/-- The last entry stands in the slot that the rear register names. -/
theorem entries_eq_append_rear (hq : q.Wf cap) (h : q.size ≠ 0#8) :
    ∃ xs, q.entries cap = xs ++ [q.slotAt q.rear.toNat] := by
  have hs : q.size.toNat = (q.size.toNat - 1) + 1 := by
    have := toNat_ne_zero8.1 h
    omega
  refine ⟨(List.range (q.size.toNat - 1)).map (q.entry cap), ?_⟩
  rw [entries, hs, List.range_succ, List.map_append, List.map_singleton, ← hs, entry, entryIndex_last hq h]

theorem size_ne_zero_of_entries (h : q.entries cap ≠ []) : q.size ≠ 0#8 := fun h0 => h (entries_nil h0)

theorem size_eq_zero_of_entries (h : q.entries cap = []) : q.size = 0#8 := by
  have hl := entries_length cap q
  rw [h] at hl
  exact BitVec.eq_of_toNat_eq hl.symm

end Queue

@[simp] theorem entriesOf_length (s : State) (q : QSel) : (s.entriesOf q).length = (s.queue q).size.toNat :=
  Queue.entries_length _ _

/-! ## The primitives on the list -/

@[simp] theorem qenq_rsps (q : QSel) (v : Byte) (s : State) : (qenq q v s).2.rsps = s.rsps := by
  by_cases h : (s.queue q).size.toNat = capacity s.cfg q
  · rw [qenq_full h]; rfl
  · simp [qenq_ok h]

@[simp] theorem qdeq_rsps (q : QSel) (s : State) : (qdeq q s).2.rsps = s.rsps := by
  by_cases h : (s.queue q).size = 0#8
  · rw [qdeq_empty h]; rfl
  · simp [qdeq_ok h]

theorem qenq_queue {q : QSel} {s : State} (h : (s.queue q).size.toNat ≠ capacity s.cfg q) (v : Byte) :
    (qenq q v s).2.queue q = (s.queue q).pushed (capacity s.cfg q) v := by
  rw [qenq_ok h, clearSlotAck_queue, setQueue_queue]

theorem qdeq_queue {q : QSel} {s : State} (h : (s.queue q).size ≠ 0#8) :
    (qdeq q s).2.queue q = (s.queue q).popped (capacity s.cfg q) := by
  rw [qdeq_ok h, setQueue_queue]

theorem qclear_queue (q : QSel) (s : State) : (qclear q s).queue q = (s.queue q).cleared (capacity s.cfg q) := by
  rw [qclear, clearQueueAcks_queue, setQueue_queue]

/-- Each primitive leaves the other queue alone. -/
theorem qenq_queue_ne {q q' : QSel} (h : q' ≠ q) (v : Byte) (s : State) : (qenq q v s).2.queue q' = s.queue q' := by
  by_cases hf : (s.queue q).size.toNat = capacity s.cfg q
  · rw [qenq_full hf, setErr_queue]
  · rw [qenq_ok hf, clearSlotAck_queue, setQueue_queue_ne h]

theorem qdeq_queue_ne {q q' : QSel} (h : q' ≠ q) (s : State) : (qdeq q s).2.queue q' = s.queue q' := by
  by_cases h0 : (s.queue q).size = 0#8
  · rw [qdeq_empty h0, setErr_queue]
  · rw [qdeq_ok h0, setQueue_queue_ne h, clearSlotAck_queue]

theorem qclear_queue_ne {q q' : QSel} (h : q' ≠ q) (s : State) : (qclear q s).queue q' = s.queue q' := by
  rw [qclear, clearQueueAcks_queue, setQueue_queue_ne h]

theorem qclear_cfg (q : QSel) (s : State) : (qclear q s).cfg = s.cfg := by
  rw [qclear, clearQueueAcks_cfg, setQueue_cfg]

theorem qclear_rsps (q : QSel) (s : State) : (qclear q s).rsps = s.rsps := by
  rw [qclear, clearQueueAcks_rsps, setQueue_rsps]

/-! ## The commands on the list, in Idle -/

section
variable {q : QSel} {s : State} (hv : s.cfg.valid = true) (hw : QueuesWf s) (hi : s.fsm = .idle)
include hv hw hi

theorem exec_qEnq_room (v : Byte) (h : (s.entriesOf q).length < capacity s.cfg q) :
    ∃ t, exec (.qEnq q v) s = .next t ∧ QueuesWf t ∧ t.entriesOf q = s.entriesOf q ++ [v] ∧
      (∀ q', q' ≠ q → t.entriesOf q' = s.entriesOf q') ∧
      t.rsps = s.rsps ++ [⟨.ok, BitVec.ofNat 24 ((s.entriesOf q).length + 1)⟩] := by
  rw [entriesOf_length] at h ⊢
  have hroom : (s.queue q).size.toNat ≠ capacity s.cfg q := Nat.ne_of_lt h
  have hcap := (capacity_bounds hv q).2
  have hq := queuesWf_iff.1 hw q
  have hsize : (qsize q (qenq q v s).2).toNat = (s.queue q).size.toNat + 1 := by
    rw [qsize, qenq_queue hroom, Queue.pushed_size_toNat hcap h]
  refine ⟨_, congrArg Host.Outcome.next ((unlessBusy_idle hi _).trans (enqCommand_ok hroom v)), ?_, ?_, fun q' hne => ?_, ?_⟩
  · exact (hw.qenq hv q v).congr rfl fun _ => respond_queue ..
  · rw [State.entriesOf, respond_queue, qenq_queue hroom, respond_cfg, qenq_cfg, Queue.entries_pushed hq hcap h]
    rfl
  · exact entriesOf_congr (qenq_cfg q v s) ((respond_queue ..).trans (qenq_queue_ne hne v s))
  · rw [respond_rsps, qenq_rsps, ← BitVec.ofNat_toNat, hsize]

omit hv in
theorem exec_qEnq_full (v : Byte) (h : (s.entriesOf q).length = capacity s.cfg q) :
    ∃ t, exec (.qEnq q v) s = .next t ∧ QueuesWf t ∧ (∀ q', t.entriesOf q' = s.entriesOf q') ∧
      t.rsps = s.rsps ++ [⟨.qFull, BitVec.ofNat 24 (s.entriesOf q).length⟩] := by
  have hfull : (s.queue q).size.toNat = capacity s.cfg q := (entriesOf_length s q).symm.trans h
  have hqueue : ∀ st d q', (respond st d (setErr .qFull s)).queue q' = s.queue q' := fun st d q' => by
    rw [respond_queue, setErr_queue]
  refine ⟨_, congrArg Host.Outcome.next ((unlessBusy_idle hi _).trans (enqCommand_full hfull v)), hw.congr rfl (hqueue _ _),
    fun q' => entriesOf_congr rfl (hqueue _ _ q'), ?_⟩
  rw [h]
  rfl

theorem exec_qDeq_cons {v : Byte} {vs : List Byte} (h : s.entriesOf q = v :: vs) :
    ∃ t, exec (.qDeq q) s = .next t ∧ QueuesWf t ∧ t.entriesOf q = vs ∧
      (∀ q', q' ≠ q → t.entriesOf q' = s.entriesOf q') ∧ t.rsps = s.rsps ++ [⟨.ok, BitVec.ofNat 24 vs.length⟩] := by
  have h0 : (s.queue q).size ≠ 0#8 := Queue.size_ne_zero_of_entries (by rw [← State.entriesOf, h]; simp)
  have hcons := Queue.entries_cons (capacity_bounds hv q).2 (queuesWf_iff.1 hw q) h0
  have hpopped : ((s.queue q).popped (capacity s.cfg q)).entries (capacity s.cfg q) = vs :=
    (List.cons.inj (hcons.symm.trans h)).2
  have hsize : (qsize q (qdeq q s).2).toNat = vs.length := by
    rw [qsize, qdeq_queue h0, ← hpopped, Queue.entries_length]
  refine ⟨_, congrArg Host.Outcome.next ((unlessBusy_idle hi _).trans (deqCommand_ok h0)), ?_, ?_, fun q' hne => ?_, ?_⟩
  · exact (hw.qdeq hv q).congr rfl fun _ => respond_queue ..
  · rw [State.entriesOf, respond_queue, qdeq_queue h0, respond_cfg, qdeq_cfg, hpopped]
  · exact entriesOf_congr (qdeq_cfg q s) ((respond_queue ..).trans (qdeq_queue_ne hne s))
  · rw [respond_rsps, qdeq_rsps, ← BitVec.ofNat_toNat, hsize]

theorem exec_qClear_entries : ∃ t, exec (.qClear q) s = .next t ∧ QueuesWf t ∧ t.entriesOf q = [] ∧
    (∀ q', q' ≠ q → t.entriesOf q' = s.entriesOf q') ∧ t.rsps = s.rsps ++ [⟨.ok, 0#24⟩] := by
  refine ⟨_, congrArg Host.Outcome.next (unlessBusy_idle hi _), ?_, ?_, fun q' hne => ?_, ?_⟩
  · exact (hw.qclear hv q).congr rfl fun _ => respond_queue ..
  · rw [State.entriesOf, clearCommand, respond_queue, qclear_queue]
    exact Queue.entries_nil (Queue.cleared_size _)
  · exact entriesOf_congr (qclear_cfg q s) ((respond_queue ..).trans (qclear_queue_ne hne s))
  · rw [clearCommand, respond_rsps, qclear_rsps]

omit hv hi in
theorem exec_qFront_cons {v : Byte} {vs : List Byte} (hcap : capacity s.cfg q ≤ 255) (h : s.entriesOf q = v :: vs) :
    exec (.qFront q) s = .next { s with rsps := s.rsps ++ [⟨.ok, v.setWidth 24⟩] } := by
  have h0 : (s.queue q).size ≠ 0#8 := Queue.size_ne_zero_of_entries (by rw [← State.entriesOf, h]; simp)
  have hfront : (s.queue q).slotAt (s.queue q).front.toNat = v :=
    (List.cons.inj ((Queue.entries_cons hcap (queuesWf_iff.1 hw q) h0).symm.trans h)).1
  rw [exec, execQFront, qfront_value h0, hfront]
  rfl

omit hv hi in
theorem exec_qRear_append {v : Byte} {vs : List Byte} (h : s.entriesOf q = vs ++ [v]) :
    exec (.qRear q) s = .next { s with rsps := s.rsps ++ [⟨.ok, v.setWidth 24⟩] } := by
  have h0 : (s.queue q).size ≠ 0#8 := Queue.size_ne_zero_of_entries (by rw [← State.entriesOf, h]; simp)
  obtain ⟨xs, hxs⟩ := Queue.entries_eq_append_rear (queuesWf_iff.1 hw q) h0
  have hrear : (s.queue q).slotAt (s.queue q).rear.toNat = v :=
    List.singleton_inj.1 (List.append_inj' (hxs.symm.trans h) rfl).2
  rw [exec, execQRear, qrear_value h0, hrear]
  rfl

omit hv hw in
/-- The empty list is reported by the commands that need an entry. -/
theorem exec_on_empty (h : s.entriesOf q = []) : ∀ i ∈ [Instr.qDeq q, .qFront q, .qRear q],
    exec i s = .next { s with err := s.err ||| 0b00100#5, rsps := s.rsps ++ [⟨.qEmpty, 0#24⟩] } := by
  have h0 : (s.queue q).size = 0#8 := Queue.size_eq_zero_of_entries h
  refine List.forall_mem_cons.2 ⟨?_, List.forall_mem_cons.2 ⟨?_, List.forall_mem_singleton.2 ?_⟩⟩
  · exact congrArg Host.Outcome.next ((unlessBusy_idle hi _).trans (deqCommand_empty h0))
  · rw [exec, execQFront, qfront_empty h0]; rfl
  · rw [exec, execQRear, qrear_empty h0]; rfl

end

theorem exec_qSize_entries (q : QSel) (s : State) :
    exec (.qSize q) s = .next { s with rsps := s.rsps ++ [⟨.ok, BitVec.ofNat 24 (s.entriesOf q).length⟩] } := by
  rw [entriesOf_length, BitVec.ofNat_toNat]
  rfl

/-- Settles O33, command by command. -/
theorem queuesAreBoundedFifos : Obligations.QueuesAreBoundedFifos := by
  intro q s hv hw hi
  exact ⟨exec_qEnq_room hv hw hi, exec_qEnq_full hw hi, fun v vs => exec_qDeq_cons hv hw hi,
    fun v vs => exec_qFront_cons hw (capacity_bounds hv q).2, fun v vs => exec_qRear_append hw, exec_on_empty hi,
    exec_qClear_entries hv hw hi, exec_qSize_entries q s⟩

end Sys2Proof.Machine

/-! Which commands write the ARQ registers (10_state.md R21 to R31, R33; 60_exceptions.md R197): what each ARQ procedure
leaves unchanged, and the registers command by command. -/

namespace Sys2Proof.Machine

/-- FSM, NEXT_SEQ, SENT_COUNT, RX_EXP and the timers are those of `s`. -/
structure SameRegisters (s t : State) : Prop where
  fsm : t.fsm = s.fsm
  ackTimer : t.ackTimer = s.ackTimer
  txTimer : t.txTimer = s.txTimer
  nextSeq : t.nextSeq = s.nextSeq
  sentCount : t.sentCount = s.sentCount
  rxExp : t.rxExp = s.rxExp

theorem SameRegisters.refl (s : State) : SameRegisters s s := ⟨rfl, rfl, rfl, rfl, rfl, rfl⟩

theorem SameRegisters.trans {s t u : State} (h : SameRegisters s t) (h' : SameRegisters t u) : SameRegisters s u :=
  ⟨h'.fsm.trans h.fsm, h'.ackTimer.trans h.ackTimer, h'.txTimer.trans h.txTimer, h'.nextSeq.trans h.nextSeq,
    h'.sentCount.trans h.sentCount, h'.rxExp.trans h.rxExp⟩

theorem QueueChange.sameRegisters {s t : State} (h : QueueChange s t) : SameRegisters s t := by
  obtain ⟨tq, rq, a, e, r, rfl, -⟩ := h
  exact ⟨rfl, rfl, rfl, rfl, rfl, rfl⟩

theorem arqRsp_sameRegisters (s0 s : State) (st : Status) : SameRegisters s (arqRsp s0 st s) := ⟨rfl, rfl, rfl, rfl, rfl, rfl⟩

theorem emitAck_sameRegisters {s t : State} (h : emitAck s = some t) : SameRegisters s t := by
  obtain ⟨q, d, ev, e, rfl⟩ := emitAck_rest h
  exact ⟨rfl, rfl, rfl, rfl, rfl, rfl⟩

theorem ackWhenDeep_sameRegisters {s t : State} (h : ackWhenDeep s = some t) : SameRegisters s t := by
  unfold ackWhenDeep at h
  split at h
  · exact emitAck_sameRegisters h
  · exact Option.some.inj h ▸ .refl s

theorem drainLoop_sameRegisters {n : Nat} : ∀ {s t : State}, drainLoop n s = some t → SameRegisters s t := by
  induction n with
  | zero => exact fun h => Option.some.inj h ▸ .refl _
  | succ n ih =>
    intro s t h
    rw [drainLoop] at h
    split at h
    · exact Option.some.inj h ▸ .refl s
    · split at h
      · cases h
      · rename_i u hu
        exact (emitAck_sameRegisters hu).trans (ih h)

/-- `check_done` writes FSM and the timers only. -/
theorem checkDone_counters (s : State) :
    (checkDone s).nextSeq = s.nextSeq ∧ (checkDone s).sentCount = s.sentCount ∧ (checkDone s).rxExp = s.rxExp := by
  by_cases h : s.fsm = .transmitting ∧ s.sentCount.toNat = s.cfg.m ∧ s.txq.size = 0#8
  · rw [checkDone_done h]; exact ⟨rfl, rfl, rfl⟩
  · rw [checkDone_not h]; exact ⟨rfl, rfl, rfl⟩

/-! ## Command by command -/

theorem exec_sameRegisters {i : Instr} {s t : State} (he : exec i s = .next t) (h : readsOnly i ∨ changesQueue i) :
    SameRegisters s t := by
  rcases h with h | h
  · obtain ⟨e, r, hr⟩ := exec_readsOnly h s
    exact Host.Outcome.next.inj (hr.symm.trans he) ▸ ⟨rfl, rfl, rfl, rfl, rfl, rfl⟩
  · obtain ⟨f, hf, hc, -⟩ := exec_changesQueue h
    exact Host.Outcome.next.inj ((hf s).symm.trans he) ▸ (unlessBusy_queueChange (hc s)).sameRegisters

theorem execArqCtrl_sameRegisters {b0 b1 : Byte} {s t : State} (hb : ¬(b0 = startByte0 ∧ b1 = startByte1))
    (he : execArqCtrl b0 b1 s = .next t) : SameRegisters s t := by
  rw [execArqCtrl, if_neg hb] at he
  exact Host.Outcome.next.inj he ▸ arqRsp_sameRegisters s s _

/-- ARQ.RXDATA writes no register but RX_EXP. -/
theorem execArqRxdata_sameRegisters {x : Byte} {s t : State} (he : execArqRxdata x s = .next t) :
    ∃ y, SameRegisters { s with rxExp := y } t := by
  unfold execArqRxdata at he
  split at he
  · exact ⟨s.rxExp, Host.Outcome.next.inj he ▸ arqRsp_sameRegisters s s _⟩
  · obtain ⟨u, hu, rfl⟩ := completing_map_next.1 he
    have haccept : SameRegisters { s with rxExp := nextSeqOf s.cfg s.rxExp } (acceptFrame x s) := ⟨rfl, rfl, rfl, rfl, rfl, rfl⟩
    exact ⟨_, haccept.trans ((qenq_queueChange .rxq x (acceptFrame x s)).sameRegisters.trans
      ((ackWhenDeep_sameRegisters hu).trans (arqRsp_sameRegisters s u _)))⟩

/-- ARQ.RXACK writes no counter. -/
theorem execArqRxack_counters {x m : Byte} {s t : State} (he : execArqRxack x m s = .next t) :
    t.nextSeq = s.nextSeq ∧ t.sentCount = s.sentCount ∧ t.rxExp = s.rxExp := by
  rcases execArqRxack_next he with rfl | ⟨-, us, rfl | rfl⟩
  · exact ⟨rfl, rfl, rfl⟩
  · exact ⟨rfl, rfl, rfl⟩
  · unfold deliverAck
    split
    · exact ⟨rfl, rfl, rfl⟩
    · split
      · exact ⟨rfl, rfl, rfl⟩
      · exact ⟨rfl, rfl, rfl⟩
      · rename_i u hp
        obtain ⟨q, a, rfl⟩ := takeAck_rest hp
        exact checkDone_counters _

/-- ARQ.TICK writes neither FSM nor RX_EXP. -/
theorem execArqTick_fsm {s t : State} (he : execArqTick s = .next t) : t.fsm = s.fsm ∧ t.rxExp = s.rxExp := by
  rcases execArqTick_next he with rfl | ⟨-, a, u, ha, hu, rfl⟩
  · exact ⟨rfl, rfl⟩
  · obtain ⟨x, d, ev, rfl, -⟩ := ackTimerTest_some ha
    obtain ⟨y, -, rfl | ⟨hc, hs⟩⟩ := txTimerTest_some hu
    · exact ⟨rfl, rfl⟩
    · obtain ⟨d', ev', rfl⟩ := sendNew_some hc hs
      exact ⟨rfl, rfl⟩

/-- With every register kept, none is written, whatever the condition. -/
theorem SameRegisters.guarded {s t : State} (h : SameRegisters s t) {a b c d e : Prop} :
    (a → t.fsm = s.fsm) ∧ (b → c → t.ackTimer = s.ackTimer ∧ t.txTimer = s.txTimer) ∧
      (d → t.nextSeq = s.nextSeq ∧ t.sentCount = s.sentCount) ∧ (e → t.rxExp = s.rxExp) :=
  ⟨fun _ => h.fsm, fun _ _ => ⟨h.ackTimer, h.txTimer⟩, fun _ => ⟨h.nextSeq, h.sentCount⟩, fun _ => h.rxExp⟩

/-- Settles O59: most commands keep every register (`SameRegisters`); the three that do not, by what each writes. -/
theorem onlyNamedCommandsWriteTheArqRegisters : Obligations.OnlyNamedCommandsWriteTheArqRegisters := by
  intro i s t he hctrl hdisc
  cases i with
  | nop | fecEnc | fecSyn | fecCor | fecDec | qFront | qRear | qSize | frmClass | regRd | regClrerr =>
    exact (exec_sameRegisters he (.inl trivial)).guarded
  | qEnq | qDeq | qClear => exact (exec_sameRegisters he (.inr trivial)).guarded
  | arqCtrl b0 b1 =>
    refine (execArqCtrl_sameRegisters ?_ he).guarded
    rintro ⟨rfl, rfl⟩
    exact hctrl rfl
  | arqRxdata x =>
    obtain ⟨y, h⟩ := execArqRxdata_sameRegisters he
    exact ⟨fun _ => h.fsm, fun _ _ => ⟨h.ackTimer, h.txTimer⟩, fun _ => ⟨h.nextSeq, h.sentCount⟩,
      fun hx => absurd rfl (hx x)⟩
  | arqRxack x m =>
    obtain ⟨hn, hs, hx⟩ := execArqRxack_counters he
    exact ⟨fun h => absurd rfl (h x m), fun h => absurd rfl (h x m), fun _ => ⟨hn, hs⟩, fun _ => hx⟩
  | arqTick =>
    obtain ⟨hf, hx⟩ := execArqTick_fsm he
    exact ⟨fun _ => hf, fun _ h => absurd rfl h, fun h => absurd rfl h, fun _ => hx⟩
  | arqEom =>
    obtain ⟨u, hu, rfl⟩ := completing_map_next.1 he
    exact ((drainLoop_sameRegisters hu).trans (arqRsp_sameRegisters s u _)).guarded
  | arqDisc => exact absurd rfl hdisc

end Sys2Proof.Machine

/-! Slots that hold no entry are never read (10_state.md R28): a simulation. `Twins` relates two states of a built block
that differ in such slots only, every procedure takes twins to twins, and so does every step. -/

namespace Sys2Proof.Machine

/-! ## Queues that differ in free slots only -/

namespace Queue

variable {cap : Nat} {a b : Queue}

theorem SameEntries.of_empty (hs : a.slot.length = b.slot.length) (hf : a.front = b.front) (hr : a.rear = b.rear)
    (ha : a.size = 0#8) (hb : b.size = 0#8) : a.SameEntries cap b :=
  ⟨hs, hf, hr, ha.trans hb.symm, fun j hj => absurd hj (by simp [ha])⟩

theorem SameEntries.entryIndex (h : a.SameEntries cap b) (j : Nat) : b.entryIndex cap j = a.entryIndex cap j := by
  rw [Queue.entryIndex, Queue.entryIndex, h.front]

theorem SameEntries.wf (h : a.SameEntries cap b) (hw : a.Wf cap) : b.Wf cap where
  slots := h.slots ▸ hw.slots
  size_le := h.size ▸ hw.size_le
  front_lt := h.front ▸ hw.front_lt
  rear_lt := h.rear ▸ hw.rear_lt
  rear_eq := h.rear ▸ h.front ▸ h.size ▸ hw.rear_eq

theorem SameEntries.nextRear (h : a.SameEntries cap b) : b.nextRear cap = a.nextRear cap := by
  rw [Queue.nextRear, Queue.nextRear, h.rear]

theorem SameEntries.cleared (h : a.SameEntries cap b) : (a.cleared cap).SameEntries cap (b.cleared cap) :=
  .of_empty h.slots rfl rfl rfl rfl

theorem SameEntries.pushed (h : a.SameEntries cap b) (hw : a.Wf cap) (hcap : cap ≤ 255) (hroom : a.size.toNat < cap)
    (v : Byte) : (a.pushed cap v).SameEntries cap (b.pushed cap v) where
  slots := by simp [h.slots]
  front := h.front
  rear := by rw [pushed_rear, pushed_rear, h.nextRear]
  size := by rw [pushed_size, pushed_size, h.size]
  entries := by
    intro j hj
    rw [pushed_size_toNat hcap hroom] at hj
    have hroom' : b.size.toNat < cap := h.size ▸ hroom
    rcases Nat.lt_or_ge j a.size.toNat with hold | hnew
    · rw [pushed_entry_old hw hroom v hold, pushed_entry_old (h.wf hw) hroom' v (h.size ▸ hold), h.entries j hold]
    · obtain rfl : j = a.size.toNat := by omega
      rw [pushed_entry_new hw hroom v]
      exact (h.size ▸ pushed_entry_new (h.wf hw) hroom' v : (b.pushed cap v).entry cap a.size.toNat = v).symm

theorem SameEntries.popped (h : a.SameEntries cap b) (hcap : cap ≤ 255) (hpos : 0 < cap) (h0 : a.size ≠ 0#8) :
    (a.popped cap).SameEntries cap (b.popped cap) where
  slots := h.slots
  front := by rw [popped_front, popped_front, h.front]
  rear := h.rear
  size := by rw [popped_size, popped_size, h.size]
  entries := by
    intro j hj
    have := toNat_ne_zero8.1 h0
    rw [popped_size_toNat h0] at hj
    rw [popped_entry hcap hpos, popped_entry hcap hpos, h.entries (j + 1) (by omega)]

/-- The end slots hold entries, unless there is none. -/
theorem SameEntries.frontSlot (h : a.SameEntries cap b) (hw : a.Wf cap) (h0 : a.size ≠ 0#8) :
    b.slotAt b.front.toNat = a.slotAt a.front.toNat := by
  have he := h.entries 0 (toNat_ne_zero8.1 h0)
  rw [entry, entry, entryIndex_zero hw, entryIndex_zero (h.wf hw)] at he
  exact he.symm

theorem SameEntries.rearSlot (h : a.SameEntries cap b) (hw : a.Wf cap) (h0 : a.size ≠ 0#8) :
    b.slotAt b.rear.toNat = a.slotAt a.rear.toNat := by
  have hpos := toNat_ne_zero8.1 h0
  have he := h.entries (a.size.toNat - 1) (by omega)
  rw [entry, entry, entryIndex_last hw h0, h.size, entryIndex_last (h.wf hw) (h.size ▸ h0)] at he
  exact he.symm

end Queue

/-! ## Twins -/

/-- Two states of a block built for a valid configuration, with well-formed queues, that differ in free slots only. -/
structure Twins (s t : State) : Prop where
  cfg_valid : s.cfg.valid = true
  queues : QueuesWf s
  same : SameButFreeSlots s t

/-- The state with other queues. -/
def withQueues (a b : Queue) (s : State) : State := { s with txq := a, rxq := b }

theorem Twins.of_queues {s : State} (hv : s.cfg.valid = true) (hw : QueuesWf s) {a b : Queue}
    (ha : s.txq.SameEntries s.cfg.w a) (hb : s.rxq.SameEntries s.cfg.d b) : Twins s (withQueues a b s) :=
  ⟨hv, hw, rfl, ha, hb⟩

theorem Twins.exists_queues {s t : State} (h : Twins s t) :
    ∃ a b, t = withQueues a b s ∧ s.txq.SameEntries s.cfg.w a ∧ s.rxq.SameEntries s.cfg.d b :=
  ⟨t.txq, t.rxq, h.same.rest.symm, h.same.txq, h.same.rxq⟩

/-- A change that looks at no queue keeps twins twins. -/
theorem Twins.map {s t : State} {g : State → State} (h : Twins s t)
    (hg : ∀ a b u, g (withQueues a b u) = withQueues a b (g u)) (hc : (g s).cfg = s.cfg) : Twins (g s) (g t) := by
  obtain ⟨a, b, rfl, ha, hb⟩ := h.exists_queues
  have hself : g s = withQueues s.txq s.rxq (g s) := hg s.txq s.rxq s
  have htx : (g s).txq = s.txq := by rw [hself]; rfl
  have hrx : (g s).rxq = s.rxq := by rw [hself]; rfl
  rw [hg]
  refine .of_queues (hc ▸ h.cfg_valid) (h.queues.congr hc fun q => ?_) (by rw [htx, hc]; exact ha) (by rw [hrx, hc]; exact hb)
  cases q
  · exact htx
  · exact hrx

section
variable {s t : State} (h : Twins s t)
include h

theorem Twins.cfg : t.cfg = s.cfg := (congrArg State.cfg h.same.rest).symm
theorem Twins.fsm : t.fsm = s.fsm := (congrArg State.fsm h.same.rest).symm
theorem Twins.nextSeq : t.nextSeq = s.nextSeq := (congrArg State.nextSeq h.same.rest).symm
theorem Twins.sentCount : t.sentCount = s.sentCount := (congrArg State.sentCount h.same.rest).symm
theorem Twins.rxExp : t.rxExp = s.rxExp := (congrArg State.rxExp h.same.rest).symm
theorem Twins.ackTimer : t.ackTimer = s.ackTimer := (congrArg State.ackTimer h.same.rest).symm
theorem Twins.txTimer : t.txTimer = s.txTimer := (congrArg State.txTimer h.same.rest).symm
theorem Twins.ackbits : t.ackbits = s.ackbits := (congrArg State.ackbits h.same.rest).symm
theorem Twins.inputs : t.inputs = s.inputs := (congrArg State.inputs h.same.rest).symm
theorem Twins.draws : t.draws = s.draws := (congrArg State.draws h.same.rest).symm
theorem Twins.events : t.events = s.events := (congrArg State.events h.same.rest).symm

theorem Twins.queue (q : QSel) : (s.queue q).SameEntries (capacity s.cfg q) (t.queue q) := by
  cases q
  · exact h.same.txq
  · exact h.same.rxq

theorem Twins.size (q : QSel) : (t.queue q).size = (s.queue q).size := (h.queue q).size.symm
theorem Twins.txq_size : t.txq.size = s.txq.size := h.size .txq
theorem Twins.rxq_size : t.rxq.size = s.rxq.size := h.size .rxq

theorem Twins.wf (q : QSel) : (s.queue q).Wf (capacity s.cfg q) := queuesWf_iff.1 h.queues q

theorem Twins.ackBit (i : Nat) : Machine.ackBit t i = Machine.ackBit s i := by
  rw [Machine.ackBit, h.ackbits, Machine.ackBit]

theorem Twins.setQueue {q : QSel} {x y : Queue} (hx : x.Wf (capacity s.cfg q)) (hxy : x.SameEntries (capacity s.cfg q) y) :
    Twins (s.setQueue q x) (t.setQueue q y) := by
  have hw := h.queues.setQueue hx
  obtain ⟨a, b, rfl, ha, hb⟩ := h.exists_queues
  cases q
  · exact ⟨h.cfg_valid, hw, rfl, hxy, hb⟩
  · exact ⟨h.cfg_valid, hw, rfl, ha, hxy⟩

theorem Twins.respond (st : Status) (d : BitVec 24) : Twins (respond st d s) (respond st d t) :=
  h.map (g := Machine.respond st d) (fun _ _ _ => rfl) rfl

theorem Twins.setErr (b : ErrBit) : Twins (setErr b s) (setErr b t) :=
  h.map (g := Machine.setErr b) (fun _ _ _ => rfl) rfl

theorem Twins.clearSlotAck (q : QSel) (i : Nat) : Twins (clearSlotAck q i s) (clearSlotAck q i t) :=
  h.map (g := Machine.clearSlotAck q i) (fun _ _ _ => by cases q <;> rfl) (clearSlotAck_cfg ..)

/-- The response of an ARQ command counts events and entries, and looks at no slot. -/
theorem Twins.arqRsp {s0 t0 : State} (h0 : Twins s0 t0) (st : Status) : Twins (arqRsp s0 st s) (arqRsp t0 st t) := by
  have hd : arqData t (t.events.length - t0.events.length) = arqData s (s.events.length - s0.events.length) := by
    rw [arqData, h.fsm, h.txq_size, h.events, h0.events, arqData]
  rw [Machine.arqRsp, Machine.arqRsp, hd]
  exact h.respond st _

/-! ## Queue primitives -/

theorem Twins.qenq (q : QSel) (v : Byte) : (qenq q v t).1 = (qenq q v s).1 ∧ Twins (qenq q v s).2 (qenq q v t).2 := by
  have hcap := (capacity_bounds h.cfg_valid q).2
  by_cases hf : (s.queue q).size.toNat = capacity s.cfg q
  · have hf' : (t.queue q).size.toNat = capacity t.cfg q := by rw [h.size, h.cfg, hf]
    rw [qenq_full hf, qenq_full hf']
    exact ⟨rfl, h.setErr .qFull⟩
  · have hf' : (t.queue q).size.toNat ≠ capacity t.cfg q := by rw [h.size, h.cfg]; exact hf
    have hroom := h.queues.room hf
    rw [qenq_ok hf, qenq_ok hf', h.cfg, (h.queue q).nextRear]
    exact ⟨rfl, (h.setQueue (Queue.pushed_wf (h.wf q) hcap hroom v) ((h.queue q).pushed (h.wf q) hcap hroom v)).clearSlotAck ..⟩

theorem Twins.qdeq (q : QSel) : (qdeq q t).1 = (qdeq q s).1 ∧ Twins (qdeq q s).2 (qdeq q t).2 := by
  obtain ⟨hpos, hcap⟩ := capacity_bounds h.cfg_valid q
  by_cases h0 : (s.queue q).size = 0#8
  · rw [qdeq_empty h0, qdeq_empty ((h.size q).trans h0)]
    exact ⟨rfl, h.setErr .qEmpty⟩
  · have h0' : (t.queue q).size ≠ 0#8 := by rw [h.size]; exact h0
    have hc := h.clearSlotAck q (s.queue q).front.toNat
    rw [qdeq_ok h0, qdeq_ok h0', h.cfg, ← (h.queue q).front]
    refine ⟨rfl, hc.setQueue ?_ ?_⟩ <;> rw [clearSlotAck_cfg]
    · exact Queue.popped_wf (h.wf q) hcap h0
    · exact (h.queue q).popped hcap hpos h0

theorem Twins.qclear (q : QSel) : Twins (qclear q s) (qclear q t) := by
  have hs := h.setQueue (h.queues.cleared h.cfg_valid q) (h.queue q).cleared
  rw [Machine.qclear, Machine.qclear, h.cfg]
  exact hs.map (g := clearQueueAcks q) (fun _ _ _ => by cases q <;> rfl) (clearQueueAcks_cfg ..)

theorem Twins.qfind (q : QSel) (v : Byte) : qfind q v t = qfind q v s := by
  rw [Machine.qfind, Machine.qfind, h.size, h.cfg]
  refine List.find?_congr fun j hj => ?_
  rw [(h.queue q).entries j (List.mem_range.1 hj)]

theorem Twins.peekResponse_qfront (q : QSel) : Twins (peekResponse (qfront q s)) (peekResponse (qfront q t)) := by
  by_cases h0 : (s.queue q).size = 0#8
  · rw [qfront_empty h0, qfront_empty ((h.size q).trans h0)]
    exact (h.setErr .qEmpty).respond ..
  · rw [qfront_value h0, qfront_value (by rw [h.size]; exact h0), (h.queue q).frontSlot (h.wf q) h0]
    exact h.respond ..

theorem Twins.peekResponse_qrear (q : QSel) : Twins (peekResponse (qrear q s)) (peekResponse (qrear q t)) := by
  by_cases h0 : (s.queue q).size = 0#8
  · rw [qrear_empty h0, qrear_empty ((h.size q).trans h0)]
    exact (h.setErr .qEmpty).respond ..
  · rw [qrear_value h0, qrear_value (by rw [h.size]; exact h0), (h.queue q).rearSlot (h.wf q) h0]
    exact h.respond ..

theorem Twins.enqCommand (q : QSel) (v : Byte) : Twins (enqCommand q v s) (enqCommand q v t) := by
  obtain ⟨-, hq⟩ := h.qenq q v
  by_cases hf : (s.queue q).size.toNat = capacity s.cfg q
  · rw [enqCommand_full hf, enqCommand_full (by rw [h.size, h.cfg, hf]), h.cfg]
    exact (h.setErr .qFull).respond ..
  · rw [enqCommand_ok hf, enqCommand_ok (by rw [h.size, h.cfg]; exact hf), qsize, qsize, hq.size]
    exact hq.respond ..

theorem Twins.deqCommand (q : QSel) : Twins (deqCommand q s) (deqCommand q t) := by
  obtain ⟨-, hq⟩ := h.qdeq q
  by_cases h0 : (s.queue q).size = 0#8
  · rw [deqCommand_empty h0, deqCommand_empty ((h.size q).trans h0)]
    exact (h.setErr .qEmpty).respond ..
  · rw [deqCommand_ok h0, deqCommand_ok (by rw [h.size]; exact h0), qsize, qsize, hq.size]
    exact hq.respond ..

theorem Twins.unlessBusy {f : State → State} (hf : Twins (f s) (f t)) : Twins (unlessBusy f s) (unlessBusy f t) := by
  cases hs : s.fsm with
  | idle => rw [unlessBusy_idle hs, unlessBusy_idle (h.fsm.trans hs)]; exact hf
  | transmitting => rw [unlessBusy_busy hs, unlessBusy_busy (h.fsm.trans hs)]; exact h.respond ..

end

/-! ## Procedures that may lack a draw -/

/-- Both lack a draw, or both answer and the answers are twins. -/
abbrev TwinAnswers : Option State → Option State → Prop := Option.Rel Twins

/-- Related branches under equivalent conditions. -/
theorem rel_ite {α : Type} {R : α → α → Prop} {p q : Prop} [Decidable p] [Decidable q] {a b a' b' : α} (hpq : q ↔ p)
    (hpos : p → R a b) (hneg : ¬p → R a' b') : R (if p then a else a') (if q then b else b') := by
  by_cases hp : p
  · rw [if_pos hp, if_pos (hpq.2 hp)]; exact hpos hp
  · rw [if_neg hp, if_neg fun hq => hp (hpq.1 hq)]; exact hneg hp

theorem TwinAnswers.map {o p : Option State} {f g : State → State} (h : TwinAnswers o p)
    (hf : ∀ s t, Twins s t → Twins (f s) (g t)) : TwinAnswers (o.map f) (p.map g) := by
  cases h with
  | none => exact .none
  | some h => exact .some (hf _ _ h)

theorem TwinAnswers.bind {o p : Option State} {f g : State → Option State} (h : TwinAnswers o p)
    (hf : ∀ s t, Twins s t → TwinAnswers (f s) (g t)) : TwinAnswers (o.bind f) (p.bind g) := by
  cases h with
  | none => exact .none
  | some h => exact hf _ _ h

/-- `send_new()` is an emission and then a change of the state. -/
theorem sendNew_eq_map (s : State) : sendNew s = (emitData s.nextSeq s.sentCount s).map fun u =>
    { (qenq .txq s.nextSeq u).2 with nextSeq := nextSeqOf s.cfg s.nextSeq, sentCount := s.sentCount + 1#16 } := by
  unfold sendNew
  cases emitData s.nextSeq s.sentCount s <;> rfl

theorem fillLoop_succ (n : Nat) (s : State) :
    fillLoop (n + 1) s = if canSend s then (sendNew s).bind (fillLoop n) else some s := by
  rw [fillLoop]
  cases sendNew s <;> rfl

theorem drainLoop_succ (n : Nat) (s : State) :
    drainLoop (n + 1) s = if s.rxq.size = 0#8 then some s else (emitAck s).bind (drainLoop n) := by
  rw [drainLoop]
  cases emitAck s <;> rfl

section
variable {s t : State} (h : Twins s t)
include h

theorem Twins.emitData (x : Byte) (n : Half) : TwinAnswers (emitData x n s) (emitData x n t) := by
  cases hd : s.draws with
  | nil => rw [emitData_nil hd, emitData_nil (h.draws.trans hd)]; exact .none
  | cons u us =>
    rw [emitData_cons hd, emitData_cons (h.draws.trans hd)]
    exact .some (h.map (g := fun r => { r with
      draws := us, events := r.events ++ [.data x n (dropped u r.cfg.pData)] }) (fun _ _ _ => rfl) rfl)

theorem Twins.sendNew : TwinAnswers (sendNew s) (sendNew t) := by
  rw [sendNew_eq_map, sendNew_eq_map, h.nextSeq, h.sentCount, h.cfg]
  refine (h.emitData _ _).map fun u v huv => ?_
  exact (huv.qenq .txq s.nextSeq).2.map
    (g := fun r => { r with nextSeq := nextSeqOf s.cfg s.nextSeq, sentCount := s.sentCount + 1#16 }) (fun _ _ _ => rfl) rfl

theorem Twins.canSend : canSend t = canSend s := by
  rw [Machine.canSend, h.txq_size, h.sentCount, h.cfg, Machine.canSend]

omit h in
theorem Twins.fillLoop {n : Nat} : ∀ {s t : State}, Twins s t → TwinAnswers (fillLoop n s) (fillLoop n t) := by
  induction n with
  | zero => exact fun h => .some h
  | succ n ih =>
    intro s t h
    rw [fillLoop_succ, fillLoop_succ]
    exact rel_ite (by rw [h.canSend]) (fun _ => h.sendNew.bind fun _ _ => ih) fun _ => .some h

/-- The frames sent again are read from entries only. -/
theorem Twins.resendFrames : resendFrames t (List.range t.txq.size.toNat) = resendFrames s (List.range s.txq.size.toNat) := by
  have hres : ∀ i, resends t i = resends s i := fun i => by rw [resends, h.cfg, h.ackBit, resends]
  have hidx : ∀ j, t.txq.entryIndex s.cfg.w j = s.txq.entryIndex s.cfg.w j := h.same.txq.entryIndex
  have hunit : ∀ j, unitOf t j = unitOf s j := fun j => by rw [unitOf, h.sentCount, h.txq_size, unitOf]
  simp only [Machine.resendFrames, h.txq_size, h.cfg, hres, hidx, hunit]
  refine List.map_congr_left fun j hj => ?_
  rw [h.same.txq.entries j (List.mem_range.1 (List.mem_filter.1 hj).1)]

theorem Twins.retransmit : TwinAnswers (retransmit s) (retransmit t) := by
  rw [retransmit_eq, retransmit_eq, h.resendFrames]
  generalize Machine.resendFrames s (List.range s.txq.size.toNat) = fs
  exact rel_ite (by rw [h.draws]) (fun _ => .some (h.map (g := fun r => { r with
    draws := r.draws.drop fs.length, events := r.events ++ dataEvents r.cfg.pData fs r.draws }) (fun _ _ _ => rfl) rfl))
    fun _ => .none

/-- `emit_ack()` reads the front slot, so it asks for an entry. -/
theorem Twins.emitAck (h0 : s.rxq.size ≠ 0#8) : TwinAnswers (emitAck s) (emitAck t) := by
  cases hd : s.draws with
  | nil => rw [emitAck_nil hd, emitAck_nil (h.draws.trans hd)]; exact .none
  | cons u us =>
    have hdeq := (h.qdeq .rxq).2
    rw [qdeq_rxq_ok h0, qdeq_rxq_ok (by rw [h.rxq_size]; exact h0)] at hdeq
    rw [emitAck_cons hd h0, emitAck_cons (h.draws.trans hd) (by rw [h.rxq_size]; exact h0),
      h.same.rxq.frontSlot h.queues.rxq h0]
    exact .some (hdeq.map (g := fun r => { r with
      draws := us, events := r.events ++ [.ack (s.rxq.slotAt s.rxq.front.toNat) (dropped u r.cfg.pAckOut)] })
      (fun _ _ _ => rfl) rfl)

omit h in
theorem Twins.drainLoop {n : Nat} : ∀ {s t : State}, Twins s t → TwinAnswers (drainLoop n s) (drainLoop n t) := by
  induction n with
  | zero => exact fun h => .some h
  | succ n ih =>
    intro s t h
    rw [drainLoop_succ, drainLoop_succ]
    exact rel_ite (by rw [h.rxq_size]) (fun _ => .some h) fun h0 => (h.emitAck h0).bind fun _ _ => ih

theorem Twins.ackWhenDeep : TwinAnswers (ackWhenDeep s) (ackWhenDeep t) :=
  rel_ite (by rw [h.cfg, h.rxq_size])
    (fun hdeep => h.emitAck (toNat_ne_zero8.2 (Nat.lt_of_lt_of_le (capacity_bounds h.cfg_valid .rxq).1 hdeep)))
    fun _ => .some h

theorem Twins.ackTimerTest : TwinAnswers (ackTimerTest s) (ackTimerTest t) :=
  rel_ite (by rw [h.txq_size, h.cfg, h.ackTimer])
    (fun _ => (h.map (g := fun r => { r with ackTimer := 0#16 }) (fun _ _ _ => rfl) rfl).retransmit) fun _ => .some h

theorem Twins.txTimerTest : TwinAnswers (txTimerTest s) (txTimerTest t) := by
  have hstopped : Twins { s with txTimer := 0#16 } { t with txTimer := 0#16 } :=
    h.map (g := fun r => { r with txTimer := 0#16 }) (fun _ _ _ => rfl) rfl
  exact rel_ite (by rw [h.cfg, h.txTimer])
    (fun _ => rel_ite (by rw [h.canSend]) (fun _ => hstopped.sendNew) fun _ => .some hstopped) fun _ => .some h

theorem Twins.countTick : Twins (countTick s) (countTick t) := by
  rw [Machine.countTick, Machine.countTick, h.txq_size, h.ackTimer, h.txTimer]
  exact h.map (g := fun r => { r with
    ackTimer := if s.txq.size = 0#8 then s.ackTimer else s.ackTimer + 1#16, txTimer := s.txTimer + 1#16 })
    (fun _ _ _ => rfl) rfl

theorem Twins.checkDone : Twins (checkDone s) (checkDone t) :=
  rel_ite (R := Twins) (by rw [h.fsm, h.sentCount, h.cfg, h.txq_size])
    (fun _ => h.map (g := fun r => { r with fsm := .idle, ackTimer := 0#16, txTimer := 0#16 }) (fun _ _ _ => rfl) rfl)
    fun _ => h

/-! ## Sessions -/

theorem Twins.resetSession : Twins (resetSession s) (resetSession t) := by
  have hclear := (h.qclear .txq).qclear .rxq
  rw [Machine.resetSession, Machine.resetSession, h.cfg]
  exact hclear.map (g := fun r => { r with
    ackTimer := 0#16, txTimer := 0#16, nextSeq := BitVec.ofNat 8 s.cfg.base, sentCount := 0#16
    rxExp := BitVec.ofNat 8 s.cfg.base }) (fun _ _ _ => rfl) rfl

theorem Twins.setFsm (f : Fsm) : Twins { s with fsm := f } { t with fsm := f } :=
  h.map (g := fun r => { r with fsm := f }) (fun _ _ _ => rfl) rfl

theorem Twins.hardReset : Twins (hardReset s) (hardReset t) := by
  obtain ⟨htx, hrx⟩ := h.queues.both_cleared h.cfg_valid
  obtain ⟨a, b, rfl, ha, hb⟩ := h.exists_queues
  exact .of_queues (s := Machine.hardReset s) h.cfg_valid ⟨htx, hrx⟩ ha.cleared hb.cleared

/-! ## Taking an ACK -/

omit h in
theorem Twins.popTimes {n : Nat} : ∀ {s t : State}, Twins s t → Twins (popTimes n s) (popTimes n t) := by
  induction n with
  | zero => exact fun h => h
  | succ n ih => exact fun h => ih (h.qdeq .txq).2

omit h in
theorem Twins.slideLoop {n : Nat} : ∀ {s t : State}, Twins s t → Twins (slideLoop n s) (slideLoop n t) := by
  induction n with
  | zero => exact fun h => h
  | succ n ih =>
    intro s t h
    exact rel_ite (R := Twins) (by rw [h.txq_size]) (fun _ => h) fun _ =>
      rel_ite (by rw [h.ackBit, h.same.txq.front]) (fun _ => ih (h.qdeq .txq).2) fun _ => h

end

/-- The same outcome of an ACK, with twin windows. -/
inductive TwinAcks : AckResult → AckResult → Prop
  | noMatch : TwinAcks .noMatch .noMatch
  | duplicate : TwinAcks .duplicate .duplicate
  | progress {s t : State} (h : Twins s t) : TwinAcks (.progress s) (.progress t)

section
variable {s t : State} (h : Twins s t)
include h

theorem Twins.takeAckFront (x : Byte) : TwinAcks (takeAckFront x s) (takeAckFront x t) := by
  rw [takeAckFront_eq, takeAckFront_eq, h.txq_size]
  by_cases h0 : s.txq.size = 0#8
  · simp only [h0, ne_eq, not_true_eq_false, false_and, if_false]
    exact .noMatch
  · rw [h.same.txq.frontSlot h.queues.txq h0]
    split
    · exact .progress h.popTimes
    · exact .noMatch

theorem Twins.takeAckCumulative (x : Byte) : TwinAcks (takeAckCumulative x s) (takeAckCumulative x t) := by
  cases hf : Machine.qfind .txq x s with
  | none =>
    rw [takeAckCumulative_none hf, takeAckCumulative_none ((h.qfind .txq x).trans hf)]
    exact .noMatch
  | some j =>
    rw [takeAckCumulative_some hf, takeAckCumulative_some ((h.qfind .txq x).trans hf)]
    exact .progress h.popTimes

theorem Twins.takeAckSelective (x : Byte) : TwinAcks (takeAckSelective x s) (takeAckSelective x t) := by
  rw [Machine.takeAckSelective, Machine.takeAckSelective, h.qfind]
  cases Machine.qfind .txq x s with
  | none => exact .noMatch
  | some j =>
    have hmarked : Twins (Machine.setAckBit (s.txq.entryIndex s.cfg.w j) s) (Machine.setAckBit (s.txq.entryIndex s.cfg.w j) t) :=
      h.map (g := Machine.setAckBit (s.txq.entryIndex s.cfg.w j)) (fun _ _ _ => rfl) rfl
    simp only [h.cfg, h.same.txq.entryIndex, h.ackBit]
    split
    · exact .duplicate
    · rw [slide, slide, hmarked.txq_size]
      exact .progress hmarked.slideLoop

theorem Twins.takeAck (x : Byte) : TwinAcks (takeAck x s) (takeAck x t) := by
  rw [Machine.takeAck, Machine.takeAck, h.cfg]
  cases s.cfg.mode with
  | sw => exact h.takeAckFront x
  | gbn => exact h.takeAckCumulative x
  | sr | slw => exact h.takeAckSelective x

theorem Twins.deliverAck {s0 t0 : State} (h0 : Twins s0 t0) (x m : Byte) :
    Twins (deliverAck x m s0 s) (deliverAck x m t0 t) := by
  unfold Machine.deliverAck
  split
  · exact h.arqRsp h0 _
  · have hack := h.takeAck x
    revert hack
    generalize Machine.takeAck x s = r, Machine.takeAck x t = r'
    intro hack
    cases hack with
    | noMatch => exact h.arqRsp h0 _
    | duplicate => exact h.arqRsp h0 _
    | progress hu =>
      exact (hu.map (g := fun r => { r with ackTimer := 0#16 }) (fun _ _ _ => rfl) rfl).checkDone.arqRsp h0 _

end

/-! ## Commands -/

theorem sameResult_completing {o p : Option State} (h : TwinAnswers o p) : SameResult (completing o) (completing p) := by
  cases h with
  | none => rfl
  | some h => exact h.same

theorem sameResult_cases : ∀ {r r' : Result}, SameResult r r' →
    (∃ u v, r = .next u ∧ r' = .next v ∧ SameButFreeSlots u v) ∨ (∃ f, r = .fault f ∧ r' = .fault f) ∨
      ∃ f, r = .refused f ∧ r' = .refused f
  | .next u, .next v, h => .inl ⟨u, v, rfl, rfl, h⟩
  | .fault f, .fault _, h => .inr (.inl ⟨f, rfl, congrArg _ (Eq.symm h)⟩)
  | .refused f, .refused _, h => .inr (.inr ⟨f, rfl, congrArg _ (Eq.symm h)⟩)
  | .next _, .fault _, h | .next _, .refused _, h | .fault _, .next _, h | .fault _, .refused _, h
  | .refused _, .next _, h | .refused _, .fault _, h => h.elim

section
variable {s t : State} (h : Twins s t)
include h

theorem Twins.regVal (r : Reg) : regVal t r = regVal s r := by
  obtain ⟨a, b, rfl, ha, hb⟩ := h.exists_queues
  cases r with
  | txqSize => exact congrArg (BitVec.setWidth 24) ha.size.symm
  | txqFront => exact congrArg (BitVec.setWidth 24) ha.front.symm
  | txqRear => exact congrArg (BitVec.setWidth 24) ha.rear.symm
  | rxqSize => exact congrArg (BitVec.setWidth 24) hb.size.symm
  | rxqFront => exact congrArg (BitVec.setWidth 24) hb.front.symm
  | rxqRear => exact congrArg (BitVec.setWidth 24) hb.rear.symm
  | status | err | nextSeq | sentCount | rxExp | ackTimer | txTimer | txqAckbits | cfgWin | cfgRx | cfgMsg | cfgDatalen => rfl

theorem Twins.execFecCor (cw : Codeword) : SameResult (execFecCor cw s) (execFecCor cw t) := by
  rw [Machine.execFecCor, Machine.execFecCor, h.cfg]
  cases cor s.cfg.code cw with
  | clean | fixed => exact (h.respond ..).same
  | uncorrectable => exact ((h.setErr .fecFault).respond ..).same

theorem Twins.execFrmClass (len : Half) : SameResult (execFrmClass len s) (execFrmClass len t) := by
  rw [Machine.execFrmClass, Machine.execFrmClass, h.cfg]
  cases classify s.cfg len.toNat with
  | ambiguous => exact ((h.setErr .ambig).respond ..).same
  | dataFrames | ackFrames | unclassified => exact (h.respond ..).same

theorem Twins.illegal : Twins (illegal s) (illegal t) := (h.setErr .illegal).respond ..

theorem Twins.execRegRd (r : Byte) : SameResult (execRegRd r s) (execRegRd r t) := by
  rw [Machine.execRegRd, Machine.execRegRd]
  cases regOfNumber r with
  | none => exact h.illegal.same
  | some reg => simp only [h.regVal]; exact (h.respond ..).same

theorem Twins.execRegClrerr (mask : BitVec 5) : SameResult (execRegClrerr mask s) (execRegClrerr mask t) :=
  (h.map (g := fun r => Machine.respond .ok ((clearErr mask r).err.setWidth 24) (clearErr mask r)) (fun _ _ _ => rfl) rfl).same

theorem Twins.execArqCtrl (b0 b1 : Byte) : SameResult (execArqCtrl b0 b1 s) (execArqCtrl b0 b1 t) := by
  have hstart : Twins (startSession s) (startSession t) := h.resetSession.setFsm .transmitting
  unfold Machine.execArqCtrl
  split
  · rw [fill, fill, hstart.cfg]
    exact sameResult_completing (hstart.fillLoop.map fun _ _ hu => hu.checkDone.arqRsp h _)
  · exact (h.arqRsp h _).same

theorem Twins.execArqRxdata (x : Byte) : SameResult (execArqRxdata x s) (execArqRxdata x t) := by
  have haccept : Twins (acceptFrame x s) (acceptFrame x t) := h.map (g := acceptFrame x) (fun _ _ _ => rfl) rfl
  obtain ⟨hr, hq⟩ := haccept.qenq .rxq x
  unfold Machine.execArqRxdata
  rw [h.rxExp]
  split
  · exact (h.arqRsp h _).same
  · simp only [hr]
    exact sameResult_completing (hq.ackWhenDeep.map fun _ _ hu => hu.arqRsp h _)

theorem Twins.execArqRxack (x m : Byte) : SameResult (execArqRxack x m s) (execArqRxack x m t) := by
  rw [Machine.execArqRxack, Machine.execArqRxack, h.fsm, h.cfg]
  cases s.fsm with
  | idle => exact (h.arqRsp h _).same
  | transmitting =>
    cases hd : s.draws with
    | nil => rw [drawLoss_nil hd, drawLoss_nil (h.draws.trans hd)]; rfl
    | cons u us =>
      have hdrawn : Twins { s with draws := us } { t with draws := us } :=
        h.map (g := fun r => { r with draws := us }) (fun _ _ _ => rfl) rfl
      rw [drawLoss_cons hd, drawLoss_cons (h.draws.trans hd)]
      cases dropped u s.cfg.pAckIn with
      | true => exact (hdrawn.arqRsp h _).same
      | false => exact (hdrawn.deliverAck h x m).same

theorem Twins.execArqTick : SameResult (execArqTick s) (execArqTick t) := by
  rw [Machine.execArqTick, Machine.execArqTick, h.fsm]
  cases s.fsm with
  | idle => exact (h.arqRsp h _).same
  | transmitting =>
    exact sameResult_completing ((h.countTick.ackTimerTest.bind fun _ _ ha => ha.txTimerTest).map fun _ _ hu => hu.arqRsp h _)

theorem Twins.execArqEom : SameResult (execArqEom s) (execArqEom t) := by
  rw [Machine.execArqEom, Machine.execArqEom, drain, drain, h.rxq_size]
  exact sameResult_completing (h.drainLoop.map fun _ _ hu => hu.arqRsp h _)

theorem Twins.exec (i : Instr) : SameResult (exec i s) (exec i t) := by
  cases i with
  | nop => exact (h.respond ..).same
  | fecEnc m => exact (h.map (g := fun r => Machine.respond .ok ((enc r.cfg.code m).setWidth 24) r) (fun _ _ _ => rfl) rfl).same
  | fecSyn c => exact (h.map (g := fun r => Machine.respond .ok ((syn r.cfg.code c).setWidth 24) r) (fun _ _ _ => rfl) rfl).same
  | fecDec c => exact (h.map (g := fun r => Machine.respond .ok ((dec r.cfg.code c).setWidth 24) r) (fun _ _ _ => rfl) rfl).same
  | fecCor c => exact h.execFecCor c
  | qEnq q v => exact (h.unlessBusy (h.enqCommand q v)).same
  | qDeq q => exact (h.unlessBusy (h.deqCommand q)).same
  | qClear q => exact (h.unlessBusy (f := clearCommand q) ((h.qclear q).respond ..)).same
  | qFront q => exact (h.peekResponse_qfront q).same
  | qRear q => exact (h.peekResponse_qrear q).same
  | qSize q =>
    rw [Machine.exec, Machine.exec, execQSize, execQSize, qsize, qsize, h.size]
    exact (h.respond ..).same
  | frmClass len => exact h.execFrmClass len
  | regRd r => exact h.execRegRd r
  | regClrerr mask => exact h.execRegClrerr mask
  | arqCtrl b0 b1 => exact h.execArqCtrl b0 b1
  | arqRxdata x => exact h.execArqRxdata x
  | arqRxack x m => exact h.execArqRxack x m
  | arqTick => exact h.execArqTick
  | arqEom => exact h.execArqEom
  | arqDisc => exact ((h.resetSession.setFsm .idle).arqRsp h _).same

/-! ## Inputs and steps -/

theorem Twins.runWord (w : Word) : SameResult (runWord w s) (runWord w t) := by
  unfold Machine.runWord
  split
  · exact h.exec _
  · exact h.illegal.same

theorem Twins.abandon (w : Word) {e e' d d' : Nat} (he : e' = e) (hd : d' = d) :
    Twins (abandon w e d s) (abandon w e' d' t) := by
  subst he hd
  have hports : ∀ (d : List Draw) (ev : List Event),
      Twins { s with draws := d, events := ev } { t with draws := d, events := ev } := fun d ev =>
    h.map (g := fun r => { r with draws := d, events := ev }) (fun _ _ _ => rfl) rfl
  have hans : Twins (answering s) (answering t) := h.map (g := answering) (fun _ _ _ => rfl) rfl
  unfold Machine.abandon
  rcases sameResult_cases (hans.runWord w) with ⟨u, v, hu, hv, huv⟩ | ⟨f, hu, hv⟩ | ⟨f, hu, hv⟩ <;> rw [hu, hv]
  · have hd : v.draws = u.draws := (congrArg State.draws huv.rest).symm
    have he : v.events = u.events := (congrArg State.events huv.rest).symm
    simp only [hd, he, h.draws, h.events, hans.draws]
    exact (hports _ _).hardReset
  · exact h.hardReset
  · exact h.hardReset

theorem Twins.setInputs (rest : List Input) : Twins { s with inputs := rest } { t with inputs := rest } :=
  h.map (g := fun r => { r with inputs := rest }) (fun _ _ _ => rfl) rfl

theorem Twins.runCommand (w : Word) : SameResult (runCommand w s) (runCommand w t) := by
  have hrun := h.runWord w
  by_cases hr : s.inputs.head? = some .hardReset
  · obtain ⟨rest, hi⟩ := List.head?_eq_some_iff.1 hr
    have ht := h.setInputs rest
    unfold Machine.runCommand abandonIfStalled
    rw [nextInput_cons hi, nextInput_cons (h.inputs.trans hi)]
    rcases sameResult_cases hrun with ⟨u, v, hu, hv, huv⟩ | ⟨⟨⟩, hu, hv⟩ | ⟨f, hu, hv⟩ <;> rw [hu, hv]
    · exact huv
    · exact (ht.abandon w (by rw [h.draws]) (by rw [h.draws])).same
    · rfl
  · rw [runCommand_of_no_reset hr, runCommand_of_no_reset (by rw [h.inputs]; exact hr)]
    exact hrun

theorem Twins.ifValid {r r' : Result} (hr : SameResult r r') : SameResult (ifValid s.cfg r) (ifValid t.cfg r') := by
  rw [h.cfg, ifValid_valid h.cfg_valid, ifValid_valid h.cfg_valid]
  exact hr

theorem Twins.step : SameResult (step s) (step t) := by
  unfold Machine.step
  cases hi : s.inputs with
  | nil =>
    rw [nextInput_nil hi, nextInput_nil (h.inputs.trans hi)]
    exact h.ifValid h.same
  | cons i rest =>
    have ht := h.setInputs rest
    rw [nextInput_cons hi, nextInput_cons (h.inputs.trans hi)]
    cases i with
    | hardReset => exact h.ifValid ht.hardReset.same
    | command w => exact h.ifValid (ht.runCommand w)
    | abandoned w nEvents nDraws => exact h.ifValid (ht.abandon w rfl rfl).same

end

/-- An invalid configuration takes no step (00_scope.md R8). -/
theorem step_invalid {s : State} (hv : s.cfg.valid = false) : step s = .refused .invalidConfiguration := by
  unfold step
  cases hi : s.inputs with
  | nil => rw [nextInput_nil hi]; exact ifValid_invalid hv _
  | cons i rest => rw [nextInput_cons hi]; cases i <;> exact ifValid_invalid hv _

/-- Settles O57: on a valid configuration the two states are `Twins`, and every step takes twins to twins; on any other
both are refused. -/
theorem freeSlotsAreNeverRead : Obligations.FreeSlotsAreNeverRead := by
  intro s t hw h
  cases hv : s.cfg.valid with
  | true => exact Twins.step ⟨hv, hw, h⟩
  | false =>
    have hc : t.cfg = s.cfg := (congrArg State.cfg h.rest).symm
    rw [step_invalid hv, step_invalid (by rw [hc]; exact hv)]
    rfl

end Sys2Proof.Machine

/-! The reading commands issued twice (20_memory.md R45): one that only responds finds the same state again, and one that
raises an ERR bit finds that bit, which is sticky, already set. -/

namespace Sys2Proof.Machine

/-- Issued twice at `s`, the command gives one response twice and leaves `e` in ERR both times, and all else as it was. -/
def AnswersTwice (i : Instr) (s : State) (e : BitVec 5) : Prop :=
  ∃ r : Response, exec i s = .next { s with err := e, rsps := s.rsps ++ [r] } ∧
    exec i { s with err := e, rsps := s.rsps ++ [r] } = .next { s with err := e, rsps := s.rsps ++ [r, r] }

section
variable {i : Instr} {s : State} (st : Status) (d : BitVec 24)

/-- A command that only responds, alike whatever stands on the response port, responds alike again. -/
theorem AnswersTwice.of_respond (h : ∀ l, exec i { s with rsps := l } = .next (respond st d { s with rsps := l })) :
    AnswersTwice i s s.err := by
  refine ⟨⟨st, d⟩, h s.rsps, (h (s.rsps ++ [⟨st, d⟩])).trans ?_⟩
  simp only [respond, List.append_assoc, List.cons_append, List.nil_append]

/-- So does one that raises an ERR bit, if it also acts alike whatever stands in ERR: the bit is sticky (R190). -/
theorem AnswersTwice.of_setErr (b : ErrBit)
    (h : ∀ e l, exec i { s with err := e, rsps := l } =
      .next (respond st d (setErr b { s with err := e, rsps := l }))) :
    AnswersTwice i s (s.err ||| 1#5 <<< b.number) := by
  refine ⟨⟨st, d⟩, h s.err s.rsps, (h _ (s.rsps ++ [⟨st, d⟩])).trans ?_⟩
  simp only [respond, setErr, BitVec.or_assoc, BitVec.or_self, List.append_assoc, List.cons_append, List.nil_append]

end

/-! ## Reading a queue -/

/-- The queues are neither in ERR nor on the response port. -/
theorem queue_err_rsps (s : State) (e : BitVec 5) (l : List Response) (q : QSel) :
    State.queue { s with err := e, rsps := l } q = s.queue q := by
  cases q <;> rfl

theorem qSize_answersTwice (q : QSel) (s : State) : AnswersTwice (.qSize q) s s.err :=
  .of_respond .ok ((s.queue q).size.setWidth 24) fun l => by rw [exec, execQSize, qsize, queue_err_rsps]

/-- A command that reads one slot of a queue, and raises q_empty on an empty one (40_queue.md R83, R84). -/
theorem exists_answersTwice_of_peek {i : Instr} {q : QSel} {s : State} {index : Queue → Nat}
    (hempty : ∀ t, (t.queue q).size = 0#8 → exec i t = .next (respond .qEmpty 0#24 (setErr .qEmpty t)))
    (hvalue : ∀ t, (t.queue q).size ≠ 0#8 →
      exec i t = .next (respond .ok (((t.queue q).slotAt (index (t.queue q))).setWidth 24) t)) :
    ∃ e, AnswersTwice i s e := by
  by_cases h0 : (s.queue q).size = 0#8
  · exact ⟨_, .of_setErr .qEmpty 0#24 .qEmpty fun e l => hempty _ (by rw [queue_err_rsps]; exact h0)⟩
  · refine ⟨_, .of_respond .ok (((s.queue q).slotAt (index (s.queue q))).setWidth 24) fun l => ?_⟩
    rw [hvalue _ (by rw [queue_err_rsps]; exact h0), queue_err_rsps]

theorem qFront_answersTwice (q : QSel) (s : State) : ∃ e, AnswersTwice (.qFront q) s e :=
  exists_answersTwice_of_peek (index := fun x => x.front.toNat)
    (fun t h => by rw [exec, execQFront, qfront_empty h, peekResponse])
    (fun t h => by rw [exec, execQFront, qfront_value h, peekResponse])

theorem qRear_answersTwice (q : QSel) (s : State) : ∃ e, AnswersTwice (.qRear q) s e :=
  exists_answersTwice_of_peek (index := fun x => x.rear.toNat)
    (fun t h => by rw [exec, execQRear, qrear_empty h, peekResponse])
    (fun t h => by rw [exec, execQRear, qrear_value h, peekResponse])

/-! ## The other commands that may raise an ERR bit -/

theorem fecCor_answersTwice (cw : Codeword) (s : State) : ∃ e, AnswersTwice (.fecCor cw) s e := by
  cases hc : cor s.cfg.code cw with
  | clean c =>
    exact ⟨_, .of_respond .ok (corData 0#3 (syn s.cfg.code cw) c) fun l => by simp only [exec, execFecCor, hc]⟩
  | fixed c p =>
    exact ⟨_, .of_respond .corrected (corData (BitVec.ofNat 3 p.val) (syn s.cfg.code cw) c) fun l => by
      simp only [exec, execFecCor, hc]⟩
  | uncorrectable =>
    exact ⟨_, .of_setErr .uncorrectable (corData 0#3 (syn s.cfg.code cw) 0#6) .fecFault fun e l => by
      simp only [exec, execFecCor, hc]⟩

theorem frmClass_answersTwice (len : Half) (s : State) : ∃ e, AnswersTwice (.frmClass len) s e := by
  cases hc : classify s.cfg len.toNat with
  | ambiguous => exact ⟨_, .of_setErr .classAmbiguous 0#24 .ambig fun e l => by simp only [exec, execFrmClass, hc]⟩
  | dataFrames n => exact ⟨_, .of_respond .ok (classData 1#2 n) fun l => by simp only [exec, execFrmClass, hc]⟩
  | ackFrames n => exact ⟨_, .of_respond .ok (classData 2#2 n) fun l => by simp only [exec, execFrmClass, hc]⟩
  | unclassified => exact ⟨_, .of_respond .classNone 0#24 fun l => by simp only [exec, execFrmClass, hc]⟩

/-! ## REG.RD -/

/-- A legal register number names a register (30_encoding.md R56). -/
theorem regOfNumber_of_wellFormed {r : Byte} (h : Instr.wellFormed (.regRd r) = true) : ∃ reg, regOfNumber r = some reg :=
  Option.ne_none_iff_exists'.1 fun hn => BitVec.not_lt.2 (of_decide_eq_true h) (regOfNumber_none.1 hn)

/-- No register view looks at the response port. -/
theorem regVal_rsps (s : State) (l : List Response) (reg : Reg) : regVal { s with rsps := l } reg = regVal s reg := by
  cases reg <;> rfl

theorem regRd_answersTwice {r : Byte} (h : Instr.wellFormed (.regRd r) = true) (s : State) :
    AnswersTwice (.regRd r) s s.err := by
  obtain ⟨reg, hreg⟩ := regOfNumber_of_wellFormed h
  exact .of_respond .ok (regVal s reg) fun l => by simp only [exec, execRegRd, hreg, regVal_rsps]

/-! ## The two groups of R45 -/

/-- Settles O60: the commands of the first group answer twice with ERR as it was, those of the second with some ERR. -/
theorem readingCommandsAreIdempotent : Obligations.ReadingCommandsAreIdempotent := by
  intro i s hwf hi
  obtain ⟨e, ⟨r, hfirst, hsecond⟩, hnamed⟩ : ∃ e, AnswersTwice i s e ∧ (e ≠ s.err →
      (∃ q, i = .qFront q) ∨ (∃ q, i = .qRear q) ∨ (∃ c, i = .fecCor c) ∨ ∃ l, i = .frmClass l) := by
    rcases hi with rfl | ⟨r, rfl⟩ | ⟨q, rfl⟩ | ⟨m, rfl⟩ | ⟨c, rfl⟩ | ⟨c, rfl⟩ | ⟨q, rfl⟩ | ⟨q, rfl⟩ | ⟨c, rfl⟩ | ⟨l, rfl⟩
    · exact ⟨_, .of_respond .ok 0#24 fun _ => rfl, fun h => absurd rfl h⟩
    · exact ⟨_, regRd_answersTwice hwf s, fun h => absurd rfl h⟩
    · exact ⟨_, qSize_answersTwice q s, fun h => absurd rfl h⟩
    · exact ⟨_, .of_respond .ok ((enc s.cfg.code m).setWidth 24) fun _ => rfl, fun h => absurd rfl h⟩
    · exact ⟨_, .of_respond .ok ((syn s.cfg.code c).setWidth 24) fun _ => rfl, fun h => absurd rfl h⟩
    · exact ⟨_, .of_respond .ok ((dec s.cfg.code c).setWidth 24) fun _ => rfl, fun h => absurd rfl h⟩
    · exact (qFront_answersTwice q s).imp fun _ h => ⟨h, fun _ => .inl ⟨q, rfl⟩⟩
    · exact (qRear_answersTwice q s).imp fun _ h => ⟨h, fun _ => .inr (.inl ⟨q, rfl⟩)⟩
    · exact (fecCor_answersTwice c s).imp fun _ h => ⟨h, fun _ => .inr (.inr (.inl ⟨c, rfl⟩))⟩
    · exact (frmClass_answersTwice l s).imp fun _ h => ⟨h, fun _ => .inr (.inr (.inr ⟨l, rfl⟩))⟩
  exact ⟨r, e, hfirst, hsecond, hnamed⟩

end Sys2Proof.Machine

/-! The opcode map (30_encoding.md R51 to R68): what `decode` reads in the fields of a word, that encoding and decoding
undo each other, and that decoding accepts the rows of R55 and no other word. -/

namespace Sys2Proof

/-! ## Operands inside a field: low bits given, high bits reserved (30_encoding.md R56, R60) -/

section Operand

variable {m k n : Nat}

theorem low_of_setWidth (x : BitVec k) (h : k + n = m) : (x.setWidth m).extractLsb' 0 k = x := by
  ext i hi
  simp [hi, show i < m by omega]

theorem high_of_setWidth (x : BitVec k) : (x.setWidth m).extractLsb' k n = 0#n := by
  ext i hi
  simp

theorem setWidth_low {d : BitVec m} (h : k + n = m) (hd : d.extractLsb' k n = 0#n) :
    (d.extractLsb' 0 k).setWidth m = d := by
  ext i hi
  by_cases hik : i < k
  · simp [hik, hi]
  · have hbit : d[i] = false := by
      simpa [show i - k < n by omega, show k + (i - k) = i by omega, hi] using congrArg (·.getLsbD (i - k)) hd
    simp [hik, hbit]

/-- A mask over the high bits checks that these are zero. -/
theorem and_highMask_eq_zero {d : BitVec m} (h : k + n = m) :
    d &&& BitVec.allOnes m <<< k = 0#m ↔ d.extractLsb' k n = 0#n := by
  constructor
  · intro hd
    ext i hi
    have hbit := congrArg (·.getLsbD (k + i)) hd
    simpa [hi, show k + i < m by omega] using hbit
  · intro hd
    rw [← setWidth_low h hd]
    ext i hi
    simp
    omega

end Operand

theorem packBytes_high (b0 b1 : Byte) : (packBytes b0 b1).extractLsb' 8 8 = b0 := by
  ext i hi
  simp [packBytes, hi, show 8 + i < 16 by omega]

theorem packBytes_low (b0 b1 : Byte) : (packBytes b0 b1).extractLsb' 0 8 = b1 := by
  ext i hi
  simp [packBytes, hi, show i < 16 by omega]

theorem packBytes_of_halves (d : Half) : packBytes (d.extractLsb' 8 8) (d.extractLsb' 0 8) = d := by
  ext i hi
  by_cases h8 : i < 8
  · simp [packBytes, h8, hi]
  · simp [packBytes, h8, hi, show i - 8 < 8 by omega, show 8 + (i - 8) = i by omega]

/-- The queue that `SEL[0]` names (R59). -/
def queueOf (s : Byte) : QSel := if s.getLsbD 0 then .rxq else .txq

theorem queueOf_queueSelBits (q : QSel) : queueOf (queueSelBits q) = q := by
  cases q <;> rfl

theorem queueSelBits_high (q : QSel) : (queueSelBits q).extractLsb' 1 7 = 0#7 := by
  cases q <;> rfl

theorem queueSelBits_queueOf : ∀ {s : Byte}, s.extractLsb' 1 7 = 0#7 → queueSelBits (queueOf s) = s := by
  decide

/-! ## What the parts of `decode` read in a packed word (R51) -/

@[simp] theorem opcField_packWord (o s : Byte) (d : Half) : opcField (packWord o s d) = o := packWord_opc o s d

@[simp] theorem selField_packWord (o s : Byte) (d : Half) : selField (packWord o s d) = s := by
  rw [selField, packWord_sel o s d 16 8 (by decide) (by decide), BitVec.extractLsb'_eq_self]

@[simp] theorem opdField_packWord (o s : Byte) (d : Half) : opdField (packWord o s d) = d := by
  rw [opdField, packWord_opd o s d 0 16 (by decide), BitVec.extractLsb'_eq_self]

@[simp] theorem bareOk_packWord (o s : Byte) (d : Half) : bareOk (packWord o s d) = (s == 0#8 && d == 0#16) := by
  rw [bareOk, selField_packWord, opdField_packWord]

@[simp] theorem selOk_packWord (o s : Byte) (d : Half) : selOk (packWord o s d) = (s == 0#8) := by
  rw [selOk, selField_packWord]

@[simp] theorem queueSelOk_packWord (o s : Byte) (d : Half) :
    queueSelOk (packWord o s d) = (s.extractLsb' 1 7 == 0#7) := by
  rw [queueSelOk, packWord_sel o s d 17 7 (by decide) (by decide)]

@[simp] theorem queueSelect_packWord (o s : Byte) (d : Half) : queueSelect (packWord o s d) = queueOf s := by
  rw [queueSelect, packWord_queue, queueOf]

theorem acceptIf_true (o : Byte) (i : Instr) : acceptIf true o i = .ok i := rfl

theorem acceptIf_false (o : Byte) (i : Instr) : acceptIf false o i = .error (.reservedField o) := rfl

theorem packWord_inj {o o' s s' : Byte} {d d' : Half} :
    packWord o s d = packWord o' s' d' ↔ o = o' ∧ s = s' ∧ d = d' := by
  constructor
  · intro h
    exact ⟨by simpa using congrArg opcField h, by simpa using congrArg selField h, by simpa using congrArg opdField h⟩
  · rintro ⟨rfl, rfl, rfl⟩
    rfl

/-! ## Operand formats: how operands of type `α` lie in SEL and OPD (R55, R59, R60) -/

/-- An operand format: the fields that hold an operand, the operand that the fields hold, the check of the reserved bits
as `decode` makes it, and the reserved bits as the masks of R55 give them. Writing and reading undo each other. -/
structure Format (α : Type) where
  sel : α → Byte
  opd : α → Half
  read : Byte → Half → α
  check : Byte → Half → Bool
  selMask : Byte
  opdMask : Half
  check_iff : ∀ s d, check s d = true ↔ s &&& selMask = 0#8 ∧ d &&& opdMask = 0#16
  check_written : ∀ a, check (sel a) (opd a) = true
  read_written : ∀ a, read (sel a) (opd a) = a
  written_read : ∀ s d, check s d = true → sel (read s d) = s ∧ opd (read s d) = d

theorem and_selMask_all (s : Byte) : s &&& 0xFF#8 = s := BitVec.and_allOnes

theorem and_opdMask_all (d : Half) : d &&& 0xFFFF#16 = d := BitVec.and_allOnes

theorem and_queueMask_eq_zero {s : Byte} : s &&& 0xFE#8 = 0#8 ↔ s.extractLsb' 1 7 = 0#7 :=
  and_highMask_eq_zero (m := 8) (k := 1) rfl

theorem and_byteMask_eq_zero {d : Half} : d &&& 0xFF00#16 = 0#16 ↔ d.extractLsb' 8 8 = 0#8 :=
  and_highMask_eq_zero (m := 16) (k := 8) rfl

namespace Format

/-- No operand. -/
def bare : Format Unit where
  sel _ := 0#8
  opd _ := 0#16
  read _ _ := ()
  check s d := s == 0#8 && d == 0#16
  selMask := 0xFF#8
  opdMask := 0xFFFF#16
  check_iff := by simp [and_selMask_all, and_opdMask_all]
  check_written := by simp
  read_written := by simp
  written_read s d hc := by
    obtain ⟨hs, hd⟩ := Bool.and_eq_true_iff.1 hc
    exact ⟨(eq_of_beq hs).symm, (eq_of_beq hd).symm⟩

/-- An operand of `k` bits at the low end of OPD, the `n` bits above it reserved. -/
def low (k n : Nat) (h : k + n = 16) : Format (BitVec k) where
  sel _ := 0#8
  opd x := x.setWidth 16
  read _ d := d.extractLsb' 0 k
  check s d := s == 0#8 && d.extractLsb' k n == 0#n
  selMask := 0xFF#8
  opdMask := BitVec.allOnes 16 <<< k
  check_iff s d := by rw [and_selMask_all, and_highMask_eq_zero h, Bool.and_eq_true, beq_iff_eq, beq_iff_eq]
  check_written := by simp [high_of_setWidth]
  read_written x := low_of_setWidth x h
  written_read s d hc := by
    obtain ⟨hs, hd⟩ := Bool.and_eq_true_iff.1 hc
    exact ⟨(eq_of_beq hs).symm, setWidth_low h (eq_of_beq hd)⟩

/-- An operand that is all of OPD. -/
def half : Format Half where
  sel _ := 0#8
  opd x := x
  read _ d := d
  check s _ := s == 0#8
  selMask := 0xFF#8
  opdMask := 0#16
  check_iff := by simp [and_selMask_all]
  check_written := by simp
  read_written := by simp
  written_read s d hc := ⟨(eq_of_beq hc).symm, rfl⟩

/-- Two wire bytes in OPD, byte 0 above byte 1 (20_memory.md R42). -/
def bytes : Format (Byte × Byte) where
  sel _ := 0#8
  opd x := packBytes x.1 x.2
  read _ d := (d.extractLsb' 8 8, d.extractLsb' 0 8)
  check s _ := s == 0#8
  selMask := 0xFF#8
  opdMask := 0#16
  check_iff := by simp [and_selMask_all]
  check_written := by simp
  read_written := by simp [packBytes_high, packBytes_low]
  written_read s d hc := ⟨(eq_of_beq hc).symm, packBytes_of_halves d⟩

/-- A queue in `SEL[0]`. -/
def queue : Format QSel where
  sel q := queueSelBits q
  opd _ := 0#16
  read s _ := queueOf s
  check s d := s.extractLsb' 1 7 == 0#7 && d == 0#16
  selMask := 0xFE#8
  opdMask := 0xFFFF#16
  check_iff := by simp [and_queueMask_eq_zero, and_opdMask_all]
  check_written := by simp [queueSelBits_high]
  read_written := queueOf_queueSelBits
  written_read s d hc := by
    obtain ⟨hs, hd⟩ := Bool.and_eq_true_iff.1 hc
    exact ⟨queueSelBits_queueOf (eq_of_beq hs), (eq_of_beq hd).symm⟩

/-- A queue in `SEL[0]` and a byte at the low end of OPD. -/
def queueByte : Format (QSel × Byte) where
  sel x := queueSelBits x.1
  opd x := x.2.setWidth 16
  read s d := (queueOf s, d.extractLsb' 0 8)
  check s d := s.extractLsb' 1 7 == 0#7 && d.extractLsb' 8 8 == 0#8
  selMask := 0xFE#8
  opdMask := 0xFF00#16
  check_iff := by simp [and_queueMask_eq_zero, and_byteMask_eq_zero]
  check_written x := by simp [queueSelBits_high, high_of_setWidth]
  read_written x := by rw [queueOf_queueSelBits, low_of_setWidth (n := 8) x.2 rfl]
  written_read s d hc := by
    obtain ⟨hs, hd⟩ := Bool.and_eq_true_iff.1 hc
    exact ⟨queueSelBits_queueOf (eq_of_beq hs), setWidth_low rfl (eq_of_beq hd)⟩

/-- A register number that is all of SEL. -/
def register : Format Byte where
  sel r := r
  opd _ := 0#16
  read s _ := s
  check _ d := d == 0#16
  selMask := 0#8
  opdMask := 0xFFFF#16
  check_iff := by simp [and_opdMask_all]
  check_written := by simp
  read_written := by simp
  written_read s d hc := ⟨rfl, (eq_of_beq hc).symm⟩

/-! ## A command in its format -/

variable {α : Type} {fmt : Format α} {name : String} {o : Byte} {f : α → Instr}

/-- The row of R55 for a mnemonic, an OPC and the reserved bits of a format. -/
def row (fmt : Format α) (name : String) (o : Byte) : OpcodeRow :=
  ⟨name, packWord o 0#8 0#16, packWord 0xFF#8 fmt.selMask fmt.opdMask⟩

theorem row_fits_packWord {o' s : Byte} {d : Half} :
    (fmt.row name o).fits (packWord o' s d) = true ↔ o' = o ∧ fmt.check s d = true := by
  rw [row, OpcodeRow.fits, packWord_and, and_selMask_all, beq_iff_eq, packWord_inj, fmt.check_iff]

/-- `encode` and `decode` treat the commands `f a` by the format, under one mnemonic and one OPC. -/
structure Command (fmt : Format α) (name : String) (o : Byte) (f : α → Instr) : Prop where
  mnemonic_eq : ∀ a, mnemonic (f a) = name
  encode_eq : ∀ a, encode (f a) = packWord o (fmt.sel a) (fmt.opd a)
  decode_eq : ∀ s d, decode (packWord o s d) = acceptIf (fmt.check s d) o (f (fmt.read s d))

/-- The word of the command passes the check and reads back as the operand. -/
theorem Command.decode_encode (h : fmt.Command name o f) (a : α) : decode (encode (f a)) = .ok (f a) := by
  rw [h.encode_eq, h.decode_eq, fmt.check_written, fmt.read_written, acceptIf_true]

end Format

/-- What `decode` does with the words of a row's OPC: those that fit the row are words of its mnemonic's commands, the
others have a reserved bit set. -/
structure RowDecodes (row : OpcodeRow) : Prop where
  opc_of_fits : ∀ {w}, row.fits w = true → opcField w = opcField row.pattern
  accepts : ∀ {w}, row.fits w = true → ∃ i, decode w = .ok i ∧ mnemonic i = row.mnemonic ∧ encode i = w
  rejects : ∀ {w}, opcField w = opcField row.pattern → row.fits w = false →
    decode w = .error (.reservedField (opcField w))

theorem Format.Command.row_decodes {α : Type} {fmt : Format α} {name : String} {o : Byte} {f : α → Instr}
    (h : fmt.Command name o f) : RowDecodes (fmt.row name o) where
  opc_of_fits {w} hw := by
    rw [← packWord_fields w, row_fits_packWord] at hw
    rw [hw.1, row, opcField_packWord]
  accepts {w} hw := by
    rw [← packWord_fields w, row_fits_packWord] at hw
    obtain ⟨hopc, hcheck⟩ := hw
    obtain ⟨hsel, hopd⟩ := fmt.written_read _ _ hcheck
    refine ⟨f (fmt.read (selField w) (opdField w)), ?_, h.mnemonic_eq _, ?_⟩
    · rw [← packWord_fields w, hopc, h.decode_eq, selField_packWord, opdField_packWord, hcheck, acceptIf_true]
    · rw [h.encode_eq, hsel, hopd, ← hopc, packWord_fields]
  rejects {w} hopc hw := by
    rw [row, opcField_packWord] at hopc
    have hcheck : fmt.check (selField w) (opdField w) = false := by
      rw [← Bool.not_eq_true] at hw ⊢
      rw [← packWord_fields w, row_fits_packWord] at hw
      exact fun hc => hw ⟨hopc, hc⟩
    rw [← packWord_fields w, hopc, h.decode_eq, opcField_packWord, hcheck, acceptIf_false]

/-! ## The twenty commands (R55) -/

section Commands

open Format

theorem nop_command : bare.Command "NOP" 0x00#8 fun _ => .nop :=
  ⟨fun _ => rfl, fun _ => rfl, by simp [decode, bare]⟩

theorem fecEnc_command : (low 3 13 rfl).Command "FEC.ENC" 0x10#8 .fecEnc :=
  ⟨fun _ => rfl, fun _ => rfl, by simp [decode, low, packWord_opd]⟩

theorem fecSyn_command : (low 6 10 rfl).Command "FEC.SYN" 0x11#8 .fecSyn :=
  ⟨fun _ => rfl, fun _ => rfl, by simp [decode, low, packWord_opd]⟩

theorem fecCor_command : (low 6 10 rfl).Command "FEC.COR" 0x12#8 .fecCor :=
  ⟨fun _ => rfl, fun _ => rfl, by simp [decode, low, packWord_opd]⟩

theorem fecDec_command : (low 6 10 rfl).Command "FEC.DEC" 0x13#8 .fecDec :=
  ⟨fun _ => rfl, fun _ => rfl, by simp [decode, low, packWord_opd]⟩

theorem qEnq_command : queueByte.Command "Q.ENQ" 0x20#8 fun x => .qEnq x.1 x.2 :=
  ⟨fun _ => rfl, fun _ => rfl, by simp [decode, queueByte, packWord_opd]⟩

theorem qDeq_command : queue.Command "Q.DEQ" 0x21#8 .qDeq :=
  ⟨fun _ => rfl, fun _ => rfl, by simp [decode, queue]⟩

theorem qFront_command : queue.Command "Q.FRONT" 0x22#8 .qFront :=
  ⟨fun _ => rfl, fun _ => rfl, by simp [decode, queue]⟩

theorem qRear_command : queue.Command "Q.REAR" 0x23#8 .qRear :=
  ⟨fun _ => rfl, fun _ => rfl, by simp [decode, queue]⟩

theorem qClear_command : queue.Command "Q.CLEAR" 0x24#8 .qClear :=
  ⟨fun _ => rfl, fun _ => rfl, by simp [decode, queue]⟩

theorem qSize_command : queue.Command "Q.SIZE" 0x25#8 .qSize :=
  ⟨fun _ => rfl, fun _ => rfl, by simp [decode, queue]⟩

theorem frmClass_command : half.Command "FRM.CLASS" 0x30#8 .frmClass :=
  ⟨fun _ => rfl, fun _ => rfl, by simp [decode, half, packWord_opd]⟩

theorem arqCtrl_command : bytes.Command "ARQ.CTRL" 0x40#8 fun x => .arqCtrl x.1 x.2 :=
  ⟨fun _ => rfl, fun _ => rfl, by simp [decode, bytes, packWord_opd]⟩

theorem arqRxdata_command : (low 8 8 rfl).Command "ARQ.RXDATA" 0x41#8 .arqRxdata :=
  ⟨fun _ => rfl, fun _ => rfl, by simp [decode, low, packWord_opd]⟩

theorem arqRxack_command : bytes.Command "ARQ.RXACK" 0x42#8 fun x => .arqRxack x.1 x.2 :=
  ⟨fun _ => rfl, fun _ => rfl, by simp [decode, bytes, packWord_opd]⟩

theorem arqTick_command : bare.Command "ARQ.TICK" 0x43#8 fun _ => .arqTick :=
  ⟨fun _ => rfl, fun _ => rfl, by simp [decode, bare]⟩

theorem arqEom_command : bare.Command "ARQ.EOM" 0x44#8 fun _ => .arqEom :=
  ⟨fun _ => rfl, fun _ => rfl, by simp [decode, bare]⟩

theorem arqDisc_command : bare.Command "ARQ.DISC" 0x45#8 fun _ => .arqDisc :=
  ⟨fun _ => rfl, fun _ => rfl, by simp [decode, bare]⟩

theorem regRd_command : register.Command "REG.RD" 0x50#8 .regRd :=
  ⟨fun _ => rfl, fun _ => rfl, by simp [decode, register, packWord_sel]⟩

theorem regClrerr_command : (low 5 11 rfl).Command "REG.CLRERR" 0x51#8 .regClrerr :=
  ⟨fun _ => rfl, fun _ => rfl, by simp [decode, low, packWord_opd]⟩

/-- The rows of R55, with their masks made from the formats. -/
theorem opcodeRows_eq : opcodeRows =
    [bare.row "NOP" 0x00#8, (low 3 13 rfl).row "FEC.ENC" 0x10#8, (low 6 10 rfl).row "FEC.SYN" 0x11#8,
     (low 6 10 rfl).row "FEC.COR" 0x12#8, (low 6 10 rfl).row "FEC.DEC" 0x13#8, queueByte.row "Q.ENQ" 0x20#8,
     queue.row "Q.DEQ" 0x21#8, queue.row "Q.FRONT" 0x22#8, queue.row "Q.REAR" 0x23#8,
     queue.row "Q.CLEAR" 0x24#8, queue.row "Q.SIZE" 0x25#8, half.row "FRM.CLASS" 0x30#8,
     bytes.row "ARQ.CTRL" 0x40#8, (low 8 8 rfl).row "ARQ.RXDATA" 0x41#8, bytes.row "ARQ.RXACK" 0x42#8,
     bare.row "ARQ.TICK" 0x43#8, bare.row "ARQ.EOM" 0x44#8, bare.row "ARQ.DISC" 0x45#8,
     register.row "REG.RD" 0x50#8, (low 5 11 rfl).row "REG.CLRERR" 0x51#8] := by
  decide

theorem opcodeRows_decode : ∀ row ∈ opcodeRows, RowDecodes row := by
  rw [opcodeRows_eq]
  simp only [List.forall_mem_cons]
  exact ⟨nop_command.row_decodes, fecEnc_command.row_decodes, fecSyn_command.row_decodes, fecCor_command.row_decodes,
    fecDec_command.row_decodes, qEnq_command.row_decodes, qDeq_command.row_decodes, qFront_command.row_decodes,
    qRear_command.row_decodes, qClear_command.row_decodes, qSize_command.row_decodes, frmClass_command.row_decodes,
    arqCtrl_command.row_decodes, arqRxdata_command.row_decodes, arqRxack_command.row_decodes,
    arqTick_command.row_decodes, arqEom_command.row_decodes, arqDisc_command.row_decodes, regRd_command.row_decodes,
    regClrerr_command.row_decodes, List.forall_mem_nil _⟩

end Commands

/-! ## Decoding undoes encoding (R55, R60) -/

/-- Settles O1: each command lies in its format, and a format reads back the operand it wrote. -/
theorem decodeOfEncode : Obligations.DecodeOfEncode := by
  intro i
  cases i with
  | nop => exact nop_command.decode_encode ()
  | fecEnc sym => exact fecEnc_command.decode_encode sym
  | fecSyn cw => exact fecSyn_command.decode_encode cw
  | fecCor cw => exact fecCor_command.decode_encode cw
  | fecDec cw => exact fecDec_command.decode_encode cw
  | qEnq q v => exact qEnq_command.decode_encode (q, v)
  | qDeq q => exact qDeq_command.decode_encode q
  | qFront q => exact qFront_command.decode_encode q
  | qRear q => exact qRear_command.decode_encode q
  | qClear q => exact qClear_command.decode_encode q
  | qSize q => exact qSize_command.decode_encode q
  | frmClass len => exact frmClass_command.decode_encode len
  | arqCtrl b0 b1 => exact arqCtrl_command.decode_encode (b0, b1)
  | arqRxdata seq => exact arqRxdata_command.decode_encode seq
  | arqRxack seq mark => exact arqRxack_command.decode_encode (seq, mark)
  | arqTick => exact arqTick_command.decode_encode ()
  | arqEom => exact arqEom_command.decode_encode ()
  | arqDisc => exact arqDisc_command.decode_encode ()
  | regRd r => exact regRd_command.decode_encode r
  | regClrerr mask => exact regClrerr_command.decode_encode mask

/-! ## Defined and undefined opcodes (R55, R57) -/

/-- The OPC values of the rows of R55. -/
def definedOpcodes : List Byte := opcodeRows.map (opcField ·.pattern)

theorem definedOpcodes_eq : definedOpcodes =
    [0x00#8, 0x10#8, 0x11#8, 0x12#8, 0x13#8, 0x20#8, 0x21#8, 0x22#8, 0x23#8, 0x24#8, 0x25#8, 0x30#8, 0x40#8, 0x41#8,
      0x42#8, 0x43#8, 0x44#8, 0x45#8, 0x50#8, 0x51#8] := by
  decide

theorem mem_definedOpcodes {o : Byte} : o ∈ definedOpcodes ↔ ∃ row ∈ opcodeRows, o = opcField row.pattern := by
  simp only [definedOpcodes, List.mem_map, eq_comm]

theorem decode_of_undefined {w : Word} (h : opcField w ∉ definedOpcodes) :
    decode w = .error (.undefinedOpcode (opcField w)) := by
  simp only [definedOpcodes_eq, List.mem_cons, List.not_mem_nil, or_false, not_or] at h
  simp [decode, h]

/-- The three outcomes of `decode`: a word of the row it fits, a defined OPC with a reserved bit set, an undefined OPC. -/
theorem decode_cases (w : Word) :
    (∃ row ∈ opcodeRows, row.fits w = true ∧ ∃ i, decode w = .ok i ∧ mnemonic i = row.mnemonic ∧ encode i = w) ∨
    (opcField w ∈ definedOpcodes ∧ decode w = .error (.reservedField (opcField w))) ∨
    (opcField w ∉ definedOpcodes ∧ decode w = .error (.undefinedOpcode (opcField w))) := by
  by_cases hw : opcField w ∈ definedOpcodes
  · obtain ⟨row, hrow, hopc⟩ := mem_definedOpcodes.1 hw
    cases hfits : row.fits w with
    | true => exact .inl ⟨row, hrow, hfits, (opcodeRows_decode row hrow).accepts hfits⟩
    | false => exact .inr (.inl ⟨hw, (opcodeRows_decode row hrow).rejects hopc hfits⟩)
  · exact .inr (.inr ⟨hw, decode_of_undefined hw⟩)

/-- A word that decodes fits a row and is the word of its command. -/
theorem fits_and_encode_of_decode {w : Word} {i : Instr} (h : decode w = .ok i) :
    (∃ row ∈ opcodeRows, row.fits w = true ∧ row.mnemonic = mnemonic i) ∧ encode i = w := by
  rcases decode_cases w with ⟨row, hrow, hfits, j, hj, hname, hword⟩ | ⟨-, herr⟩ | ⟨-, herr⟩
  · obtain rfl : j = i := Except.ok.inj (hj.symm.trans h)
    exact ⟨⟨row, hrow, hfits, hname.symm⟩, hword⟩
  · exact nomatch herr.symm.trans h
  · exact nomatch herr.symm.trans h

/-- Settles O2: an accepted word is packed again from the operand its format read. -/
theorem encodeOfDecode : Obligations.EncodeOfDecode :=
  fun _ _ h => (fits_and_encode_of_decode h).2

/-! ## The rows of R55 are disjoint -/

theorem definedOpcodes_nodup : definedOpcodes.Nodup := by
  rw [definedOpcodes_eq]
  decide

theorem eq_of_pattern_opc_eq {r₁ r₂ : OpcodeRow} (h₁ : r₁ ∈ opcodeRows) (h₂ : r₂ ∈ opcodeRows)
    (h : opcField r₁.pattern = opcField r₂.pattern) : r₁ = r₂ :=
  List.inj_on_of_nodup_map definedOpcodes_nodup h₁ h₂ h

/-- Settles O3: a word of two rows would have the OPC of both. -/
theorem decodeFollowsTheOpcodeTable : Obligations.DecodeFollowsTheOpcodeTable := by
  refine ⟨fun w i h => (fits_and_encode_of_decode h).1, fun w row hrow hfits => ?_, fun w r₁ h₁ r₂ h₂ hf₁ hf₂ => ?_⟩
  · obtain ⟨i, hdec, hname, -⟩ := (opcodeRows_decode row hrow).accepts hfits
    exact ⟨i, hdec, hname⟩
  · have hopc₁ := (opcodeRows_decode r₁ h₁).opc_of_fits hf₁
    have hopc₂ := (opcodeRows_decode r₂ h₂).opc_of_fits hf₂
    exact eq_of_pattern_opc_eq h₁ h₂ (hopc₁.symm.trans hopc₂)

/-! ## Undefined opcodes -/

theorem decode_undefined_iff {w : Word} :
    decode w = .error (.undefinedOpcode (opcField w)) ↔ opcField w ∉ definedOpcodes := by
  refine ⟨fun h => ?_, decode_of_undefined⟩
  rcases decode_cases w with ⟨-, -, -, i, hi, -⟩ | ⟨-, herr⟩ | ⟨hw, -⟩
  · exact nomatch hi.symm.trans h
  · exact nomatch herr.symm.trans h
  · exact hw

/-- The gaps between the opcodes of R55 are the ranges of R57. -/
theorem not_mem_definedOpcodes {o : Byte} : o ∉ definedOpcodes ↔
    (0x01 ≤ o.toNat ∧ o.toNat ≤ 0x0F) ∨ (0x14 ≤ o.toNat ∧ o.toNat ≤ 0x1F) ∨ (0x26 ≤ o.toNat ∧ o.toNat ≤ 0x2F) ∨
    (0x31 ≤ o.toNat ∧ o.toNat ≤ 0x3F) ∨ (0x46 ≤ o.toNat ∧ o.toNat ≤ 0x4F) ∨ 0x52 ≤ o.toNat := by
  simp only [definedOpcodes_eq, List.mem_cons, List.not_mem_nil, or_false, ← BitVec.toNat_inj, BitVec.toNat_ofNat]
  omega

/-- Settles O4: exactly the words whose OPC is in no row are rejected as undefined opcodes. -/
theorem undefinedOpcodes : Obligations.UndefinedOpcodes :=
  fun _ => decode_undefined_iff.trans not_mem_definedOpcodes

/-! ## Words of the spec's examples (R67) -/

theorem decode_of_encode_eq {w : Word} {i : Instr} (h : encode i = w) : decode w = .ok i :=
  h ▸ decodeOfEncode i

/-- Settles O5: each word is the `encode` of the command it stands for. -/
theorem sampleWordsDecode : Obligations.SampleWordsDecode := by
  refine ⟨?_, ?_, ?_, ?_, ?_, ?_, ?_, ?_, ?_, ?_⟩ <;> exact decode_of_encode_eq (by decide)

end Sys2Proof

namespace Sys2Proof.Machine

/-! ## Illegal words (R58) -/

theorem runWord_of_decode_error {w : Word} {e : DecodeError} (h : decode w = .error e) (s : State) :
    runWord w s = .next (illegal s) := by
  simp only [runWord, h]

/-- A REG.RD word with a number above 0x11 is ILLEGAL, whether a reserved bit of it is set or not (R56, R181). -/
theorem runWord_regRd_above {w : Word} (hopc : opcField w = 0x50#8) (hsel : 0x11#8 < selField w) (s : State) :
    runWord w s = .next (illegal s) := by
  have hdec := regRd_command.decode_eq (selField w) (opdField w)
  rw [← hopc, packWord_fields] at hdec
  cases hcheck : Format.register.check (selField w) (opdField w) with
  | true =>
    rw [hcheck, acceptIf_true] at hdec
    rw [runWord_of_decode hdec]
    simp only [exec, execRegRd, Format.register, regOfNumber_none.2 hsel]
  | false =>
    rw [hcheck, acceptIf_false] at hdec
    exact runWord_of_decode_error hdec s

theorem runWord_of_no_row {w : Word} (h : ∀ row ∈ opcodeRows, row.fits w = false) (s : State) :
    runWord w s = .next (illegal s) := by
  rcases decode_cases w with ⟨row, hrow, hfits, -⟩ | ⟨-, herr⟩ | ⟨-, herr⟩
  · exact absurd hfits (by rw [h row hrow]; exact Bool.false_ne_true)
  · exact runWord_of_decode_error herr s
  · exact runWord_of_decode_error herr s

/-- Settles O6: each of the two kinds of word runs as `illegal`, which completes. -/
theorem illegalWordOnlySetsErr4AndResponds : Obligations.IllegalWordOnlySetsErr4AndResponds := by
  intro w rest s hv hi hw
  rw [step_command hv hi]
  apply runCommand_next
  rcases hw with hrows | ⟨hopc, hsel⟩
  · exact runWord_of_no_row hrows _
  · exact runWord_regRd_above hopc hsel _

/-! ## Pseudo-instructions (R68) -/

theorem setWidth_packBytes (x m : Byte) :
    (packBytes x m).setWidth 32 = (m.setWidth 16).setWidth 32 ||| x.setWidth 32 <<< 8 := by
  ext i hi
  by_cases h16 : i < 16
  · simp [packBytes, h16, Bool.or_comm]
  · have hx : x.getLsbD (i - 8) = false := BitVec.getLsbD_of_ge _ _ (by omega)
    simp [packBytes, h16, hx]

/-- Byte 0 of a two-byte operand stands in bits 15..8 of the word. -/
theorem packWord_packBytes (o s x m : Byte) :
    packWord o s (packBytes x m) = packWord o s (m.setWidth 16) ||| x.setWidth 32 <<< 8 := by
  rw [packWord, setWidth_packBytes, packWord, BitVec.or_assoc, BitVec.or_assoc, BitVec.or_assoc]

theorem encode_arqRxack_ackMarker (x : Byte) :
    encode (.arqRxack x 0x06#8) = 0x42000006#32 ||| x.setWidth 32 <<< 8 :=
  packWord_packBytes 0x42#8 0#8 x 0x06#8

/-- Settles O7: each expansion is the model's definition, and its words are evaluated. -/
theorem pseudoInstructionsExpand : Obligations.PseudoInstructionsExpand :=
  ⟨⟨rfl, by decide⟩,
    fun x => ⟨rfl, congrArg (fun w => [w]) (encode_arqRxack_ackMarker x)⟩,
    fun n => ⟨rfl, List.map_replicate⟩,
    rfl, by decide⟩

/-! ## The response word (R52) -/

theorem word_status (r : Response) : r.word.extractLsb' 24 8 = r.status.code := by
  ext i hi
  simp [Response.word, hi, show 24 + i < 32 by omega]

theorem word_data (r : Response) : r.word.extractLsb' 0 24 = r.data := by
  ext i hi
  simp [Response.word, hi, show i < 32 by omega]

/-- Settles O8: the two fields of the word do not overlap. -/
theorem responseWordLayout : Obligations.ResponseWordLayout :=
  ⟨fun r => ⟨word_status r, word_data r⟩, rfl⟩

/-! ## Frames on the wire (R61, R62, R64) -/

theorem dataFrame_length (c : Cfg) (x : Byte) (payload : Vector Byte c.dataLen) :
    (dataFrame c x payload).length = c.dataLen + 1 := by
  rw [dataFrame, List.length_cons, Vector.length_toList]

/-- Settles O9: `wireFrame` on each kind of event, and the length of a data frame. -/
theorem wireFrameOfAnEvent : Obligations.WireFrameOfAnEvent :=
  fun c payload x u => ⟨rfl, dataFrame_length c x (payload u), rfl, rfl, rfl, rfl⟩

end Sys2Proof.Machine

/-! The queue commands one by one (40_queue.md R86 to R92): the word of each, the BUSY guard, and the whole next state in
each case. -/

namespace Sys2Proof

/-! ## The words of the queue commands (30_encoding.md R59) -/

theorem packWord_zero_opd (o s : Byte) : packWord o s 0#16 = o.setWidth 32 <<< 24 ||| s.setWidth 32 <<< 16 := by
  rw [packWord, BitVec.setWidth_zero, BitVec.or_zero]

theorem packWord_byte_opd (o s v : Byte) :
    packWord o s (v.setWidth 16) = o.setWidth 32 <<< 24 ||| s.setWidth 32 <<< 16 ||| v.setWidth 32 := by
  rw [packWord, BitVec.setWidth_setWidth (by decide)]

/-- A queue command with no operand but its queue. -/
theorem decode_queueSel {i : Instr} {o : Byte} {q : QSel} (h : encode i = packWord o (queueSelBits q) 0#16) :
    decode (o.setWidth 32 <<< 24 ||| (queueSelBits q).setWidth 32 <<< 16) = .ok i :=
  decode_of_encode_eq (h.trans (packWord_zero_opd o (queueSelBits q)))

theorem decode_qEnq_word (q : QSel) (v : Byte) :
    decode (0x20000000#32 ||| (queueSelBits q).setWidth 32 <<< 16 ||| v.setWidth 32) = .ok (.qEnq q v) :=
  decode_of_encode_eq (packWord_byte_opd 0x20#8 (queueSelBits q) v)

end Sys2Proof

namespace Sys2Proof.Machine

/-! ## The BUSY guard (R86) -/

theorem exec_changesQueue_busy (i : Instr) (h : changesQueue i) {s : State} (hs : s.fsm = .transmitting) :
    exec i s = .next (respond .busy 0#24 s) := by
  obtain ⟨f, hexec, -, -⟩ := exec_changesQueue h
  rw [hexec, unlessBusy_busy hs]

section
variable {s : State} (hi : s.fsm = .idle)
include hi

theorem exec_qEnq_idle (q : QSel) (v : Byte) : exec (.qEnq q v) s = .next (enqCommand q v s) :=
  congrArg Host.Outcome.next (unlessBusy_idle hi _)

theorem exec_qDeq_idle (q : QSel) : exec (.qDeq q) s = .next (deqCommand q s) :=
  congrArg Host.Outcome.next (unlessBusy_idle hi _)

theorem exec_qClear_idle (q : QSel) : exec (.qClear q) s = .next (clearCommand q s) :=
  congrArg Host.Outcome.next (unlessBusy_idle hi _)

end

/-! ## Q.ENQ (R87) -/

theorem enqCommand_txq_ok {s : State} (h : s.txq.size.toNat ≠ s.cfg.w) (v : Byte) :
    enqCommand .txq v s = respond .ok ((s.txq.size + 1#8).setWidth 24) { s with
      txq := s.txq.pushed s.cfg.w v
      ackbits := s.ackbits &&& ~~~(1#16 <<< s.txq.nextRear s.cfg.w) } := by
  rw [enqCommand_ok (q := .txq) h, qenq_txq_ok h, qsize, queue_txq, Queue.pushed_size]

theorem enqCommand_rxq_ok {s : State} (h : s.rxq.size.toNat ≠ s.cfg.d) (v : Byte) :
    enqCommand .rxq v s =
      respond .ok ((s.rxq.size + 1#8).setWidth 24) { s with rxq := s.rxq.pushed s.cfg.d v } := by
  rw [enqCommand_ok (q := .rxq) h, qenq_rxq_ok h, qsize, queue_rxq, Queue.pushed_size]

/-- Settles O27, a case of the command each: TXQ and RXQ with room, a full queue, BUSY. -/
theorem enqueueWritesTheNextSlot : Obligations.EnqueueWritesTheNextSlot := by
  refine ⟨decode_qEnq_word, fun v s hi h => ?_, fun v s hi h => ?_, fun q v s hi h => ?_, fun q v s hs => ?_⟩
  · rw [exec_qEnq_idle hi, enqCommand_txq_ok h]; rfl
  · rw [exec_qEnq_idle hi, enqCommand_rxq_ok h]; rfl
  · rw [exec_qEnq_idle hi, enqCommand_full h]; rfl
  · exact exec_changesQueue_busy (.qEnq q v) trivial hs

/-! ## Q.DEQ (R88) -/

theorem deqCommand_txq_ok {s : State} (h : s.txq.size ≠ 0#8) :
    deqCommand .txq s = respond .ok ((s.txq.size - 1#8).setWidth 24) { s with
      txq := s.txq.popped s.cfg.w
      ackbits := s.ackbits &&& ~~~(1#16 <<< s.txq.front.toNat) } := by
  rw [deqCommand_ok (q := .txq) h, qdeq_txq_ok h, qsize, queue_txq, Queue.popped_size]

theorem deqCommand_rxq_ok {s : State} (h : s.rxq.size ≠ 0#8) :
    deqCommand .rxq s =
      respond .ok ((s.rxq.size - 1#8).setWidth 24) { s with rxq := s.rxq.popped s.cfg.d } := by
  rw [deqCommand_ok (q := .rxq) h, qdeq_rxq_ok h, qsize, queue_rxq, Queue.popped_size]

/-- Settles O28, a case of the command each: a non-empty TXQ and RXQ, an empty queue, BUSY. -/
theorem dequeueDropsTheFrontEntry : Obligations.DequeueDropsTheFrontEntry := by
  refine ⟨fun _ => decode_queueSel (o := 0x21#8) rfl, fun s hi h => ?_, fun s hi h => ?_, fun q s hi h => ?_,
    fun q s hs => ?_⟩
  · rw [exec_qDeq_idle hi, deqCommand_txq_ok h]; rfl
  · rw [exec_qDeq_idle hi, deqCommand_rxq_ok h]; rfl
  · rw [exec_qDeq_idle hi, deqCommand_empty h]; rfl
  · exact exec_changesQueue_busy (.qDeq q) trivial hs

/-! ## Q.FRONT and Q.REAR (R89, R90) -/

namespace Queue

variable {cap : Nat} {q : Queue}

theorem slotAt_of_getElem? {i : Nat} {v : Byte} (h : q.slot[i]? = some v) : q.slotAt i = v := by
  rw [slotAt, List.getD_eq_getElem?_getD, h, Option.getD_some]

theorem getElem?_front (hq : q.Wf cap) : q.slot[q.front.toNat]? = some (q.slotAt q.front.toNat) := by
  have hlt : q.front.toNat < q.slot.length := hq.slots.symm ▸ hq.front_lt
  rw [slotAt, List.getD_eq_getElem _ _ hlt, List.getElem?_eq_getElem hlt]

/-- The only entry is the oldest and the newest one. -/
theorem rear_eq_front (hq : q.Wf cap) (h : q.size = 1#8) : q.rear = q.front := by
  have hlast := entryIndex_last hq (by rw [h]; decide)
  have hoffset : q.size.toNat - 1 = 0 := by rw [h]; rfl
  rw [hoffset, entryIndex_zero hq] at hlast
  exact (BitVec.eq_of_toNat_eq hlast).symm

end Queue

section
variable {q : QSel} {s : State}

theorem exec_qFront_ok {v : Byte} (h : (s.queue q).size ≠ 0#8)
    (hv : (s.queue q).slot[(s.queue q).front.toNat]? = some v) :
    exec (.qFront q) s = .next (respond .ok (v.setWidth 24) s) := by
  rw [exec, execQFront, qfront_value h, Queue.slotAt_of_getElem? hv, peekResponse]

theorem exec_qRear_ok {v : Byte} (h : (s.queue q).size ≠ 0#8)
    (hv : (s.queue q).slot[(s.queue q).rear.toNat]? = some v) :
    exec (.qRear q) s = .next (respond .ok (v.setWidth 24) s) := by
  rw [exec, execQRear, qrear_value h, Queue.slotAt_of_getElem? hv, peekResponse]

theorem exec_qFront_empty (h : (s.queue q).size = 0#8) :
    exec (.qFront q) s = .next (respond .qEmpty 0#24 (setErr .qEmpty s)) := by
  rw [exec, execQFront, qfront_empty h, peekResponse]

theorem exec_qRear_empty (h : (s.queue q).size = 0#8) :
    exec (.qRear q) s = .next (respond .qEmpty 0#24 (setErr .qEmpty s)) := by
  rw [exec, execQRear, qrear_empty h, peekResponse]

end

/-- Settles O29; with one entry the rear register is the front register, so both commands answer the same slot. -/
theorem frontAndRearAnswerTheEndSlots : Obligations.FrontAndRearAnswerTheEndSlots := by
  refine ⟨fun _ => ⟨decode_queueSel (o := 0x22#8) rfl, decode_queueSel (o := 0x23#8) rfl⟩,
    fun _ _ _ => exec_qFront_ok, fun _ _ _ => exec_qRear_ok,
    fun _ _ h => ⟨exec_qFront_empty h, exec_qRear_empty h⟩, fun q s hw h => ?_⟩
  have hq := queuesWf_iff.1 hw q
  have h0 : (s.queue q).size ≠ 0#8 := by rw [h]; decide
  have hrear := Queue.rear_eq_front hq h
  have hslot := Queue.getElem?_front hq
  exact ⟨hrear, _, hslot, exec_qFront_ok h0 hslot, exec_qRear_ok h0 (hrear.symm ▸ hslot)⟩

/-! ## Q.CLEAR (R91) -/

/-- Settles O30: the guard and `qclear` on each queue. -/
theorem clearEmptiesTheQueue : Obligations.ClearEmptiesTheQueue := by
  refine ⟨fun _ => decode_queueSel (o := 0x24#8) rfl, fun s hi => ⟨?_, ?_⟩,
    fun q s hs => exec_changesQueue_busy (.qClear q) trivial hs⟩
  · rw [exec_qClear_idle hi, clearCommand, qclear_txq]; rfl
  · rw [exec_qClear_idle hi, clearCommand, qclear_rxq]; rfl

/-! ## Q.SIZE (R92) -/

theorem exec_qSize (q : QSel) (s : State) : exec (.qSize q) s = .next (respond .ok ((s.queue q).size.setWidth 24) s) := rfl

/-- Settles O31: the command has no case, and the bound is R27's. -/
theorem sizeAnswersTheCount : Obligations.SizeAnswersTheCount :=
  ⟨fun _ => decode_queueSel (o := 0x25#8) rfl, exec_qSize, fun q _ hw => (queuesWf_iff.1 hw q).size_le⟩

/-! ## Which queue commands answer BUSY (R86) -/

/-- The read of one end of a queue answers a value or Q_EMPTY. -/
theorem peekResponse_not_busy (p : PeekResult × State) :
    ∃ r : Response, (peekResponse p).rsps = p.2.rsps ++ [r] ∧ r.status ≠ .busy := by
  obtain ⟨result, t⟩ := p
  cases result with
  | value v => exact ⟨⟨.ok, v.setWidth 24⟩, rfl, nofun⟩
  | empty => exact ⟨⟨.qEmpty, 0#24⟩, rfl, nofun⟩

theorem qfront_rsps (q : QSel) (s : State) : (qfront q s).2.rsps = s.rsps := by
  by_cases h : (s.queue q).size = 0#8
  · rw [qfront_empty h, setErr_rsps]
  · rw [qfront_value h]

theorem qrear_rsps (q : QSel) (s : State) : (qrear q s).2.rsps = s.rsps := by
  by_cases h : (s.queue q).size = 0#8
  · rw [qrear_empty h, setErr_rsps]
  · rw [qrear_value h]

/-- Settles O32: the guard stands before the three commands that change a queue, and before none that reads one. -/
theorem busyGuard : Obligations.BusyGuard := by
  refine ⟨fun q v s hs => ⟨exec_changesQueue_busy (.qEnq q v) trivial hs, exec_changesQueue_busy (.qDeq q) trivial hs,
    exec_changesQueue_busy (.qClear q) trivial hs⟩, fun q s => ?_⟩
  refine List.forall_mem_cons.2 ⟨?front, List.forall_mem_cons.2 ⟨?rear, List.forall_mem_singleton.2 ?size⟩⟩
  case front =>
    obtain ⟨r, hrsps, hstatus⟩ := peekResponse_not_busy (qfront q s)
    exact ⟨_, r, rfl, by rw [hrsps, qfront_rsps], hstatus⟩
  case rear =>
    obtain ⟨r, hrsps, hstatus⟩ := peekResponse_not_busy (qrear q s)
    exact ⟨_, r, rfl, by rw [hrsps, qrear_rsps], hstatus⟩
  case size => exact ⟨_, _, exec_qSize q s, rfl, nofun⟩

end Sys2Proof.Machine

/-! The codec commands one by one (41_fec.md R102 to R111): the word of each, the functions over GF(2) bit by bit, the
whole next state, and the default code. -/

namespace Sys2Proof

/-! ## The words of the codec commands (30_encoding.md R60) -/

/-- A command whose operand is the low bits of OPD, all else of SEL and OPD reserved. -/
theorem packWord_low_opd {n : Nat} (hn : n ≤ 16) (o : Byte) (x : BitVec n) :
    packWord o 0#8 (x.setWidth 16) = o.setWidth 32 <<< 24 ||| x.setWidth 32 := by
  rw [packWord, BitVec.setWidth_zero, BitVec.zero_shiftLeft, BitVec.or_zero,
    BitVec.setWidth_setWidth fun h => absurd h.1 (by omega)]

theorem decode_fecEnc_word (sym : Symbol) : decode (0x10000000#32 ||| sym.setWidth 32) = .ok (.fecEnc sym) :=
  decode_of_encode_eq (packWord_low_opd (by decide) 0x10#8 sym)

theorem decode_fecSyn_word (cw : Codeword) : decode (0x11000000#32 ||| cw.setWidth 32) = .ok (.fecSyn cw) :=
  decode_of_encode_eq (packWord_low_opd (by decide) 0x11#8 cw)

theorem decode_fecCor_word (cw : Codeword) : decode (0x12000000#32 ||| cw.setWidth 32) = .ok (.fecCor cw) :=
  decode_of_encode_eq (packWord_low_opd (by decide) 0x12#8 cw)

theorem decode_fecDec_word (cw : Codeword) : decode (0x13000000#32 ||| cw.setWidth 32) = .ok (.fecDec cw) :=
  decode_of_encode_eq (packWord_low_opd (by decide) 0x13#8 cw)

end Sys2Proof

namespace Sys2Proof.Machine

/-! ## The encoder and the syndrome bit by bit (R102, R103) -/

theorem getLsbD_enc (k : Code) (m : Symbol) (j : Nat) : (enc k m).getLsbD j =
    ((m.getLsbD 2 && k.g1.getLsbD j) ^^ (m.getLsbD 1 && k.g2.getLsbD j) ^^ (m.getLsbD 0 && k.g3.getLsbD j)) := by
  simp only [enc, BitVec.getLsbD_xor, getLsbD_gf2Scale]

/-- R106's sum of bits, from bit 0 up. -/
theorem parity_eq_foldl (v : Codeword) : parity v = ((List.range 6).map v.getLsbD).foldl xor false := by
  simp [parity, List.range_succ, Bool.xor_comm]

theorem parity_and_row (c h : Codeword) :
    parity (c &&& h) = ((List.range 6).map fun j => c.getLsbD j && h.getLsbD j).foldl xor false := by
  have hbits : (c &&& h).getLsbD = fun j => c.getLsbD j && h.getLsbD j := funext fun _ => BitVec.getLsbD_and
  rw [parity_eq_foldl, hbits]

theorem getLsbD_packSyndrome : ∀ s1 s2 s3 : Bool, (packSyndrome s1 s2 s3).getLsbD 2 = s1 ∧
    (packSyndrome s1 s2 s3).getLsbD 1 = s2 ∧ (packSyndrome s1 s2 s3).getLsbD 0 = s3 := by
  decide

/-- Each bit of the syndrome is the parity of the word against its row of H. -/
theorem getLsbD_syn (k : Code) (c : Codeword) : (syn k c).getLsbD 2 = parity (c &&& k.h1) ∧
    (syn k c).getLsbD 1 = parity (c &&& k.h2) ∧ (syn k c).getLsbD 0 = parity (c &&& k.h3) :=
  getLsbD_packSyndrome _ _ _

/-- Settles O19: the products for every code; those of the default code lose the terms of its zero bits. -/
theorem encodeAndSyndromeAreMatrixProducts : Obligations.EncodeAndSyndromeAreMatrixProducts := by
  refine ⟨fun k m j => getLsbD_enc k m j, fun k c => ?_, fun m => ?_, fun c => ?_⟩
  · simp only [← parity_and_row]
    exact getLsbD_syn k c
  · simp only [getLsbD_enc]
    simp [Code.standard]
  · simp only [getLsbD_syn]
    simp [parity, Code.standard]

/-! ## FEC.ENC (R107) -/

theorem enc_zero (k : Code) : enc k 0#3 = 0#6 := by
  simp [enc, gf2Scale]

/-- Settles O20: the command has no case. -/
theorem fecEncAnswersTheCodeword : Obligations.FecEncAnswersTheCodeword :=
  ⟨decode_fecEnc_word, fun _ _ => rfl, enc_zero, by decide⟩

/-! ## FEC.SYN (R108) -/

/-- The codeword sent drops out of the syndrome. -/
theorem syn_enc_xor {k : Code} (hk : k.valid = true) (m : Symbol) (e : Codeword) : syn k (enc k m ^^^ e) = syn k e := by
  rw [syn_xor, syn_enc hk, BitVec.zero_xor]

/-- Settles O21: the syndrome is linear, and 0 on codewords by R9 (c). -/
theorem fecSynAnswersTheSyndrome : Obligations.FecSynAnswersTheSyndrome :=
  ⟨decode_fecSyn_word, fun _ _ => rfl, fun _ m e hk => ⟨syn_enc_xor hk m e, syn_enc hk m⟩, by decide⟩

/-! ## FEC.COR (R104, R109) -/

/-- Fields side by side, the lower one in the bits that the shift has freed. -/
theorem toNat_shiftLeft_or {w i : Nat} {a b : BitVec w} (ha : a.toNat * 2 ^ i < 2 ^ w) (hb : b.toNat < 2 ^ i) :
    (a <<< i ||| b).toNat = a.toNat * 2 ^ i + b.toNat := by
  rw [BitVec.toNat_or, BitVec.toNat_shiftLeft, Nat.shiftLeft_eq, Nat.mod_eq_of_lt ha, ← Nat.shiftLeft_eq,
    ← Nat.shiftLeft_add_eq_or_of_lt hb]

/-- The three fields of the DATA do not overlap, so it is their sum. -/
theorem corData_eq_ofNat (p : BitVec 3) (sy : Syndrome) (c : Codeword) :
    corData p sy c = BitVec.ofNat 24 (65536 * p.toNat + 256 * sy.toNat + c.toNat) := by
  have hp : (p.setWidth 24).toNat = p.toNat := BitVec.toNat_setWidth_of_le (by decide)
  have hsy : (sy.setWidth 24).toNat = sy.toNat := BitVec.toNat_setWidth_of_le (by decide)
  have hc : (c.setWidth 24).toNat = c.toNat := BitVec.toNat_setWidth_of_le (by decide)
  have hlow : (sy.setWidth 24 <<< 8 ||| c.setWidth 24).toNat = sy.toNat * 2 ^ 8 + c.toNat := by
    rw [toNat_shiftLeft_or (by omega) (by omega), hsy, hc]
  have hdata : (corData p sy c).toNat = p.toNat * 2 ^ 16 + (sy.toNat * 2 ^ 8 + c.toNat) := by
    rw [corData, BitVec.or_assoc, toNat_shiftLeft_or (by omega) (by omega), hp, hlow]
  apply BitVec.eq_of_toNat_eq
  rw [hdata, BitVec.toNat_ofNat]
  omega

theorem cor_of_uncovered {k : Code} {c : Codeword} (hne : syn k c ≠ 0#3)
    (h : ∀ p : Fin 6, (syn k c, p) ∉ k.synTab) : cor k c = .uncorrectable := by
  have hnone : synPosition k (syn k c) = none :=
    List.lookup_eq_none_iff.2 fun e he => bne_iff_ne.2 fun hce => h e.2 (hce ▸ he)
  simp only [cor, hne, if_false, hnone]

section
variable {s : State} {cw : Codeword}

theorem exec_fecCor_clean {c : Codeword} (h : cor s.cfg.code cw = .clean c) :
    exec (.fecCor cw) s = .next (respond .ok (corData 0#3 (syn s.cfg.code cw) c) s) := by
  simp only [exec, execFecCor, h]

theorem exec_fecCor_fixed {c : Codeword} {p : Fin 6} (h : cor s.cfg.code cw = .fixed c p) :
    exec (.fecCor cw) s = .next (respond .corrected (corData (BitVec.ofNat 3 p.val) (syn s.cfg.code cw) c) s) := by
  simp only [exec, execFecCor, h]

theorem exec_fecCor_uncorrectable (h : cor s.cfg.code cw = .uncorrectable) : exec (.fecCor cw) s =
    .next (respond .uncorrectable (corData 0#3 (syn s.cfg.code cw) 0#6) (setErr .fecFault s)) := by
  simp only [exec, execFecCor, h]

end

/-- Settles O22, an outcome of the corrector each: a zero syndrome, one in SYNTAB, one that is not. -/
theorem fecCorDetectsAndCorrects : Obligations.FecCorDetectsAndCorrects := by
  refine ⟨decode_fecCor_word, fun cw s h0 => ?clean, fun cw p s hv hp => ?fixed, fun cw s hne hno => ?uncorrectable⟩
  case clean =>
    rw [exec_fecCor_clean (cor_of_syn_zero h0), corData_eq_ofNat, h0]
    simp [respond]
  case fixed =>
    have hp8 : p.val < 8 := by omega
    rw [exec_fecCor_fixed (cor_of_covered (Cfg.valid_code hv) hp), corData_eq_ofNat, BitVec.toNat_ofNat,
      Nat.mod_eq_of_lt hp8]
    rfl
  case uncorrectable =>
    rw [exec_fecCor_uncorrectable (cor_of_uncovered hne hno), corData_eq_ofNat]
    simp [respond, setErr, ErrBit.number]

/-! ## FEC.DEC (R105, R110) -/

/-- R of the default code selects the three low bits, one for each column. -/
theorem dec_standard (c : Codeword) : dec Code.standard c = c.extractLsb' 0 3 := by
  refine BitVec.eq_of_getLsbD_eq fun j hj => ?_
  rw [getLsbD_dec]
  interval_cases j <;> simp [bitPositions, selectorRow, Code.standard]

/-- Settles O23: the command has no case, and R9 (e) undoes the encoding. -/
theorem fecDecAppliesTheSelector : Obligations.FecDecAppliesTheSelector :=
  ⟨decode_fecDec_word, fun _ _ => rfl, fun k c j => getLsbD_dec k c j, dec_standard, fun _ m hk => dec_enc hk m,
    by decide⟩

/-! ## The default code (R111) -/

theorem standard_covers_every_position : ∀ p : Fin 6, (hColumn Code.standard p, p) ∈ Code.standard.synTab := by
  decide

/-- The errors at positions 5 and 4 on the codeword 0 have the column of position 2 as their syndrome, and the flip there
gives another codeword. -/
theorem standard_miscorrects_a_double_error :
    cor Code.standard (enc Code.standard 0#3 ^^^ (1#6 <<< 5) ^^^ (1#6 <<< 4)) = .fixed 0b110100#6 2 := by
  decide

/-- Settles O25: the table and the weights are evaluated; SYNTAB covers every position, so every single-bit error is
corrected. -/
theorem defaultCodeTable : Obligations.DefaultCodeTable :=
  ⟨by decide, by decide, ⟨0b001#3, by decide⟩,
    fun m p => cor_enc_oneBit Code.standard_valid m (standard_covers_every_position p),
    ⟨0#3, 5, 4, 0b110100#6, 2, by decide, standard_miscorrects_a_double_error, by decide⟩⟩

end Sys2Proof.Machine

/-! The frame classification (42_frame.md R120 to R122): the length rule case by case, FRM.CLASS in each case, which lengths
are ambiguous, and the commands that a received buffer becomes. -/

namespace Sys2Proof

theorem decode_frmClass_word (len : Half) : decode (0x30000000#32 ||| len.setWidth 32) = .ok (.frmClass len) :=
  decode_of_encode_eq (packWord_low_opd (by decide) 0x30#8 len)

end Sys2Proof

namespace Sys2Proof.Machine

/-! ## The length rule (R120) -/

section
variable {c : Cfg} {len : Nat}

theorem classify_ambiguous (h : 0 < len) (hd : c.dataLen + 1 ∣ len) (ha : 2 ∣ len) : classify c len = .ambiguous := by
  simp [classify, dataFrameSize, ackFrameSize, h, Nat.mod_eq_zero_of_dvd hd, Nat.mod_eq_zero_of_dvd ha]

theorem classify_dataFrames (h : 0 < len) (hd : c.dataLen + 1 ∣ len) (ha : ¬2 ∣ len) :
    classify c len = .dataFrames (len / (c.dataLen + 1)) := by
  rw [Nat.dvd_iff_mod_eq_zero] at ha
  simp [classify, dataFrameSize, ackFrameSize, h, Nat.mod_eq_zero_of_dvd hd, ha]

theorem classify_ackFrames (h : 0 < len) (hd : ¬c.dataLen + 1 ∣ len) (ha : 2 ∣ len) :
    classify c len = .ackFrames (len / 2) := by
  rw [Nat.dvd_iff_mod_eq_zero] at hd
  simp [classify, dataFrameSize, ackFrameSize, h, hd, Nat.mod_eq_zero_of_dvd ha]

theorem classify_unclassified (h : len = 0 ∨ (¬c.dataLen + 1 ∣ len ∧ ¬2 ∣ len)) : classify c len = .unclassified := by
  rcases h with rfl | ⟨hd, ha⟩
  · rfl
  · rw [Nat.dvd_iff_mod_eq_zero] at hd ha
    simp [classify, dataFrameSize, ackFrameSize, hd, ha]

theorem classify_eq_ambiguous_iff : classify c len = .ambiguous ↔ 0 < len ∧ c.dataLen + 1 ∣ len ∧ 2 ∣ len := by
  refine ⟨fun h => ?_, fun ⟨hpos, hd, ha⟩ => classify_ambiguous hpos hd ha⟩
  rcases Nat.eq_zero_or_pos len with h0 | hpos
  · rw [classify_unclassified (.inl h0)] at h
    cases h
  · by_cases hd : c.dataLen + 1 ∣ len <;> by_cases ha : 2 ∣ len
    · exact ⟨hpos, hd, ha⟩
    · rw [classify_dataFrames hpos hd ha] at h
      cases h
    · rw [classify_ackFrames hpos hd ha] at h
      cases h
    · rw [classify_unclassified (.inr ⟨hd, ha⟩)] at h
      cases h

end

/-- Settles O35: an odd DATALEN makes SD a multiple of 2, an even one makes it coprime to 2. -/
theorem ambiguousLengthsByParityOfDatalen : Obligations.AmbiguousLengthsByParityOfDatalen := by
  refine fun c len => ⟨fun hodd hpos hd => ?_, fun heven => ?_⟩
  · have hsd : 2 ∣ c.dataLen + 1 := by omega
    exact classify_ambiguous hpos hd (hsd.trans hd)
  · have hco : Nat.Coprime 2 (c.dataLen + 1) := Nat.coprime_two_left.2 (Nat.even_iff.2 heven).add_one
    rw [classify_eq_ambiguous_iff, ← hco.lcm_eq_mul, Nat.lcm_dvd_iff, and_comm (a := 2 ∣ len)]

/-! ## FRM.CLASS (R120) -/

/-- The kind and the count of the DATA do not overlap, so it is their sum. -/
theorem classData_eq_ofNat (kind : BitVec 2) {n : Nat} (hn : n < 2 ^ 16) :
    classData kind n = BitVec.ofNat 24 (kind.toNat * 65536 + n) := by
  have hkind : (kind.setWidth 24).toNat = kind.toNat := BitVec.toNat_setWidth_of_le (by decide)
  have hcount : ((BitVec.ofNat 16 n).setWidth 24).toNat = n := by
    rw [BitVec.toNat_setWidth_of_le (by decide), BitVec.toNat_ofNat, Nat.mod_eq_of_lt hn]
  apply BitVec.eq_of_toNat_eq
  rw [classData, toNat_shiftLeft_or (by omega) (by omega), hkind, hcount, BitVec.toNat_ofNat]
  omega

section
variable {s : State} {len : Half} {n : Nat}

theorem exec_frmClass_ambiguous (h : classify s.cfg len.toNat = .ambiguous) :
    exec (.frmClass len) s = .next (respond .classAmbiguous 0#24 (setErr .ambig s)) := by
  simp only [exec, execFrmClass, h]

theorem exec_frmClass_dataFrames (h : classify s.cfg len.toNat = .dataFrames n) :
    exec (.frmClass len) s = .next (respond .ok (classData 1#2 n) s) := by
  simp only [exec, execFrmClass, h]

theorem exec_frmClass_ackFrames (h : classify s.cfg len.toNat = .ackFrames n) :
    exec (.frmClass len) s = .next (respond .ok (classData 2#2 n) s) := by
  simp only [exec, execFrmClass, h]

theorem exec_frmClass_unclassified (h : classify s.cfg len.toNat = .unclassified) :
    exec (.frmClass len) s = .next (respond .classNone 0#24 s) := by
  simp only [exec, execFrmClass, h]

end

/-- Settles O34, a case of the length rule each; a count is at most the length, so it fits its 16 bits. -/
theorem frmClassAppliesTheLengthRule : Obligations.FrmClassAppliesTheLengthRule := by
  unfold Obligations.FrmClassAppliesTheLengthRule
  simp only [ne_eq, ← Nat.dvd_iff_mod_eq_zero]
  have count_lt (len : Half) (k : Nat) : len.toNat / k < 2 ^ 16 := (Nat.div_le_self _ _).trans_lt len.isLt
  refine ⟨decode_frmClass_word, fun len s h hd ha => ?ambiguous, fun len s h hd ha => ?data,
    fun len s h hd ha => ?ack, fun len s h => ?none⟩
  case ambiguous =>
    rw [exec_frmClass_ambiguous (classify_ambiguous h hd ha)]
    rfl
  case data =>
    rw [exec_frmClass_dataFrames (classify_dataFrames h hd ha), classData_eq_ofNat _ (count_lt len _)]
    rfl
  case ack =>
    rw [exec_frmClass_ackFrames (classify_ackFrames h hd ha), classData_eq_ofNat _ (count_lt len _)]
    rfl
  case none =>
    rw [exec_frmClass_unclassified (classify_unclassified h)]
    rfl

/-! ## The commands of a received buffer (R63, R121, R122) -/

section
variable {size : Nat} {frames : List (List Byte)}

theorem flatten_length_of_size (h : ∀ f ∈ frames, f.length = size) : frames.flatten.length = frames.length * size := by
  rw [List.length_flatten, List.map_congr_left h, List.map_const', List.sum_replicate, smul_eq_mul]

/-- Cutting undoes putting frames of one size behind each other. -/
theorem cutFrames_flatten (h : ∀ f ∈ frames, f.length = size) :
    cutFrames size frames.length frames.flatten = frames := by
  induction frames with
  | nil => rfl
  | cons f fs ih =>
    obtain ⟨hf, hfs⟩ := List.forall_mem_cons.1 h
    rw [List.length_cons, List.flatten_cons, cutFrames, List.take_left' hf, List.drop_left' hf, ih hfs]

/-- A buffer of frames of one size is as many frames long, and not empty when there is one. -/
theorem flatten_length_facts (hsize : 0 < size) (hne : frames ≠ []) (h : ∀ f ∈ frames, f.length = size) :
    0 < frames.flatten.length ∧ size ∣ frames.flatten.length ∧ frames.flatten.length / size = frames.length := by
  rw [flatten_length_of_size h]
  exact ⟨Nat.mul_pos (List.length_pos_of_ne_nil hne) hsize, Nat.dvd_mul_left _ _, Nat.mul_div_cancel _ hsize⟩

theorem bufferCommands_of_data {c : Cfg} (hne : frames ≠ []) (h : ∀ f ∈ frames, f.length = c.dataLen + 1)
    (ha : ¬2 ∣ frames.length * (c.dataLen + 1)) : bufferCommands c frames.flatten = frames.map rxdataOf := by
  obtain ⟨hpos, hd, hcount⟩ := flatten_length_facts (Nat.succ_pos _) hne h
  rw [← flatten_length_of_size h] at ha
  simp only [bufferCommands, classify_dataFrames hpos hd ha, hcount, dataFrameSize, cutFrames_flatten h]

theorem bufferCommands_of_ack {c : Cfg} (hne : frames ≠ []) (h : ∀ f ∈ frames, f.length = 2)
    (hd : ¬c.dataLen + 1 ∣ frames.length * 2) : bufferCommands c frames.flatten = frames.map rxackOf := by
  obtain ⟨hpos, ha, hcount⟩ := flatten_length_facts (by decide) hne h
  rw [← flatten_length_of_size h] at hd
  simp only [bufferCommands, classify_ackFrames hpos hd ha, hcount, ackFrameSize, cutFrames_flatten h]

end

theorem bufferCommands_of_ambiguous {c : Cfg} {buf : List Byte} (hne : buf ≠ []) (hd : c.dataLen + 1 ∣ buf.length)
    (ha : 2 ∣ buf.length) : bufferCommands c buf = [] := by
  simp only [bufferCommands, classify_ambiguous (List.length_pos_of_ne_nil hne) hd ha]

theorem receivedCommands_startSignal (c : Cfg) : receivedCommands c startSignal = [startCommand] :=
  if_pos rfl

theorem receivedCommands_of_ne {buf : List Byte} (h : buf ≠ startSignal) (c : Cfg) :
    receivedCommands c buf = bufferCommands c buf :=
  if_neg h

/-- Settles O36: a buffer whose length only one frame size divides is cut back into the frames it was made of. -/
theorem bufferBecomesOneCommandAFrame : Obligations.BufferBecomesOneCommandAFrame := by
  refine ⟨fun c frames hne hlen hodd => ?data, fun c frames hne hd => ?ack,
    fun c buf => bufferCommands_of_ambiguous, fun c => ?start, fun c buf h => receivedCommands_of_ne h c⟩
  case data =>
    have hsize : ∀ f ∈ frames.map fun f => f.1 :: f.2, f.length = c.dataLen + 1 :=
      List.forall_mem_map.2 fun f hf => congrArg (· + 1) (hlen f hf)
    rw [bufferCommands_of_data (mt List.map_eq_nil_iff.1 hne) hsize (by rw [List.length_map]; omega), List.map_map]
    rfl
  case ack =>
    have hsize : ∀ f ∈ frames.map fun f => [f.1, f.2], f.length = 2 := List.forall_mem_map.2 fun _ _ => rfl
    rw [bufferCommands_of_ack (mt List.map_eq_nil_iff.1 hne) hsize (by rwa [List.length_map, Nat.mul_comm]),
      List.map_map]
    rfl
  case start =>
    have hstart := receivedCommands_startSignal c
    exact ⟨hstart, (congrArg (List.map encode) hstart).trans (by decide)⟩

end Sys2Proof.Machine

/-! The frames that DATA events carry (10_state.md R30; 43_arq.md R134, R136, R166): a retransmission sends the outstanding
frames, and every frame, first sent or sent again, has the sequence number of its unit. -/

namespace Sys2Proof.Machine

/-! ## Retransmission (R136) -/

section
variable {s : State} (h : Window s)
include h

/-- The 16-bit unit of an entry is the unit over the integers. -/
theorem Window.unitOf_eq (j : Nat) : unitOf s j = BitVec.ofNat 16 (unitAt s j) := by
  have hle := h.units_sent
  have hsize := s.txq.size.isLt
  have hcount := s.sentCount.isLt
  apply BitVec.eq_of_toNat_eq
  simp only [unitOf, unitAt, BitVec.toNat_add, BitVec.toNat_sub, BitVec.toNat_setWidth, BitVec.toNat_ofNat]
  omega

theorem Window.unitAt_lt {j : Nat} (hj : j < s.txq.size.toNat) : unitAt s j < s.sentCount.toNat := by
  have hle := h.units_sent
  rw [unitAt]
  omega

theorem Window.resendFrames_eq : resendFrames s (List.range s.txq.size.toNat) = outstandingFrames s := by
  have hagain : (fun j => resends s (s.txq.entryIndex s.cfg.w j)) = sentAgain s := rfl
  rw [resendFrames, hagain, outstandingFrames]
  exact List.map_congr_left fun j _ => by rw [h.unitOf_eq]

theorem Window.retransmit_eq : retransmit s =
    if (outstandingFrames s).length ≤ s.draws.length then
      some { s with
        draws := s.draws.drop (outstandingFrames s).length
        events := s.events ++ dataEvents s.cfg.pData (outstandingFrames s) s.draws }
    else none := by
  rw [Machine.retransmit_eq, h.resendFrames_eq]

end

/-- Settles O49: `retransmit()` emits `resendFrames`, which under the invariant are the outstanding frames. -/
theorem retransmitOnlyEmits : Obligations.RetransmitOnlyEmits := by
  intro s h ht hdraws
  rw [(h.unchecked ht).window.retransmit_eq, if_pos hdraws]

/-! ## Frames and the numbers of their units (R166) -/

/-- The frame names a unit of the message and has that unit's sequence number. -/
def FrameCarriesUnit (c : Cfg) (f : Byte × Half) : Prop := f.1 = seqOfUnit c f.2.toNat ∧ f.2.toNat < c.m

/-- A DATA event's frame does; the other events carry no frame of the message. -/
def Event.CarriesUnit (c : Cfg) : Event → Prop
  | .data x u _ => FrameCarriesUnit c (x, u)
  | .ack _ _ => True
  | .accept _ => True

theorem carriesUnit_of_mem_dataEvents {c : Cfg} {p : Nat} {frames : List (Byte × Half)}
    (h : ∀ f ∈ frames, FrameCarriesUnit c f) {us : List Draw} : ∀ e ∈ dataEvents p frames us, e.CarriesUnit c := by
  induction frames generalizing us with
  | nil => exact fun e he => absurd he (List.not_mem_nil)
  | cons f fs ih =>
    obtain ⟨hf, hfs⟩ := List.forall_mem_cons.1 h
    cases us with
    | nil => exact fun e he => absurd he (List.not_mem_nil)
    | cons u us => exact List.forall_mem_cons.2 ⟨hf, ih hfs⟩

/-- The step of a procedure from `s` to `t` emits, and every DATA event that it emits carries its unit. -/
def EmitsUnits (s t : State) : Prop :=
  t.cfg = s.cfg ∧ ∃ evs, t.events = s.events ++ evs ∧ ∀ e ∈ evs, e.CarriesUnit s.cfg

theorem EmitsUnits.of_no_event {s t : State} (hc : t.cfg = s.cfg) (he : t.events = s.events) : EmitsUnits s t :=
  ⟨hc, [], by rw [he, List.append_nil], by simp⟩

theorem EmitsUnits.of_event {s t : State} {e : Event} (hc : t.cfg = s.cfg) (he : t.events = s.events ++ [e])
    (h : e.CarriesUnit s.cfg) : EmitsUnits s t :=
  ⟨hc, [e], he, List.forall_mem_singleton.2 h⟩

theorem EmitsUnits.trans {s t u : State} (h : EmitsUnits s t) (h' : EmitsUnits t u) : EmitsUnits s u := by
  obtain ⟨hc, evs, he, hu⟩ := h
  obtain ⟨hc', evs', he', hu'⟩ := h'
  exact ⟨hc'.trans hc, evs ++ evs', by rw [he', he, List.append_assoc], List.forall_mem_append.2 ⟨hu, hc ▸ hu'⟩⟩

theorem QueueChange.emitsUnits {s t : State} (h : QueueChange s t) : EmitsUnits s t := by
  obtain ⟨tq, rq, a, e, r, rfl, -⟩ := h
  exact .of_no_event rfl rfl

theorem arqRsp_emitsUnits (s0 s : State) (st : Status) : EmitsUnits s (arqRsp s0 st s) := .of_no_event rfl rfl

theorem checkDone_events (s : State) : (checkDone s).events = s.events := by
  by_cases h : s.fsm = .transmitting ∧ s.sentCount.toNat = s.cfg.m ∧ s.txq.size = 0#8
  · rw [checkDone_done h]
  · rw [checkDone_not h]

theorem checkDone_emitsUnits (s : State) : EmitsUnits s (checkDone s) :=
  .of_no_event (checkDone_cfg s) (checkDone_events s)

/-! ## First transmissions and retransmissions -/

/-- The frame of the next first transmission. -/
theorem Window.newFrame_carriesUnit {s : State} (h : Window s) (hc : canSend s = true) :
    FrameCarriesUnit s.cfg (s.nextSeq, s.sentCount) :=
  ⟨h.next_seq, ((canSend_iff s).1 hc).2⟩

theorem Window.outstandingFrames_carryUnits {s : State} (h : Window s) :
    ∀ f ∈ outstandingFrames s, FrameCarriesUnit s.cfg f := by
  refine List.forall_mem_map.2 fun j hj => ?_
  have hj : j < s.txq.size.toNat := List.mem_range.1 (List.mem_filter.1 hj).1
  have hlt := h.unitAt_lt hj
  have hunit : (BitVec.ofNat 16 (unitAt s j)).toNat = unitAt s j := toNat_ofNat16 (hlt.trans s.sentCount.isLt)
  rw [FrameCarriesUnit, hunit]
  exact ⟨h.entries j hj, hlt.trans_le h.sent_le⟩

theorem sendNew_emitsUnits {s t : State} (h : Window s) (hc : canSend s = true) (hs : sendNew s = some t) :
    EmitsUnits s t := by
  have hroom := ((canSend_iff s).1 hc).1
  cases hd : s.draws with
  | nil => rw [sendNew_nil hd] at hs; cases hs
  | cons u us =>
    rw [sendNew_cons hd hroom.ne, Option.some.injEq] at hs
    subst hs
    exact .of_event rfl rfl (h.newFrame_carriesUnit hc)

theorem fillLoop_emitsUnits {n : Nat} : ∀ {s t : State}, Unchecked s → fillLoop n s = some t →
    EmitsUnits s t := by
  induction n with
  | zero => exact fun _ hf => Option.some.inj hf ▸ .of_no_event rfl rfl
  | succ n ih =>
    intro s t h hf
    rw [fillLoop_succ] at hf
    split at hf
    · rename_i hc
      obtain ⟨u, hu, hrest⟩ := Option.bind_eq_some_iff.1 hf
      exact (sendNew_emitsUnits h.window hc hu).trans (ih (h.sendNew hc hu).1 hrest)
    · exact Option.some.inj hf ▸ .of_no_event rfl rfl

theorem retransmit_emitsUnits {s t : State} (h : Window s) (hr : retransmit s = some t) : EmitsUnits s t := by
  rw [h.retransmit_eq] at hr
  split at hr
  · obtain rfl := Option.some.inj hr
    exact ⟨rfl, _, rfl, carriesUnit_of_mem_dataEvents h.outstandingFrames_carryUnits⟩
  · cases hr

theorem ackTimerTest_emitsUnits {s t : State} (h : Window s) (ha : ackTimerTest s = some t) :
    EmitsUnits s t := by
  unfold ackTimerTest at ha
  split at ha
  · have hcleared : EmitsUnits { s with ackTimer := 0#16 } t := retransmit_emitsUnits (h.timers _ _ _ _ _ _ _) ha
    exact hcleared
  · exact Option.some.inj ha ▸ .of_no_event rfl rfl

theorem txTimerTest_emitsUnits {s t : State} (h : Window s) (hb : txTimerTest s = some t) :
    EmitsUnits s t := by
  obtain ⟨y, -, rfl | ⟨hc, hs⟩⟩ := txTimerTest_some hb
  · exact .of_no_event rfl rfl
  · have hset : EmitsUnits { s with txTimer := y } t := sendNew_emitsUnits (h.timers _ _ _ _ _ _ _) hc hs
    exact hset

/-! ## The receiver's events -/

/-- `emit_ack()` takes a draw, emits the front entry's ACK and dequeues. -/
theorem emitAck_some {s t : State} (h : emitAck s = some t) : ∃ u us, s.draws = u :: us ∧
    t = (qdeq .rxq (emit (.ack (s.rxq.slotAt s.rxq.front.toNat) (dropped u s.cfg.pAckOut)) { s with draws := us })).2 := by
  cases hd : s.draws with
  | nil => rw [emitAck_nil hd] at h; cases h
  | cons u us =>
    simp only [emitAck, drawLoss_cons hd, Option.some.injEq] at h
    exact ⟨u, us, rfl, h.symm⟩

theorem emitAck_emitsUnits {s t : State} (h : emitAck s = some t) : EmitsUnits s t := by
  obtain ⟨u, us, -, rfl⟩ := emitAck_some h
  have hack : EmitsUnits s
      (emit (.ack (s.rxq.slotAt s.rxq.front.toNat) (dropped u s.cfg.pAckOut)) { s with draws := us }) :=
    .of_event rfl rfl trivial
  exact hack.trans (qdeq_queueChange .rxq _).emitsUnits

theorem drainLoop_emitsUnits {n : Nat} : ∀ {s t : State}, drainLoop n s = some t → EmitsUnits s t := by
  induction n with
  | zero => exact fun hd => Option.some.inj hd ▸ .of_no_event rfl rfl
  | succ n ih =>
    intro s t hd
    rw [drainLoop_succ] at hd
    split at hd
    · exact Option.some.inj hd ▸ .of_no_event rfl rfl
    · obtain ⟨u, hu, hrest⟩ := Option.bind_eq_some_iff.1 hd
      exact (emitAck_emitsUnits hu).trans (ih hrest)

theorem ackWhenDeep_emitsUnits {s t : State} (h : ackWhenDeep s = some t) : EmitsUnits s t := by
  unfold ackWhenDeep at h
  split at h
  · exact emitAck_emitsUnits h
  · exact Option.some.inj h ▸ .of_no_event rfl rfl

/-! ## Command by command -/

theorem exec_emitsUnits_of_queues {i : Instr} {s t : State} (he : exec i s = .next t) (h : readsOnly i ∨ changesQueue i) :
    EmitsUnits s t := by
  rcases h with h | h
  · obtain ⟨e, r, hr⟩ := exec_readsOnly h s
    exact Host.Outcome.next.inj (hr.symm.trans he) ▸ .of_no_event rfl rfl
  · obtain ⟨f, hf, hc, -⟩ := exec_changesQueue h
    exact Host.Outcome.next.inj ((hf s).symm.trans he) ▸ (unlessBusy_queueChange (hc s)).emitsUnits

theorem execArqCtrl_emitsUnits {b0 b1 : Byte} {s t : State} (h : Inv s) (he : execArqCtrl b0 b1 s = .next t) :
    EmitsUnits s t := by
  unfold Machine.execArqCtrl at he
  split at he
  · obtain ⟨u, hu, rfl⟩ := completing_map_next.1 he
    have hstart : EmitsUnits s (startSession s) := .of_no_event rfl rfl
    have hfill := fillLoop_emitsUnits (startSession_unchecked h.cfg_valid h.queues) hu
    exact ((hstart.trans hfill).trans (checkDone_emitsUnits u)).trans (arqRsp_emitsUnits _ _ _)
  · exact Host.Outcome.next.inj he ▸ arqRsp_emitsUnits _ _ _

theorem execArqRxdata_emitsUnits {x : Byte} {s t : State} (he : execArqRxdata x s = .next t) : EmitsUnits s t := by
  unfold execArqRxdata at he
  split at he
  · exact Host.Outcome.next.inj he ▸ arqRsp_emitsUnits _ _ _
  · obtain ⟨u, hu, rfl⟩ := completing_map_next.1 he
    have haccept : EmitsUnits s (acceptFrame x s) := .of_event rfl rfl trivial
    have hqueued := haccept.trans (qenq_queueChange .rxq x (acceptFrame x s)).emitsUnits
    exact (hqueued.trans (ackWhenDeep_emitsUnits hu)).trans (arqRsp_emitsUnits _ _ _)

theorem execArqRxack_emitsUnits {x m : Byte} {s t : State} (he : execArqRxack x m s = .next t) : EmitsUnits s t := by
  rcases execArqRxack_next he with rfl | ⟨-, us, rfl | rfl⟩
  · exact .of_no_event rfl rfl
  · exact .of_no_event rfl rfl
  · unfold deliverAck
    split
    · exact .of_no_event rfl rfl
    · split
      · exact .of_no_event rfl rfl
      · exact .of_no_event rfl rfl
      · rename_i u hp
        obtain ⟨q, a, rfl⟩ := takeAck_rest hp
        exact .of_no_event (checkDone_cfg _) (checkDone_events _)

theorem execArqTick_emitsUnits {s t : State} (h : Inv s) (he : execArqTick s = .next t) : EmitsUnits s t := by
  rcases execArqTick_next he with rfl | ⟨ht, a, u, ha, hu, rfl⟩
  · exact arqRsp_emitsUnits _ _ _
  · have hcount : Window (countTick s) := (h.unchecked ht).window.timers _ _ _ _ _ _ _
    have htested : Window a := by
      obtain ⟨x, d, ev, rfl, -⟩ := ackTimerTest_some ha
      exact hcount.timers _ _ _ _ _ _ _
    have hticked : EmitsUnits s (countTick s) := .of_no_event rfl rfl
    exact ((hticked.trans (ackTimerTest_emitsUnits hcount ha)).trans (txTimerTest_emitsUnits htested hu)).trans
      (arqRsp_emitsUnits _ _ _)

theorem exec_emitsUnits {i : Instr} {s t : State} (h : Inv s) (he : exec i s = .next t) : EmitsUnits s t := by
  cases i with
  | nop | fecEnc | fecSyn | fecCor | fecDec | qFront | qRear | qSize | frmClass | regRd | regClrerr =>
    exact exec_emitsUnits_of_queues he (.inl trivial)
  | qEnq | qDeq | qClear => exact exec_emitsUnits_of_queues he (.inr trivial)
  | arqCtrl => exact execArqCtrl_emitsUnits h he
  | arqRxdata => exact execArqRxdata_emitsUnits he
  | arqRxack => exact execArqRxack_emitsUnits he
  | arqTick => exact execArqTick_emitsUnits h he
  | arqEom =>
    obtain ⟨u, hu, rfl⟩ := completing_map_next.1 he
    exact (drainLoop_emitsUnits hu).trans (arqRsp_emitsUnits _ _ _)
  | arqDisc => exact Host.Outcome.next.inj he ▸ .of_no_event rfl rfl

theorem runWord_emitsUnits {w : Word} {s t : State} (h : Inv s) (hr : runWord w s = .next t) : EmitsUnits s t := by
  unfold Machine.runWord at hr
  split at hr
  · exact exec_emitsUnits h hr
  · exact Host.Outcome.next.inj hr ▸ .of_no_event rfl rfl

/-! ## Every step -/

/-- The events that an abandoned command leaves are some first events of a run of it (R210). -/
theorem abandon_events (w : Word) (nEvents nDraws : Nat) (s : State) :
    (abandon w nEvents nDraws s).events = s.events ∨ ∃ t evs, runWord w (answering s) = .next t ∧
      (abandon w nEvents nDraws s).events = s.events ++ evs ∧ evs <+: t.events.drop s.events.length := by
  cases hr : runWord w (answering s) with
  | next t =>
    obtain ⟨k, evs, he, -, -, -, -, hpre⟩ := abandon_cases w nEvents nDraws s
    exact .inr ⟨t, evs, rfl, by rw [he]; rfl, hpre t hr⟩
  | fault f => simp only [abandon, hr]; exact .inl rfl
  | refused r => simp only [abandon, hr]; exact .inl rfl

theorem abandon_cfg (w : Word) (nEvents nDraws : Nat) (s : State) : (abandon w nEvents nDraws s).cfg = s.cfg := by
  obtain ⟨k, evs, he, -⟩ := abandon_cases w nEvents nDraws s
  rw [he]
  rfl

theorem abandon_emitsUnits {s : State} (h : Inv s) (w : Word) (nEvents nDraws : Nat) :
    EmitsUnits s (abandon w nEvents nDraws s) := by
  have hc := abandon_cfg w nEvents nDraws s
  rcases abandon_events w nEvents nDraws s with he | ⟨t, evs, hr, he, hpre⟩
  · exact .of_no_event hc he
  · have hans : Inv (answering s) := h.ports _ _ _ _ _
    obtain ⟨-, all, hall, hu⟩ := runWord_emitsUnits hans hr
    have hdrop : t.events.drop s.events.length = all := by rw [hall]; exact List.drop_left
    exact ⟨hc, evs, he, fun e hmem => hu e ((hdrop ▸ hpre).subset hmem)⟩

/-- What a step on a valid configuration can be: it waits, resets, runs a command word to its end, or leaves a command that a
hardware reset abandoned. -/
theorem step_next_cases {s t : State} (hv : s.cfg.valid = true) (h : step s = .next t) :
    t = s ∨ (∃ rest, t = hardReset { s with inputs := rest }) ∨
      (∃ w rest, s.inputs = .command w :: rest ∧ runWord w { s with inputs := rest } = .next t) ∨
      ∃ w nEvents nDraws rest, t = abandon w nEvents nDraws { s with inputs := rest } := by
  unfold step at h
  cases hi : s.inputs with
  | nil =>
    simp only [nextInput_nil hi, ifValid_valid hv] at h
    exact .inl (Host.Outcome.next.inj h).symm
  | cons i rest =>
    simp only [nextInput_cons hi] at h
    cases i with
    | hardReset =>
      simp only [ifValid_valid hv] at h
      exact .inr (.inl ⟨rest, (Host.Outcome.next.inj h).symm⟩)
    | command w =>
      simp only [ifValid_valid hv] at h
      rcases runCommand_cases h with hr | ⟨rest', -, he⟩
      · exact .inr (.inr (.inl ⟨w, rest, rfl, hr⟩))
      · exact .inr (.inr (.inr ⟨w, _, _, rest', he⟩))
    | abandoned w nEvents nDraws =>
      simp only [ifValid_valid hv] at h
      exact .inr (.inr (.inr ⟨w, nEvents, nDraws, rest, (Host.Outcome.next.inj h).symm⟩))

theorem step_emitsUnits {s t : State} (h : Inv s) (hstep : step s = .next t) : EmitsUnits s t := by
  have htaken : ∀ rest, Inv { s with inputs := rest } := fun rest => h.ports _ _ _ _ _
  rcases step_next_cases h.cfg_valid hstep with rfl | ⟨rest, rfl⟩ | ⟨w, rest, -, hr⟩ | ⟨w, n, k, rest, rfl⟩
  · exact .of_no_event rfl rfl
  · exact .of_no_event rfl rfl
  · have hrun : EmitsUnits { s with inputs := rest } t := runWord_emitsUnits (htaken rest) hr
    exact hrun
  · exact abandon_emitsUnits (htaken rest) w n k

/-- Settles O56: the events of the step are those of `EmitsUnits`, procedure by procedure under the invariant. -/
theorem dataEventsCarryTheirUnit : Obligations.DataEventsCarryTheirUnit := by
  intro s t evs h hstep he x u d hmem
  obtain ⟨-, evs', he', hu⟩ := step_emitsUnits h hstep
  obtain rfl : evs = evs' := List.append_cancel_left (he.symm.trans he')
  exact hu _ hmem

end Sys2Proof.Machine

/-! The draws that ARQ commands take (43_arq.md R131, R132; 70_reset_and_hazards.md R220), the timer predicate (R139), and the
commands and cases of the ARQ engine that look at no window (R141, R145, R160). -/

namespace Sys2Proof.Machine

/-! ## The loss comparator and the timers (R131, R139) -/

theorem dropped_iff (u : Draw) (p : Nat) : dropped u p = true ↔ u.toNat < p := decide_eq_true_iff

/-- The draws below a threshold are the numbers below it. -/
theorem card_dropped {p : Nat} (hp : p ≤ 65536) : (Finset.univ.filter fun u : Draw => dropped u p = true).card = p := by
  have hval : ∀ k < p, (BitVec.ofNat 16 k).toNat = k := fun k hk => toNat_ofNat16 (by omega)
  rw [← Finset.card_range p]
  refine Finset.card_nbij' BitVec.toNat (BitVec.ofNat 16) (fun u hu => ?_) (fun k hk => ?_)
    (fun u _ => by rw [BitVec.ofNat_toNat, BitVec.setWidth_eq]) (fun k hk => hval k (Finset.mem_range.1 hk))
  · simpa [dropped_iff] using hu
  · have hk := Finset.mem_range.1 hk
    simpa [dropped_iff, hval k hk] using hk

/-- Settles O37: the comparator is `<`, and every draw is below 65536. -/
theorem lossComparator : Obligations.LossComparator := by
  refine ⟨dropped_iff, fun u => ⟨decide_eq_false (Nat.not_lt_zero _), ?_⟩, fun _ => card_dropped⟩
  exact (dropped_iff u 65536).2 u.isLt

theorem fires_false_iff (c : Cfg) (t : Half) (threshold : Nat) :
    fires c t threshold = false ↔ t.toNat * c.tickMs ≤ threshold := by
  rw [← Bool.not_eq_true, fires_iff, Nat.not_lt]

/-- Settles O38: `k * TICK_MS` is at most the threshold exactly for `k` up to the quotient, and R9 (h) keeps the first
greater count in 16 bits. -/
theorem timerFiresFirstOnItsTick : Obligations.TimerFiresFirstOnItsTick := by
  refine ⟨fires_iff, fun c threshold hv hthreshold => ?_⟩
  have htick : 0 < c.tickMs := (Cfg.valid_tickMs hv).1
  have hfits : threshold / c.tickMs + 1 ≤ 65535 := by
    rcases hthreshold with rfl | rfl
    · exact Cfg.valid_ack_fits hv
    · exact Cfg.valid_tx_fits hv
  refine ⟨?_, fun k hk => ?_⟩
  · rw [fires_iff, toNat_ofNat16 (by omega)]
    exact (Nat.div_lt_iff_lt_mul htick).1 (Nat.lt_succ_self _)
  · rw [fires_false_iff, toNat_ofNat16 (by omega)]
    exact (Nat.le_div_iff_mul_le htick).1 hk

/-! ## Draws taken, and draws missing (R132, R220) -/

/-- A command that follows a plan and completes takes the draws of the plan's events. -/
theorem draws_of_plan {i : Instr} {s core t : State} {es : List Event} {us : List Draw} (hp : CommandPlan i s es core)
    (h : exec i { s with draws := us } = .next t) : ∃ evs, t.events = s.events ++ evs ∧
      (evs.filter Event.lossy).length = (es.filter Event.lossy).length ∧
      t.draws = us.drop (es.filter Event.lossy).length ∧ (es.filter Event.lossy).length ≤ us.length := by
  obtain ⟨-, hexec⟩ := hp
  have hrun : exec i (ports us s.events s) = .next t := h
  rw [hexec, completing_next, Option.map_eq_some_iff] at hrun
  obtain ⟨⟨ds, ev⟩, hplay, rfl⟩ := hrun
  obtain ⟨out, hev, -, hlossy, hds, hle⟩ := play_some es hplay
  exact ⟨out, hev, hlossy, hds, hle⟩

/-- An ARQ.RXACK that finds FSM = 1 takes the first draw and emits nothing. -/
theorem draws_of_rxack {x m : Byte} {s t : State} {us : List Draw} (hs : s.fsm = .transmitting)
    (h : exec (.arqRxack x m) { s with draws := us } = .next t) :
    t.events = s.events ∧ t.draws = us.drop 1 ∧ 1 ≤ us.length := by
  obtain ⟨core, hexec⟩ := exec_rxack x m s hs
  have hrun : exec (.arqRxack x m) (ports us s.events s) = .next t := h
  rw [hexec] at hrun
  cases us with
  | nil => cases hrun
  | cons u us =>
    obtain rfl := Host.Outcome.next.inj hrun
    exact ⟨rfl, rfl, Nat.le_add_left 1 _⟩

/-- Settles O15: the plan of a command does not look at the draws, and an ARQ.RXACK while Transmitting takes one. -/
theorem drawsTakenDoNotDependOnTheirValues : Obligations.DrawsTakenDoNotDependOnTheirValues := by
  intro i s t t' us vs h h'
  by_cases hi : (∃ x m, i = .arqRxack x m) ∧ s.fsm = .transmitting
  · obtain ⟨⟨x, m, rfl⟩, hs⟩ := hi
    obtain ⟨hev, hds, hle⟩ := draws_of_rxack hs h
    obtain ⟨-, hds', -⟩ := draws_of_rxack hs h'
    exact ⟨1, [], hle, hds, hds', by rw [hev, List.append_nil], fun _ => rfl, fun hn => absurd ⟨⟨x, m, rfl⟩, hs⟩ hn⟩
  · obtain ⟨es, core, hplan⟩ := exec_plan i s hi
    obtain ⟨evs, hev, hlossy, hds, hle⟩ := draws_of_plan hplan h
    obtain ⟨-, -, -, hds', -⟩ := draws_of_plan hplan h'
    exact ⟨_, evs, hle, hds, hds', hev, fun hy => absurd hy hi, fun _ => hlossy.symm⟩

theorem completing_ne_refused (o : Option State) (r : Refusal) : completing o ≠ .refused r := by
  cases o <;> exact nofun

theorem completing_fault {o : Option State} {f : Fault} (h : completing o = .fault f) : o = none := by
  cases o with
  | none => rfl
  | some t => cases h

theorem exec_ne_refused (i : Instr) (s : State) (r : Refusal) : exec i s ≠ .refused r := by
  have hs : s = ports s.draws s.events s := rfl
  rw [hs]
  by_cases hi : (∃ x m, i = .arqRxack x m) ∧ s.fsm = .transmitting
  · obtain ⟨⟨x, m, rfl⟩, ht⟩ := hi
    obtain ⟨core, hexec⟩ := exec_rxack x m s ht
    rw [hexec]
    split <;> exact nofun
  · obtain ⟨es, core, -, hexec⟩ := exec_plan i s hi
    rw [hexec]
    exact completing_ne_refused _ r

theorem qenq_rxq_size_le (v : Byte) (s : State) : (qenq .rxq v s).2.rxq.size.toNat ≤ s.rxq.size.toNat + 1 := by
  by_cases hf : s.rxq.size.toNat = s.cfg.d
  · rw [qenq_full (sel := .rxq) hf]
    exact Nat.le_succ _
  · rw [qenq_rxq_ok hf]
    show (s.rxq.size + 1#8).toNat ≤ _
    rw [BitVec.toNat_add]
    exact Nat.mod_le _ _

theorem execArqRxdata_out_of_order {x : Byte} {s : State} (hx : x ≠ s.rxExp) :
    execArqRxdata x s = .next (arqRsp s .rxOutOfOrder s) := if_pos hx

theorem execArqRxdata_in_order (s : State) : execArqRxdata s.rxExp s =
    completing ((ackWhenDeep (qenq .rxq s.rxExp (acceptFrame s.rxExp s)).2).map
      (arqRsp s (acceptStatus (qenq .rxq s.rxExp (acceptFrame s.rxExp s)).1))) := if_neg (not_not_intro rfl)

/-- What must hold for ARQ.RXDATA to need a draw: a frame in order that makes D entries wait (R155). -/
theorem execArqRxdata_fault {x : Byte} {s : State} {f : Fault} (h : execArqRxdata x s = .fault f) :
    x = s.rxExp ∧ s.cfg.d ≤ s.rxq.size.toNat + 1 := by
  by_cases hx : x = s.rxExp
  · subst hx
    rw [execArqRxdata_in_order] at h
    have hack := Option.map_eq_none_iff.1 (completing_fault h)
    unfold ackWhenDeep at hack
    split at hack
    · rename_i hdeep
      rw [qenq_cfg] at hdeep
      exact ⟨rfl, Nat.le_trans hdeep (qenq_rxq_size_le s.rxExp (acceptFrame s.rxExp s))⟩
    · cases hack
  · rw [execArqRxdata_out_of_order hx] at h
    cases h

theorem execArqEom_fault {s : State} {f : Fault} (h : execArqEom s = .fault f) : s.rxq.size ≠ 0#8 := by
  intro h0
  have hdrain : drain s = some s := by rw [drain, h0]; rfl
  have hnone := Option.map_eq_none_iff.1 (completing_fault h)
  exact nomatch hdrain.symm.trans hnone

/-- Settles O14, command by command: those that take no draw complete, and the others say when they need one. -/
theorem onlyDrawingCommandsStall : Obligations.OnlyDrawingCommandsStall := by
  refine ⟨exec_ne_refused, fun i s f h => ⟨by cases f; rfl, ?_⟩⟩
  have reads_completes : ¬readsOnly i := fun hi => by
    obtain ⟨e, r, hr⟩ := exec_readsOnly hi s
    exact nomatch hr.symm.trans h
  have queue_completes : ¬changesQueue i := fun hi => by
    obtain ⟨g, hg, -⟩ := exec_changesQueue hi
    exact nomatch (hg s).symm.trans h
  cases i with
  | nop | fecEnc | fecSyn | fecCor | fecDec | qFront | qRear | qSize | frmClass | regRd | regClrerr =>
    exact absurd trivial reads_completes
  | qEnq | qDeq | qClear => exact absurd trivial queue_completes
  | arqCtrl b0 b1 =>
    by_cases hb : b0 = startByte0 ∧ b1 = startByte1
    · obtain ⟨rfl, rfl⟩ := hb
      exact .inl rfl
    · rw [exec, execArqCtrl, if_neg hb] at h
      cases h
  | arqRxdata x =>
    obtain ⟨rfl, hdeep⟩ := execArqRxdata_fault h
    exact .inr (.inl ⟨rfl, hdeep⟩)
  | arqRxack x m =>
    cases hs : s.fsm with
    | idle => simp only [exec, execArqRxack, hs] at h; cases h
    | transmitting => exact .inr (.inr (.inl ⟨⟨x, m, rfl⟩, rfl⟩))
  | arqTick =>
    cases hs : s.fsm with
    | idle => simp only [exec, execArqTick, hs] at h; cases h
    | transmitting => exact .inr (.inr (.inr (.inl ⟨rfl, rfl⟩)))
  | arqEom => exact .inr (.inr (.inr (.inr ⟨rfl, execArqEom_fault h⟩)))
  | arqDisc => cases h

/-! ## The response of an ARQ command (R130) -/

theorem arqRsp_eq (s0 : State) (st : Status) (s : State) : arqRsp s0 st s = { s with
    rsps := s.rsps ++ [⟨st, arqNumber s.fsm s.txq.size.toNat (s.events.length - s0.events.length)⟩] } := by
  rw [arqRsp, arqData_eq]
  rfl

/-- Of a command that has emitted `n` events. -/
theorem arqRsp_of_events {s0 s : State} {n : Nat} (h : s.events.length = s0.events.length + n) (st : Status) :
    arqRsp s0 st s = { s with rsps := s.rsps ++ [⟨st, arqNumber s.fsm s.txq.size.toNat n⟩] } := by
  rw [arqRsp_eq, h, Nat.add_sub_cancel_left]

/-! ## ARQ.CTRL with any other pair (R141) -/

theorem packWord_bytes_opd (o b0 b1 : Byte) : packWord o 0#8 (packBytes b0 b1) =
    o.setWidth 32 <<< 24 ||| b0.setWidth 32 <<< 8 ||| b1.setWidth 32 := by
  rw [packWord_packBytes, packWord_low_opd (by decide), BitVec.or_assoc, BitVec.or_assoc, BitVec.or_comm (b1.setWidth 32)]

/-- Settles O39: the command has one case but for the start pair. -/
theorem otherControlPairsAreIgnored : Obligations.OtherControlPairsAreIgnored := by
  refine ⟨fun b0 b1 => decode_of_encode_eq (packWord_bytes_opd 0x40#8 b0 b1), fun b0 b1 s hb => ?_⟩
  rw [exec, execArqCtrl, if_neg (by exact hb), arqRsp_of_events (n := 0) (by rfl)]

/-! ## ARQ.RXACK before the window is looked at (R145, R192) -/

section
variable {s : State}

theorem exec_arqRxack_idle (hs : s.fsm = .idle) (x m : Byte) :
    exec (.arqRxack x m) s = .next (arqRsp s .idleIgnored s) := by
  simp only [exec, execArqRxack, hs]

variable (hs : s.fsm = .transmitting)
include hs

theorem exec_arqRxack_stalled (hd : s.draws = []) (x m : Byte) : exec (.arqRxack x m) s = .fault .drawStall := by
  simp only [exec, execArqRxack, hs, drawLoss_nil hd]

variable {u : Draw} {us : List Draw} (hd : s.draws = u :: us)
include hd

theorem exec_arqRxack_dropped (hu : u.toNat < s.cfg.pAckIn) (x m : Byte) :
    exec (.arqRxack x m) s = .next (arqRsp s .ackDropped { s with draws := us }) := by
  simp only [exec, execArqRxack, hs, drawLoss_cons hd, (dropped_iff u _).2 hu]

theorem exec_arqRxack_delivered (hu : s.cfg.pAckIn ≤ u.toNat) (x m : Byte) :
    exec (.arqRxack x m) s = .next (deliverAck x m s { s with draws := us }) := by
  have hdelivered : dropped u s.cfg.pAckIn = false := decide_eq_false (Nat.not_lt.2 hu)
  simp only [exec, execArqRxack, hs, drawLoss_cons hd, hdelivered]

end

/-- Settles O43, a check each, in their order. -/
theorem ackChecksInOrder : Obligations.AckChecksInOrder := by
  refine ⟨fun x m => decode_of_encode_eq (packWord_bytes_opd 0x42#8 x m), fun x m s hs => ?idle,
    fun x m s hs hd => exec_arqRxack_stalled hs hd x m, fun x m s u us hs hd hu => ?dropped,
    fun x m s u us hs hd hu hm => ?badmark⟩
  case idle => rw [exec_arqRxack_idle hs, arqRsp_of_events (n := 0) (by rfl), hs]
  case dropped => rw [exec_arqRxack_dropped hs hd hu, arqRsp_of_events (n := 0) (by rfl), hs]
  case badmark =>
    rw [exec_arqRxack_delivered hs hd hu, deliverAck, if_pos (by exact hm), arqRsp_of_events (n := 0) (by rfl), hs]

/-! ## ARQ.DISC (R160) -/

/-- Settles O51: the command has no case. -/
theorem disconnectResetsTheEngine : Obligations.DisconnectResetsTheEngine := by
  refine ⟨decodeOfEncode .arqDisc, fun s => ?_⟩
  rw [exec, execArqDisc, arqRsp_of_events (n := 0) (by rfl)]
  rfl

end Sys2Proof.Machine

/-! The receiver's window (43_arq.md R138, R155, R158, R165): a data frame in every case, ARQ.EOM, and the bounds that every
step keeps. -/

namespace Sys2Proof.Machine

/-! ## ARQ.RXDATA (R155) -/

/-- A list with a first entry: where that entry stands, and what a dequeue leaves. -/
theorem Queue.front_of_entries {cap : Nat} {q : Queue} (hcap : cap ≤ 255) (hq : q.Wf cap) {y : Byte} {ys : List Byte}
    (h : q.entries cap = y :: ys) : q.size ≠ 0#8 ∧ q.slotAt q.front.toNat = y ∧ (q.popped cap).entries cap = ys := by
  have h0 : q.size ≠ 0#8 := size_ne_zero_of_entries (h ▸ List.cons_ne_nil _ _)
  obtain ⟨hy, hys⟩ := List.cons.inj ((entries_cons hcap hq h0).symm.trans h)
  exact ⟨h0, hy, hys⟩

theorem ackWhenDeep_shallow {s : State} (h : s.rxq.size.toNat < s.cfg.d) : ackWhenDeep s = some s :=
  if_neg (Nat.not_le.2 h)

theorem ackWhenDeep_stalled {s : State} (h : s.cfg.d ≤ s.rxq.size.toNat) (hd : s.draws = []) : ackWhenDeep s = none :=
  (if_pos h).trans (emitAck_nil hd)

/-- With D entries waiting the oldest is acknowledged and leaves. -/
theorem ackWhenDeep_cons {s : State} (hv : s.cfg.valid = true) (hq : s.rxq.Wf s.cfg.d)
    (h : s.cfg.d ≤ s.rxq.size.toNat) {u : Draw} {us : List Draw} (hd : s.draws = u :: us) {y : Byte} {ys : List Byte}
    (he : s.rxq.entries s.cfg.d = y :: ys) : ackWhenDeep s = some { s with
      draws := us
      events := s.events ++ [.ack y (dropped u s.cfg.pAckOut)]
      rxq := s.rxq.popped s.cfg.d } := by
  obtain ⟨h0, hy, -⟩ := Queue.front_of_entries (Cfg.valid_d hv).2 hq he
  rw [ackWhenDeep, if_pos h, emitAck_cons hd h0, hy]

section
variable {s : State}

/-- The state in which an in-order frame has been accepted and enqueued. -/
def frameQueued (s : State) : State :=
  { acceptFrame s.rxExp s with rxq := s.rxq.pushed s.cfg.d s.rxExp }

theorem execArqRxdata_queued (h : s.rxq.size.toNat ≠ s.cfg.d) :
    execArqRxdata s.rxExp s = completing ((ackWhenDeep (frameQueued s)).map (arqRsp s .ok)) := by
  rw [execArqRxdata_in_order, qenq_rxq_ok (by exact h)]
  rfl

theorem execArqRxdata_full (h : s.rxq.size.toNat = s.cfg.d) : execArqRxdata s.rxExp s =
    completing ((ackWhenDeep (setErr .qFull (acceptFrame s.rxExp s))).map (arqRsp s .qFull)) := by
  rw [execArqRxdata_in_order, qenq_full (sel := .rxq) (by exact h)]
  rfl

variable (hv : s.cfg.valid = true) (hw : QueuesWf s)
include hv

theorem frameQueued_size (h : s.rxq.size.toNat < s.cfg.d) :
    (frameQueued s).rxq.size.toNat = s.rxq.size.toNat + 1 :=
  Queue.pushed_size_toNat (Cfg.valid_d hv).2 h _

include hw

theorem frameQueued_wf (h : s.rxq.size.toNat < s.cfg.d) : (frameQueued s).rxq.Wf s.cfg.d :=
  Queue.pushed_wf hw.rxq (Cfg.valid_d hv).2 h _

theorem frameQueued_entries (h : s.rxq.size.toNat < s.cfg.d) :
    (frameQueued s).rxq.entries s.cfg.d = s.entriesOf .rxq ++ [s.rxExp] :=
  Queue.entries_pushed hw.rxq (Cfg.valid_d hv).2 h _

end

/-- Settles O41, by the number of entries that wait: fewer than D - 1, D - 1, D; and without the draw. -/
theorem dataFrameAcceptedInOrder : Obligations.DataFrameAcceptedInOrder := by
  unfold Obligations.DataFrameAcceptedInOrder
  simp only [entriesOf_length, queue_rxq]
  refine ⟨fun x => decode_of_encode_eq (packWord_low_opd (by decide) 0x41#8 x), fun x s hx => ?order,
    fun s hv hw hlen => ?shallow, fun s u us y ys hv hw hd hlen he => ?deep,
    fun s u us y ys hv hw hd hlen he => ?full, fun s hv hw hd hlen => ?stalled⟩
  case order => rw [exec, execArqRxdata_out_of_order hx, arqRsp_of_events (n := 0) (by rfl)]
  case shallow =>
    have hroom : s.rxq.size.toNat < s.cfg.d := by omega
    have hsize := frameQueued_size hv hroom
    refine ⟨frameQueued_entries hv hw hroom, ?_⟩
    rw [exec, execArqRxdata_queued hroom.ne, ackWhenDeep_shallow (by rw [hsize]; exact hlen), Option.map_some,
      completing_some, arqRsp_of_events (n := 1) (by simp [frameQueued, acceptFrame])]
    rfl
  case deep =>
    have hroom : s.rxq.size.toNat < s.cfg.d := by omega
    have hsize := frameQueued_size hv hroom
    have hwf := frameQueued_wf hv hw hroom
    have hentries := (frameQueued_entries hv hw hroom).trans he
    obtain ⟨-, -, hrest⟩ := Queue.front_of_entries (Cfg.valid_d hv).2 hwf hentries
    refine ⟨hrest, ?_⟩
    rw [exec, execArqRxdata_queued hroom.ne, ackWhenDeep_cons (s := frameQueued s) hv hwf (by rw [hsize]; exact hlen.ge) hd hentries,
      Option.map_some, completing_some, arqRsp_of_events (n := 2) (by simp [frameQueued, acceptFrame])]
    simp only [frameQueued, acceptFrame, emit_events, List.append_assoc, List.cons_append, List.nil_append]
    rfl
  case full =>
    obtain ⟨-, -, hrest⟩ := Queue.front_of_entries (Cfg.valid_d hv).2 hw.rxq he
    refine ⟨hrest, ?_⟩
    rw [exec, execArqRxdata_full hlen, ackWhenDeep_cons (s := setErr .qFull (acceptFrame s.rxExp s)) hv hw.rxq hlen.ge hd he,
      Option.map_some, completing_some, arqRsp_of_events (n := 2) (by simp [acceptFrame])]
    simp only [acceptFrame, setErr_events, emit_events, List.append_assoc, List.cons_append, List.nil_append]
    rfl
  case stalled =>
    by_cases hfull : s.rxq.size.toNat = s.cfg.d
    · rw [exec, execArqRxdata_full hfull, ackWhenDeep_stalled (by exact hfull.ge) (by exact hd)]
      rfl
    · have hroom : s.rxq.size.toNat < s.cfg.d := hw.room (sel := .rxq) hfull
      rw [exec, execArqRxdata_queued hfull, ackWhenDeep_stalled (by rw [frameQueued_size hv hroom]; exact hlen) (by exact hd)]
      rfl

/-! ## ARQ.EOM (R158) -/

/-- Settles O50: the loop runs once an entry, each round with its draw. -/
theorem eomDrainsTheReceiverWindow : Obligations.EomDrainsTheReceiverWindow := by
  refine ⟨decodeOfEncode .arqEom, fun s hv hw hdraws => ?_, fun s hv hw hdraws => ?_⟩
  · rw [exec, execArqEom, drain, drainLoop_eq _ s (Cfg.valid_d hv).2 hw.rxq rfl, if_pos hdraws, Option.map_some,
      completing_some, arqRsp_of_events (n := s.rxq.size.toNat) (by simp [ackEvents, hdraws])]
    rfl
  · rw [exec, execArqEom, drain, drainLoop_eq _ s (Cfg.valid_d hv).2 hw.rxq rfl, if_neg (Nat.not_le.2 hdraws)]
    rfl

/-! ## The window bounds (R165) -/

/-- The entries that wait in RXQ are no more in `t` than in `s`. -/
structure NoMoreWaiting (s t : State) : Prop where
  cfg : t.cfg = s.cfg
  size_le : t.rxq.size.toNat ≤ s.rxq.size.toNat

theorem NoMoreWaiting.trans {s t u : State} (h : NoMoreWaiting s t) (h' : NoMoreWaiting t u) : NoMoreWaiting s u :=
  ⟨h'.cfg.trans h.cfg, h'.size_le.trans h.size_le⟩

theorem NoMoreWaiting.of_rxq_eq {s t : State} (hc : t.cfg = s.cfg) (hq : t.rxq = s.rxq) : NoMoreWaiting s t :=
  ⟨hc, by rw [hq]⟩

theorem NoMoreWaiting.of_empty {s t : State} (hc : t.cfg = s.cfg) (h0 : t.rxq.size = 0#8) : NoMoreWaiting s t :=
  ⟨hc, by rw [h0]; exact Nat.zero_le _⟩

theorem NoMoreWaiting.belowDepth {s t : State} (h : NoMoreWaiting s t) (hb : ReceiverWindowBelowDepth s) :
    ReceiverWindowBelowDepth t := by
  rw [ReceiverWindowBelowDepth, h.cfg]
  exact h.size_le.trans_lt hb

theorem arqRsp_noMoreWaiting (s0 s : State) (st : Status) : NoMoreWaiting s (arqRsp s0 st s) := .of_rxq_eq rfl rfl

theorem qdeq_noMoreWaiting (q : QSel) (s : State) : NoMoreWaiting s (qdeq q s).2 := by
  refine ⟨qdeq_cfg q s, ?_⟩
  cases q with
  | txq => exact (congrArg (·.size.toNat) (qdeq_queue_ne (q := .txq) (q' := .rxq) nofun s)).le
  | rxq =>
    by_cases h0 : s.rxq.size = 0#8
    · rw [qdeq_empty (sel := .rxq) h0, setErr_rxq]
    · rw [qdeq_rxq_ok h0]
      exact (Queue.popped_size_toNat h0).trans_le (Nat.sub_le _ _)

theorem qclear_noMoreWaiting (q : QSel) (s : State) : NoMoreWaiting s (qclear q s) := by
  cases q with
  | txq => exact .of_rxq_eq (qclear_cfg .txq s) (qclear_queue_ne (q := .txq) (q' := .rxq) nofun s)
  | rxq => exact .of_empty (qclear_cfg .rxq s) rfl

theorem unlessBusy_noMoreWaiting {f : State → State} {s : State} (h : NoMoreWaiting s (f s)) :
    NoMoreWaiting s (unlessBusy f s) := by
  cases hs : s.fsm with
  | idle => rw [unlessBusy_idle hs]; exact h
  | transmitting => rw [unlessBusy_busy hs]; exact .of_rxq_eq rfl rfl

theorem enqCommand_txq_noMoreWaiting (v : Byte) (s : State) : NoMoreWaiting s (enqCommand .txq v s) := by
  obtain ⟨st, d, he⟩ := enqCommand_cases .txq v s
  rw [he]
  exact .of_rxq_eq (qenq_cfg .txq v s) (qenq_queue_ne (q := .txq) (q' := .rxq) nofun v s)

theorem deqCommand_noMoreWaiting (q : QSel) (s : State) : NoMoreWaiting s (deqCommand q s) := by
  obtain ⟨st, d, he⟩ := deqCommand_cases q s
  rw [he]
  exact (qdeq_noMoreWaiting q s).trans (.of_rxq_eq rfl rfl)

theorem checkDone_rxq (s : State) : (checkDone s).rxq = s.rxq := by
  by_cases h : s.fsm = .transmitting ∧ s.sentCount.toNat = s.cfg.m ∧ s.txq.size = 0#8
  · rw [checkDone_done h]
  · rw [checkDone_not h]

theorem fillLoop_rxq {n : Nat} : ∀ {s t : State}, fillLoop n s = some t → t.cfg = s.cfg ∧ t.rxq = s.rxq := by
  induction n with
  | zero => exact fun hf => Option.some.inj hf ▸ ⟨rfl, rfl⟩
  | succ n ih =>
    intro s t hf
    rw [fillLoop_succ] at hf
    split at hf
    · rename_i hc
      obtain ⟨u, hu, hrest⟩ := Option.bind_eq_some_iff.1 hf
      obtain ⟨hcfg, hrxq⟩ := ih hrest
      obtain ⟨d, ev, rfl⟩ := sendNew_some hc hu
      exact ⟨hcfg, hrxq⟩
    · exact Option.some.inj hf ▸ ⟨rfl, rfl⟩

theorem emitAck_noMoreWaiting {s t : State} (h : emitAck s = some t) : NoMoreWaiting s t := by
  obtain ⟨u, us, -, rfl⟩ := emitAck_some h
  exact ⟨(qdeq_noMoreWaiting .rxq _).cfg, (qdeq_noMoreWaiting .rxq _).size_le⟩

theorem drainLoop_noMoreWaiting {n : Nat} : ∀ {s t : State}, drainLoop n s = some t → NoMoreWaiting s t := by
  induction n with
  | zero => exact fun hd => Option.some.inj hd ▸ .of_rxq_eq rfl rfl
  | succ n ih =>
    intro s t hd
    rw [drainLoop_succ] at hd
    split at hd
    · exact Option.some.inj hd ▸ .of_rxq_eq rfl rfl
    · obtain ⟨u, hu, hrest⟩ := Option.bind_eq_some_iff.1 hd
      exact (emitAck_noMoreWaiting hu).trans (ih hrest)

theorem execArqCtrl_noMoreWaiting {b0 b1 : Byte} {s t : State} (he : execArqCtrl b0 b1 s = .next t) :
    NoMoreWaiting s t := by
  unfold execArqCtrl at he
  split at he
  · obtain ⟨u, hu, rfl⟩ := completing_map_next.1 he
    obtain ⟨hc, hq⟩ := fillLoop_rxq hu
    refine .of_empty ((checkDone_cfg u).trans hc) ?_
    rw [arqRsp_rxq, checkDone_rxq, hq]
    rfl
  · exact Host.Outcome.next.inj he ▸ arqRsp_noMoreWaiting _ _ _

theorem execArqRxack_noMoreWaiting {x m : Byte} {s t : State} (he : execArqRxack x m s = .next t) :
    NoMoreWaiting s t := by
  rcases execArqRxack_next he with rfl | ⟨-, us, rfl | rfl⟩
  · exact .of_rxq_eq rfl rfl
  · exact .of_rxq_eq rfl rfl
  · unfold deliverAck
    split
    · exact .of_rxq_eq rfl rfl
    · split
      · exact .of_rxq_eq rfl rfl
      · exact .of_rxq_eq rfl rfl
      · rename_i u hp
        obtain ⟨q, a, rfl⟩ := takeAck_rest hp
        exact .of_rxq_eq (checkDone_cfg _) (checkDone_rxq _)

theorem execArqTick_noMoreWaiting {s t : State} (he : execArqTick s = .next t) : NoMoreWaiting s t := by
  rcases execArqTick_next he with rfl | ⟨-, a, u, ha, hu, rfl⟩
  · exact arqRsp_noMoreWaiting _ _ _
  · obtain ⟨x, d, ev, rfl, -⟩ := ackTimerTest_some ha
    obtain ⟨y, -, rfl | ⟨hc, hs⟩⟩ := txTimerTest_some hu
    · exact .of_rxq_eq rfl rfl
    · obtain ⟨d', ev', rfl⟩ := sendNew_some hc hs
      exact .of_rxq_eq rfl rfl

/-- With at most D entries in RXQ, the ACK at depth D leaves fewer. -/
theorem ackWhenDeep_belowDepth {s t : State} (hd : 0 < s.cfg.d) (hle : s.rxq.size.toNat ≤ s.cfg.d)
    (h : ackWhenDeep s = some t) : ReceiverWindowBelowDepth t := by
  rcases Nat.lt_or_ge s.rxq.size.toNat s.cfg.d with hshallow | hdeep
  · rw [ackWhenDeep_shallow hshallow] at h
    exact Option.some.inj h ▸ hshallow
  · have h0 : s.rxq.size ≠ 0#8 := toNat_ne_zero8.2 (by omega)
    have hpop : (s.rxq.popped s.cfg.d).size.toNat = s.rxq.size.toNat - 1 := Queue.popped_size_toNat h0
    rw [ackWhenDeep, if_pos hdeep] at h
    obtain ⟨u, us, -, rfl⟩ := emitAck_some h
    rw [qdeq_rxq_ok (by exact h0)]
    show (s.rxq.popped s.cfg.d).size.toNat < s.cfg.d
    omega

/-- A frame in order adds an entry, and at depth D the ACK takes one away (R155). -/
theorem execArqRxdata_belowDepth {x : Byte} {s t : State} (hv : s.cfg.valid = true) (hb : ReceiverWindowBelowDepth s)
    (he : execArqRxdata x s = .next t) : ReceiverWindowBelowDepth t := by
  by_cases hx : x = s.rxExp
  · subst hx
    rw [execArqRxdata_queued (Nat.ne_of_lt hb)] at he
    obtain ⟨u, hu, rfl⟩ := completing_map_next.1 he
    have hsize := frameQueued_size hv hb
    have hu := ackWhenDeep_belowDepth (s := frameQueued s) (Cfg.valid_d hv).1 (by rw [hsize]; exact hb) hu
    exact (arqRsp_noMoreWaiting s u .ok).belowDepth hu
  · rw [execArqRxdata_out_of_order hx] at he
    exact Host.Outcome.next.inj he ▸ (arqRsp_noMoreWaiting s s _).belowDepth hb

theorem reads_noMoreWaiting {i : Instr} {s t : State} (he : exec i s = .next t) (hi : readsOnly i) :
    NoMoreWaiting s t := by
  obtain ⟨e, r, hr⟩ := exec_readsOnly hi s
  exact Host.Outcome.next.inj (hr.symm.trans he) ▸ .of_rxq_eq rfl rfl

theorem exec_belowDepth {i : Instr} {s t : State} (hv : s.cfg.valid = true) (hb : ReceiverWindowBelowDepth s)
    (hi : ∀ v, i = .qEnq .rxq v → s.fsm = .transmitting) (he : exec i s = .next t) : ReceiverWindowBelowDepth t := by
  have of_queue : ∀ {f : State → State}, NoMoreWaiting s (f s) → exec i s = .next (unlessBusy f s) →
      ReceiverWindowBelowDepth t := fun hf h =>
    Host.Outcome.next.inj (h.symm.trans he) ▸ (unlessBusy_noMoreWaiting hf).belowDepth hb
  cases i with
  | nop | fecEnc | fecSyn | fecCor | fecDec | qFront | qRear | qSize | frmClass | regRd | regClrerr =>
    exact (reads_noMoreWaiting he trivial).belowDepth hb
  | qEnq q v =>
    cases q with
    | txq => exact of_queue (enqCommand_txq_noMoreWaiting v s) rfl
    | rxq =>
      rw [exec_changesQueue_busy (.qEnq .rxq v) trivial (hi v rfl)] at he
      exact Host.Outcome.next.inj he ▸ hb
  | qDeq q => exact of_queue (deqCommand_noMoreWaiting q s) rfl
  | qClear q => exact of_queue (f := clearCommand q) ((qclear_noMoreWaiting q s).trans (.of_rxq_eq rfl rfl)) rfl
  | arqCtrl => exact (execArqCtrl_noMoreWaiting he).belowDepth hb
  | arqRxdata => exact execArqRxdata_belowDepth hv hb he
  | arqRxack => exact (execArqRxack_noMoreWaiting he).belowDepth hb
  | arqTick => exact (execArqTick_noMoreWaiting he).belowDepth hb
  | arqEom =>
    obtain ⟨u, hu, rfl⟩ := completing_map_next.1 he
    exact ((drainLoop_noMoreWaiting hu).trans (arqRsp_noMoreWaiting _ _ _)).belowDepth hb
  | arqDisc =>
    obtain rfl := Host.Outcome.next.inj he
    exact NoMoreWaiting.belowDepth (s := s) (.of_empty rfl rfl) hb

theorem hardReset_noMoreWaiting (s : State) : NoMoreWaiting s (hardReset s) := .of_empty rfl rfl

theorem abandon_noMoreWaiting (w : Word) (nEvents nDraws : Nat) (s : State) :
    NoMoreWaiting s (abandon w nEvents nDraws s) := by
  obtain ⟨k, evs, he, -⟩ := abandon_cases w nEvents nDraws s
  rw [he]
  exact .of_empty rfl rfl

theorem step_belowDepth {s t : State} (hv : s.cfg.valid = true) (hb : ReceiverWindowBelowDepth s)
    (hstep : step s = .next t) (hi : ∀ (w : Word) (rest : List Input) (v : Byte), s.inputs = .command w :: rest →
      decode w = .ok (.qEnq .rxq v) → s.fsm = .transmitting) : ReceiverWindowBelowDepth t := by
  have htaken : ∀ rest, ReceiverWindowBelowDepth { s with inputs := rest } := fun _ => hb
  rcases step_next_cases hv hstep with rfl | ⟨rest, rfl⟩ | ⟨w, rest, hin, hr⟩ | ⟨w, n, k, rest, rfl⟩
  · exact hb
  · exact (hardReset_noMoreWaiting _).belowDepth (htaken rest)
  · unfold runWord at hr
    split at hr
    · rename_i i hdec
      exact exec_belowDepth (s := { s with inputs := rest }) hv hb (fun v hv' => hi w rest v hin (hv' ▸ hdec)) hr
    · exact Host.Outcome.next.inj hr ▸ hb
  · exact (abandon_noMoreWaiting w n k _).belowDepth (htaken rest)

/-- Settles O54: the receiver's bound command by command, the sender's from the invariant after the step, and W = 1 in SW
by R9 (f). -/
theorem stepKeepsTheWindowBounds : Obligations.StepKeepsTheWindowBounds := by
  intro s t h hb hstep hi
  have ht : Inv t := stepKeepsTheInvariant s t h hstep
  have htx := ht.queues.txq.size_le
  exact ⟨step_belowDepth h.cfg_valid hb hstep hi, htx, fun hm => Cfg.valid_sw ht.cfg_valid hm ▸ htx⟩

end Sys2Proof.Machine

/-! Taking an ACK (43_arq.md R145): what a delivered ACK does with each outcome of the match, and which entries it takes in
each mode. -/

namespace Sys2Proof.Machine

/-! ## A delivered ACK -/

section
variable {x : Byte} {s : State}

/-- The match looks at no port. -/
theorem takeAck_drawn (x : Byte) (s : State) (us : List Draw) :
    takeAck x { s with draws := us } = (takeAck x s).ports us s.events := takeAck_ports x s us s.events

theorem deliverAck_noMatch (h : takeAck x s = .noMatch) (us : List Draw) : deliverAck x ackMarker s { s with draws := us } =
    { s with draws := us, rsps := s.rsps ++ [⟨.ackNomatch, arqNumber s.fsm s.txq.size.toNat 0⟩] } := by
  rw [deliverAck, if_neg (not_not_intro rfl), takeAck_drawn, h]
  exact arqRsp_of_events (by rfl) _

theorem deliverAck_duplicate (h : takeAck x s = .duplicate) (us : List Draw) :
    deliverAck x ackMarker s { s with draws := us } =
      { s with draws := us, rsps := s.rsps ++ [⟨.ackDuplicate, arqNumber s.fsm s.txq.size.toNat 0⟩] } := by
  rw [deliverAck, if_neg (not_not_intro rfl), takeAck_drawn, h]
  exact arqRsp_of_events (by rfl) _

theorem deliverAck_progress {t : State} (h : takeAck x s = .progress t) (us : List Draw) :
    deliverAck x ackMarker s { s with draws := us } = arqRsp s .ok (ackProgress (ports us s.events t)) := by
  rw [deliverAck, if_neg (not_not_intro rfl), takeAck_drawn, h]
  rfl

end

/-- TXQ after `n` dequeues. -/
def Queue.advanced (cap n : Nat) (q : Queue) : Queue :=
  { q with front := BitVec.ofNat 8 ((q.front.toNat + n) % cap), size := BitVec.ofNat 8 (q.size.toNat - n) }

/-- Clearing ACK_TIMER and `check_done` after `n` dequeues give the window that has advanced by `n` (R137). -/
theorem ackProgress_advanced {s : State} {n : Nat} (hs : s.fsm = .transmitting) (hn : n ≤ s.txq.size.toNat)
    (us : List Draw) (a : BitVec 16) :
    arqRsp s .ok (ackProgress (ports us s.events { s with txq := s.txq.advanced s.cfg.w n, ackbits := a })) =
      { windowAdvanced s us n with ackbits := a } := by
  have hlt := s.txq.size.isLt
  have hsize : (BitVec.ofNat 8 (s.txq.size.toNat - n)).toNat = s.txq.size.toNat - n := toNat_ofNat8 (by omega)
  have hempty : BitVec.ofNat 8 (s.txq.size.toNat - n) = 0#8 ↔ s.txq.size.toNat = n := by
    rw [← BitVec.toNat_inj, hsize, BitVec.toNat_ofNat]
    omega
  by_cases hlast : s.sentCount.toNat = s.cfg.m ∧ s.txq.size.toNat = n
  · rw [ackProgress, checkDone_done (by exact ⟨hs, hlast.1, hempty.2 hlast.2⟩), arqRsp_of_events (n := 0) (by rfl)]
    simp [windowAdvanced, lastAck, hlast, ports, Queue.advanced]
  · rw [ackProgress, checkDone_not (by exact fun hd => hlast ⟨hd.2.1, hempty.1 hd.2.2⟩), arqRsp_of_events (n := 0) (by rfl)]
    simp [windowAdvanced, lastAck, hlast, ports, Queue.advanced, hs, hsize]

/-! ## SW and GBN: no ACKBIT (R29) -/

theorem Window.ackbits_eq_zero {s : State} (h : Window s) (hm : ¬(s.cfg.mode = .sr ∨ s.cfg.mode = .slw)) :
    s.ackbits = 0#16 := by
  refine BitVec.eq_of_getLsbD_eq fun i _ => ?_
  rw [BitVec.getLsbD_zero, ← Bool.not_eq_true]
  exact fun hi => hm (h.ackbits_held i hi).1

theorem Window.popTimes_unmarked {s : State} (h : Window s) (hm : ¬(s.cfg.mode = .sr ∨ s.cfg.mode = .slw)) {n : Nat}
    (hn : n ≤ s.txq.size.toNat) : Machine.popTimes n s = { s with txq := s.txq.advanced s.cfg.w n } := by
  have h0 := h.ackbits_eq_zero hm
  obtain ⟨a, ha, he⟩ := popTimes_eq n s (Cfg.valid_w h.cfg_valid).2 h.queues.txq hn
  obtain rfl : a = s.ackbits := BitVec.eq_of_getLsbD_eq fun i hi => by rw [ha i hi, h0, BitVec.getLsbD_zero, Bool.false_and]
  rw [he]
  rfl

section
variable {s : State} (h : Inv s) (hs : s.fsm = .transmitting) {u : Draw} {us : List Draw} (hd : s.draws = u :: us)
  (hu : s.cfg.pAckIn ≤ u.toNat)
include h hs hd hu

/-- An ACK that takes `n` entries in a mode that marks none. -/
theorem exec_arqRxack_popped (hm : ¬(s.cfg.mode = .sr ∨ s.cfg.mode = .slw)) {x : Byte} {n : Nat}
    (hn : n ≤ s.txq.size.toNat) (ht : takeAck x s = .progress (popTimes n s)) :
    exec (.arqRxack x ackMarker) s = .next (windowAdvanced s us n) := by
  rw [(h.unchecked hs).window.popTimes_unmarked hm hn] at ht
  rw [exec_arqRxack_delivered hs hd hu, deliverAck_progress ht, ackProgress_advanced hs hn us s.ackbits]
  rfl

omit h in
theorem exec_arqRxack_noMatch {x : Byte} (ht : takeAck x s = .noMatch) : exec (.arqRxack x ackMarker) s = .next { s with
    draws := us
    rsps := s.rsps ++ [⟨.ackNomatch, arqNumber .transmitting s.txq.size.toNat 0⟩] } := by
  rw [exec_arqRxack_delivered hs hd hu, deliverAck_noMatch ht, hs]

end

/-- Settles O44: the front entry is the first of the list of entries. -/
theorem stopAndWaitAckTakesTheFrontEntry : Obligations.StopAndWaitAckTakesTheFrontEntry := by
  intro s x u us h hm hs hd hu
  have htake : takeAck x s = takeAckFront x s := by rw [takeAck, hm]
  have hhead : (s.entriesOf .txq).head? = some x ↔ s.txq.size ≠ 0#8 ∧ s.txq.slotAt s.txq.front.toNat = x := by
    by_cases h0 : s.txq.size = 0#8
    · simp [State.entriesOf, Queue.entries_nil, h0]
    · have hcons := Queue.entries_cons (capacity_bounds h.cfg_valid .txq).2 h.queues.txq h0
      simp only [State.entriesOf, queue_txq, hcons, List.head?_cons, Option.some.injEq, h0, ne_eq, not_false_eq_true,
        true_and]
  rw [ne_eq, hhead]
  refine ⟨fun hfront => ?_, fun hfront => ?_⟩
  · exact exec_arqRxack_popped h hs hd hu (by simp [hm]) (toNat_ne_zero8.1 hfront.1)
      (by rw [htake, takeAckFront_eq, if_pos hfront])
  · exact exec_arqRxack_noMatch hs hd hu (by rw [htake, takeAckFront_eq, if_neg hfront])

/-! ## Finding an entry (40_queue.md R85, 10_state.md R30) -/

/-- The outstanding numbers are distinct, so the entry that holds a number is the one that `qfind` finds. -/
theorem Inv.qfind_entry {s : State} (h : Inv s) (hs : s.fsm = .transmitting) {x : Byte} {j : Nat}
    (hj : j < s.txq.size.toNat) (hx : s.txq.entry s.cfg.w j = x) : qfind .txq x s = some j := by
  cases hf : qfind .txq x s with
  | none => exact absurd hx (qfind_none hf j hj)
  | some k =>
    obtain ⟨hk, hkx, -⟩ := qfind_some hf
    have hnodup := outstandingSequenceNumbersAreDistinct s h hs
    have hkj := List.inj_on_of_nodup_map hnodup (List.mem_range.2 hk) (List.mem_range.2 hj) (hkx.trans hx.symm)
    rw [hkj]

theorem qfind_of_not_mem {s : State} {x : Byte} (hx : x ∉ s.entriesOf .txq) : qfind .txq x s = none := by
  cases hf : qfind .txq x s with
  | none => rfl
  | some k =>
    obtain ⟨hk, hkx, -⟩ := qfind_some hf
    exact absurd (List.mem_map.2 ⟨k, List.mem_range.2 hk, hkx⟩) hx

/-- Settles O45: the entry found is at its own offset, and that entry and all before it are dequeued. -/
theorem goBackNAckIsCumulative : Obligations.GoBackNAckIsCumulative := by
  intro s x u us h hm hs hd hu
  have htake : takeAck x s = takeAckCumulative x s := by rw [takeAck, hm]
  refine ⟨fun j hj hx => ?_, fun hx => ?_⟩
  · exact exec_arqRxack_popped h hs hd hu (by simp [hm]) hj
      (by rw [htake, takeAckCumulative_some (h.qfind_entry hs hj hx)])
  · exact exec_arqRxack_noMatch hs hd hu (by rw [htake, takeAckCumulative_none (qfind_of_not_mem hx)])

/-! ## SR and SLW: marking and sliding -/

theorem ackBit_setAckBit {i : Nat} (hi : i < 16) (k : Nat) (s : State) :
    ackBit (setAckBit i s) k = (ackBit s k || decide (k = i)) := by
  have hbit : (1#16 <<< i).getLsbD k = decide (k = i) := by
    rw [Bool.eq_iff_iff]
    simp
    omega
  rw [ackBit, setAckBit_ackbits, BitVec.getLsbD_or, hbit, ackBit]

section
variable {s : State} (hv : s.cfg.valid = true) (hq : s.txq.Wf s.cfg.w)
include hv

theorem entryIndex_lt_sixteen (k : Nat) : s.txq.entryIndex s.cfg.w k < 16 := by
  obtain ⟨hpos, hle⟩ := Cfg.valid_w hv
  exact (s.txq.entryIndex_lt hpos k).trans_le hle

include hq

/-- Marking the entry at offset `j` sets mark `j`. -/
theorem ackMarks_setAckBit {j : Nat} (hj : j < s.txq.size.toNat) :
    ackMarks (setAckBit (s.txq.entryIndex s.cfg.w j) s) = (ackMarks s).set j true := by
  have hle := hq.size_le
  refine List.ext_getElem (by simp [ackMarks]) fun k hk _ => ?_
  have hk : k < s.txq.size.toNat := by simpa [ackMarks] using hk
  have hindex : s.txq.entryIndex s.cfg.w k = s.txq.entryIndex s.cfg.w j ↔ j = k :=
    ⟨fun e => (Queue.entryIndex_inj hq (by omega) (by omega) e).symm, fun e => by rw [e]⟩
  have hmark : (ackMarks (setAckBit (s.txq.entryIndex s.cfg.w j) s))[k] =
      ackBit (setAckBit (s.txq.entryIndex s.cfg.w j) s) (s.txq.entryIndex s.cfg.w k) := by simp [ackMarks]
  rw [hmark, ackBit_setAckBit (entryIndex_lt_sixteen hv j), List.getElem_set]
  simp only [hindex, ackMarks, List.getElem_map, List.getElem_range]
  split <;> simp [*]

end

theorem markedPrefix_le (marks : List Bool) : markedPrefix marks ≤ marks.length := (List.takeWhile_sublist _).length_le

theorem takeAck_selective {s : State} (hm : s.cfg.mode = .sr ∨ s.cfg.mode = .slw) (x : Byte) :
    takeAck x s = takeAckSelective x s := by
  rcases hm with hm | hm <;> rw [takeAck, hm]

/-- Settles O46, by what `qfind` finds: an unmarked entry, a marked one, none. -/
theorem selectiveAckMarksAndSlides : Obligations.SelectiveAckMarksAndSlides := by
  intro s x u us h hm hs hd hu
  have hv := h.cfg_valid
  have hw := (Cfg.valid_w hv).2
  have htake := takeAck_selective hm x
  refine ⟨fun j hj hx hb => ?fresh, fun j hj hx hb => ?again, fun hx => ?none⟩
  case fresh =>
    have hprogress := takeAckSelective_fresh (h.qfind_entry hs hj hx) hb hw h.queues.txq
    rw [← htake, ackMarks_setAckBit hv h.queues.txq hj] at hprogress
    have hn : markedPrefix ((ackMarks s).set j true) ≤ s.txq.size.toNat :=
      (markedPrefix_le _).trans (by simp [ackMarks])
    obtain ⟨a, ha, he⟩ := popTimes_eq _ (setAckBit (s.txq.entryIndex s.cfg.w j) s) hw h.queues.txq hn
    refine ⟨a, fun i hi => ?_, ?_⟩
    · rw [ha i hi]
      exact congrArg (· && _) (ackBit_setAckBit (entryIndex_lt_sixteen hv j) i s)
    · rw [he] at hprogress
      exact (exec_arqRxack_delivered hs hd hu x ackMarker).trans
        (congrArg Host.Outcome.next ((deliverAck_progress hprogress us).trans (ackProgress_advanced hs hn us a)))
  case again =>
    have hduplicate := htake.trans (takeAckSelective_again (h.qfind_entry hs hj hx) hb)
    refine (exec_arqRxack_delivered hs hd hu x ackMarker).trans ?_
    rw [deliverAck_duplicate hduplicate, hs]
  case none =>
    exact exec_arqRxack_noMatch hs hd hu (htake.trans (takeAckSelective_none (qfind_of_not_mem hx)))

end Sys2Proof.Machine

/-! First transmissions in a row (43_arq.md R134, R135, R166): their frames and the window they leave. With that, the ARQ
reset signal (R140) and retransmission as a rewind (R136, 90_conflicts.md C8). -/

namespace Sys2Proof.Machine

/-! ## The frames of consecutive units -/

/-- The frames of `k` units from unit `u` on. -/
def unitFrames (c : Cfg) (u k : Nat) : List (Byte × Half) :=
  (List.range k).map fun j => (seqOfUnit c (u + j), BitVec.ofNat 16 (u + j))

theorem unitFrames_succ (c : Cfg) (u k : Nat) :
    unitFrames c u (k + 1) = (seqOfUnit c u, BitVec.ofNat 16 u) :: unitFrames c (u + 1) k := by
  rw [unitFrames, List.range_succ_eq_map, List.map_cons, List.map_map, unitFrames]
  refine congrArg _ (List.map_congr_left fun j _ => ?_)
  rw [Function.comp_apply, Nat.succ_eq_add_one, ← Nat.add_assoc, Nat.add_right_comm]

theorem unitFrames_length (c : Cfg) (u k : Nat) : (unitFrames c u k).length = k := by
  simp [unitFrames]

section
variable {c : Cfg} (hv : c.valid = true)
include hv

theorem newFrames_seqOfUnit (k : Nat) : ∀ u, newFrames c k (seqOfUnit c u) (BitVec.ofNat 16 u) = unitFrames c u k := by
  induction k with
  | zero => exact fun u => rfl
  | succ k ih =>
    intro u
    rw [newFrames, nextSeqOf_seqOfUnit hv, ← BitVec.ofNat_add, ih, unitFrames_succ]

theorem nextSeqTimes_seqOfUnit (k : Nat) : ∀ u, nextSeqTimes c k (seqOfUnit c u) = seqOfUnit c (u + k) := by
  induction k with
  | zero => exact fun u => rfl
  | succ k ih =>
    intro u
    rw [nextSeqTimes, nextSeqOf_seqOfUnit hv, ih, Nat.add_right_comm, Nat.add_assoc]

end

/-- The state after first transmissions of `k` units from unit `u` on. -/
def unitsSent (u k : Nat) (s : State) : State :=
  { s with
    nextSeq := seqOfUnit s.cfg (u + k)
    sentCount := BitVec.ofNat 16 (u + k)
    txq := s.txq.pushedAll s.cfg.w ((unitFrames s.cfg u k).map Prod.fst)
    draws := s.draws.drop k
    events := s.events ++ dataEvents s.cfg.pData (unitFrames s.cfg u k) s.draws }

section
variable {s : State} {u k : Nat} (hv : s.cfg.valid = true) (hroom : s.txq.size.toNat + k ≤ s.cfg.w)
include hv hroom

/-- From a window with no ACKBIT, the counters standing at unit `u`. -/
theorem sendTimes_units (hn : s.nextSeq = seqOfUnit s.cfg u) (hs : s.sentCount = BitVec.ofNat 16 u)
    (ha : s.ackbits = 0#16) (hk : k ≤ s.draws.length) : sendTimes k s = some (unitsSent u k s) := by
  obtain ⟨a, hsub, he⟩ := (sendTimes_eq k s (capacity_bounds hv .txq).2 hroom).1 hk
  obtain rfl : a = s.ackbits := by
    refine BitVec.eq_of_getLsbD_eq fun i _ => ?_
    rw [ha, BitVec.getLsbD_zero, ← Bool.not_eq_true]
    exact fun hi => by simpa [ha] using hsub i hi
  rw [he, hn, hs, newFrames_seqOfUnit hv, nextSeqTimes_seqOfUnit hv, ← BitVec.ofNat_add]
  rfl

theorem sendTimes_stalled (hk : s.draws.length < k) : sendTimes k s = none :=
  (sendTimes_eq k s (capacity_bounds hv .txq).2 hroom).2 hk

end

theorem dataEvents_length {p : Nat} {frames : List (Byte × Half)} {us : List Draw} (h : frames.length ≤ us.length) :
    (dataEvents p frames us).length = frames.length := by
  rw [dataEvents, List.length_zipWith, Nat.min_eq_left h]

/-! ## The window they leave -/

namespace Queue

variable {cap : Nat}

/-- Enqueuing a list appends it to the entries. -/
theorem entries_pushedAll (hcap : cap ≤ 255) (xs : List Byte) : ∀ {q : Queue}, q.Wf cap → q.size.toNat + xs.length ≤ cap →
    (q.pushedAll cap xs).entries cap = q.entries cap ++ xs := by
  induction xs with
  | nil => exact fun _ _ => (List.append_nil _).symm
  | cons x xs ih =>
    intro q hq hroom
    rw [List.length_cons] at hroom
    have hlt : q.size.toNat < cap := by omega
    have hsize := pushed_size_toNat hcap hlt x
    have hrest := ih (pushed_wf hq hcap hlt x) (by omega)
    rw [entries_pushed hq hcap hlt, List.append_assoc] at hrest
    exact hrest

/-- The queue that has taken `xs` since it was cleared, over the slots `old`. -/
def filled (cap : Nat) (old xs : List Byte) : Queue where
  slot := xs ++ old.drop xs.length
  front := 0#8
  rear := BitVec.ofNat 8 ((xs.length + cap - 1) % cap)
  size := BitVec.ofNat 8 xs.length

theorem cleared_eq_filled (hpos : 0 < cap) (q : Queue) : q.cleared cap = filled cap q.slot [] := by
  have hrear : (0 + cap - 1) % cap = cap - 1 := by
    rw [Nat.zero_add, Nat.mod_eq_of_lt (by omega)]
  rw [filled, List.length_nil, hrear]
  rfl

theorem filled_nextRear (hcap : cap ≤ 255) {old xs : List Byte} (h : xs.length < cap) :
    (filled cap old xs).nextRear cap = xs.length := by
  have hlt : (xs.length + cap - 1) % cap < cap := Nat.mod_lt _ (by omega)
  rw [nextRear, filled, toNat_ofNat8 (by omega), Nat.mod_add_mod, Nat.sub_add_cancel (by omega), Nat.add_mod_right,
    Nat.mod_eq_of_lt h]

theorem filled_pushed (hcap : cap ≤ 255) {old xs : List Byte} (hold : old.length = cap) (h : xs.length < cap) (v : Byte) :
    (filled cap old xs).pushed cap v = filled cap old (xs ++ [v]) := by
  have hslot : (xs ++ old.drop xs.length).set xs.length v = xs ++ [v] ++ old.drop (xs.length + 1) := by
    rw [List.set_append_right _ _ (Nat.le_refl _), Nat.sub_self, List.drop_eq_getElem_cons (by omega), List.set_cons_zero,
      List.append_assoc, List.singleton_append]
  have hrear : (xs.length + 1 + cap - 1) % cap = xs.length := by
    rw [Nat.add_right_comm, Nat.add_sub_cancel, Nat.add_mod_right, Nat.mod_eq_of_lt h]
  rw [pushed, filled_nextRear hcap h]
  simp only [filled, hslot, List.length_append, List.length_singleton, hrear, BitVec.ofNat_add]

theorem filled_pushedAll (hcap : cap ≤ 255) {old : List Byte} (hold : old.length = cap) (ys : List Byte) :
    ∀ {xs : List Byte}, xs.length + ys.length ≤ cap → (filled cap old xs).pushedAll cap ys = filled cap old (xs ++ ys) := by
  induction ys with
  | nil => exact fun _ => by rw [List.append_nil]; rfl
  | cons y ys ih =>
    intro xs h
    rw [List.length_cons] at h
    have hrest := ih (xs := xs ++ [y]) (by rw [List.length_append, List.length_singleton]; omega)
    rw [← filled_pushed hcap hold (by omega), List.append_assoc] at hrest
    exact hrest

end Queue

/-! ## The ARQ reset signal (R140) -/

section
variable {s : State} (hv : s.cfg.valid = true)
include hv

theorem fill_startSession : fill (startSession s) = sendTimes (min s.cfg.w s.cfg.m) (startSession s) := by
  have hroom : roomFor (startSession s) = min s.cfg.w s.cfg.m := by
    rw [roomFor]
    exact congrArg₂ min (Nat.sub_zero _) (Nat.sub_zero _)
  rw [fill, ← hroom]
  exact fillLoop_eq _ _ (capacity_bounds hv .txq).2 (Cfg.valid_m hv) (hroom.trans_le (Nat.min_le_left _ _))

theorem startSession_sent_txq (hslots : s.txq.slot.length = s.cfg.w) {n : Nat} (hn : n ≤ s.cfg.w) :
    (unitsSent 0 n (startSession s)).txq = Queue.filled s.cfg.w s.txq.slot ((List.range n).map (seqOfUnit s.cfg)) := by
  obtain ⟨hpos, hcap⟩ : 1 ≤ s.cfg.w ∧ s.cfg.w ≤ 255 := capacity_bounds hv .txq
  have hseqs : (unitFrames s.cfg 0 n).map Prod.fst = (List.range n).map (seqOfUnit s.cfg) := by
    simp [unitFrames, Function.comp_def]
  show (s.txq.cleared s.cfg.w).pushedAll s.cfg.w ((unitFrames s.cfg 0 n).map Prod.fst) = _
  rw [hseqs, Queue.cleared_eq_filled hpos, Queue.filled_pushedAll hcap hslots _ (by simpa using hn), List.nil_append]

/-- After the window is filled the transfer is done only if the message is empty (R137). -/
theorem checkDone_startSession_sent {n : Nat} (hn : n = min s.cfg.w s.cfg.m) (hslots : s.txq.slot.length = s.cfg.w) :
    checkDone (unitsSent 0 n (startSession s)) =
      { unitsSent 0 n (startSession s) with fsm := if s.cfg.m = 0 then .idle else .transmitting } := by
  obtain ⟨hpos, hcap⟩ : 1 ≤ s.cfg.w ∧ s.cfg.w ≤ 255 := capacity_bounds hv .txq
  have hsize : (unitsSent 0 n (startSession s)).txq.size.toNat = n := by
    rw [startSession_sent_txq hv hslots (by omega), Queue.filled, List.length_map, List.length_range,
      toNat_ofNat8 (by omega)]
  by_cases hm : s.cfg.m = 0
  · have h0 : n = 0 := by omega
    subst h0
    rw [checkDone_done (by exact ⟨rfl, hm.symm, rfl⟩), if_pos hm]
    rfl
  · have hne : (unitsSent 0 n (startSession s)).txq.size ≠ 0#8 := toNat_ne_zero8.2 (by omega)
    rw [checkDone_not fun hd => hne hd.2.2, if_neg hm]
    rfl

end

/-- Settles O40: `fill()` is `min W M` first transmissions from unit 0 into a cleared window. -/
theorem startSignalFillsTheWindow : Obligations.StartSignalFillsTheWindow := by
  intro s n hv hslots hn
  have hle : n ≤ s.cfg.w := by omega
  have hroom : (startSession s).txq.size.toNat + n ≤ (startSession s).cfg.w := (Nat.zero_add n).trans_le hle
  have hexec : exec (.arqCtrl 0x02#8 0x47#8) s =
      completing ((sendTimes n (startSession s)).map fun t => arqRsp s .ok (checkDone t)) := by
    rw [hn, ← fill_startSession hv]
    rfl
  refine ⟨fun hdraws => ?_, fun hdraws => ?_⟩
  · have hframes : unitFrames s.cfg 0 n = (List.range n).map fun u => (seqOfUnit s.cfg u, BitVec.ofNat 16 u) := by
      simp only [unitFrames, Nat.zero_add]
    have hsent := sendTimes_units (s := startSession s) (u := 0) hv hroom (seqOfUnit_zero _).symm rfl rfl hdraws
    have hevents : (unitsSent 0 n (startSession s)).events.length = s.events.length + n := by
      show (s.events ++ dataEvents _ (unitFrames s.cfg 0 n) s.draws).length = _
      rw [List.length_append, dataEvents_length, unitFrames_length]
      rw [unitFrames_length]; exact hdraws
    have hsize : (BitVec.ofNat 8 n).toNat = n := toNat_ofNat8 (by have := Cfg.valid_w hv; omega)
    rw [hexec, hsent, Option.map_some, completing_some, checkDone_startSession_sent hv hn hslots,
      arqRsp_of_events (n := n) (by exact hevents)]
    simp only [startSession_sent_txq hv hslots hle]
    simp [unitsSent, startSession, resetSession_eq, Queue.filled, hframes, hsize, Queue.cleared]
  · rw [hexec, sendTimes_stalled (s := startSession s) hv hroom hdraws]
    rfl

/-! ## Retransmission as a rewind (R136, C8) -/

/-- In SW and GBN every entry is sent again: the last units sent. -/
theorem Window.outstandingFrames_eq_unitFrames {s : State} (h : Window s) (hm : s.cfg.mode = .sw ∨ s.cfg.mode = .gbn) :
    outstandingFrames s = unitFrames s.cfg (s.sentCount.toNat - s.txq.size.toNat) s.txq.size.toNat := by
  have hall : ∀ j, sentAgain s j = true := fun j => by rcases hm with hm | hm <;> rw [sentAgain, hm]
  rw [outstandingFrames, List.filter_eq_self.2 fun j _ => hall j, unitFrames]
  refine List.map_congr_left fun j hj => ?_
  rw [h.entries j (List.mem_range.1 hj), unitAt]

theorem Window.entriesOf_txq {s : State} (h : Window s) :
    s.entriesOf .txq =
      (unitFrames s.cfg (s.sentCount.toNat - s.txq.size.toNat) s.txq.size.toNat).map Prod.fst := by
  rw [unitFrames, List.map_map]
  exact List.map_congr_left fun j hj => h.entries j (List.mem_range.1 hj)

/-- Settles O48: both send the frames of the last units, and the counters come back to where they stood. -/
theorem retransmitIsRewindAndResend : Obligations.RetransmitIsRewindAndResend := by
  intro s h hs hm hdraws
  have hw := (h.unchecked hs).window
  have hcap : s.cfg.w ≤ 255 := (capacity_bounds h.cfg_valid .txq).2
  have hclear : (s.txq.cleared s.cfg.w).Wf s.cfg.w := h.queues.cleared h.cfg_valid .txq
  have hle := hw.units_sent
  have hback : s.sentCount.toNat - s.txq.size.toNat + s.txq.size.toNat = s.sentCount.toNat := by omega
  have h0 : s.ackbits = 0#16 := hw.ackbits_eq_zero (by rcases hm with hm | hm <;> simp [hm])
  have hframes := hw.outstandingFrames_eq_unitFrames hm
  have hlen := unitFrames_length s.cfg (s.sentCount.toNat - s.txq.size.toNat) s.txq.size.toNat
  have hroom : (s.txq.cleared s.cfg.w).size.toNat + s.txq.size.toNat ≤ s.cfg.w :=
    (Nat.zero_add _).trans_le h.queues.txq.size_le
  refine ⟨_, _, hw.retransmit_eq.trans (if_pos (by rw [hframes, hlen]; exact hdraws)),
    sendTimes_units (u := s.sentCount.toNat - s.txq.size.toNat) h.cfg_valid hroom rfl rfl h0 hdraws, ?_, ?_⟩
  · show ((s.txq.cleared s.cfg.w).pushedAll s.cfg.w _).entries s.cfg.w = s.entriesOf .txq
    rw [Queue.entries_pushedAll hcap _ hclear (by rw [List.length_map, hlen]; exact hroom),
      Queue.entries_nil rfl, List.nil_append, hw.entriesOf_txq]
  · simp only [unitsSent, hback, hframes, hlen, ← h.next_seq, BitVec.ofNat_toNat, BitVec.setWidth_eq]

end Sys2Proof.Machine

/-! One tick, whole (43_arq.md R150): the counters, then the ACK timer's test with its retransmissions, then the transmit
timer's test with its new frame. -/

namespace Sys2Proof.Machine

/-! ## The timers (R139) -/

/-- A timer at or below a threshold of the configuration counts one more without wrapping (R9 h). -/
theorem timer_inc {c : Cfg} (hv : c.valid = true) {threshold : Nat} (ht : threshold / c.tickMs + 1 ≤ 65535) {t : Half}
    (h : fires c t threshold = false) : (t + 1#16).toNat = t.toNat + 1 := by
  have hle : t.toNat ≤ threshold / c.tickMs :=
    (Nat.le_div_iff_mul_le (Cfg.valid_tickMs hv).1).2 ((fires_false_iff c t threshold).1 h)
  exact toNat_inc16 (by omega)

section
variable {s : State} (h : Inv s)
include h

theorem Inv.ackFires_iff : (s.txq.size ≠ 0#8 ∧
    fires s.cfg (if s.txq.size = 0#8 then s.ackTimer else s.ackTimer + 1#16) s.cfg.ackTimeout = true) ↔ ackFires s = true := by
  rw [ackFires, Bool.and_eq_true, decide_eq_true_iff, decide_eq_true_iff]
  refine and_congr_right fun h0 => ?_
  rw [if_neg h0, fires_iff, timer_inc h.cfg_valid (Cfg.valid_ack_fits h.cfg_valid) h.ack_timer_below]

theorem Inv.txFires_iff : fires s.cfg (s.txTimer + 1#16) s.cfg.txTimeout = true ↔ txFires s = true := by
  rw [txFires, decide_eq_true_iff, fires_iff, timer_inc h.cfg_valid (Cfg.valid_tx_fits h.cfg_valid) h.tx_timer_below]

end

/-! ## The ACK timer's part of a tick -/

/-- The frames that the ACK timer sends again on the next tick. -/
def resentFrames (s : State) : List (Byte × Half) := if ackFires s then outstandingFrames s else []

/-- The state after the increments and the ACK timer's test. -/
def ackTicked (s : State) : State :=
  { s with
    ackTimer := if ackFires s then 0#16 else if s.txq.size = 0#8 then s.ackTimer else s.ackTimer + 1#16
    txTimer := s.txTimer + 1#16
    draws := s.draws.drop (resentFrames s).length
    events := s.events ++ dataEvents s.cfg.pData (resentFrames s) s.draws }

theorem Inv.ackTimerTest_countTick {s : State} (h : Inv s) (hs : s.fsm = .transmitting) : ackTimerTest (countTick s) =
    if (resentFrames s).length ≤ s.draws.length then some (ackTicked s) else none := by
  have hcleared : Window { countTick s with ackTimer := 0#16 } := (h.unchecked hs).window.timers _ _ _ _ _ _ _
  by_cases hf : ackFires s = true
  · have htest : ackTimerTest (countTick s) = retransmit { countTick s with ackTimer := 0#16 } :=
      if_pos (h.ackFires_iff.2 hf)
    have hframes : resentFrames s = outstandingFrames s := if_pos hf
    rw [htest, hcleared.retransmit_eq, ackTicked, if_pos hf, hframes]
    rfl
  · have htest : ackTimerTest (countTick s) = some (countTick s) := if_neg fun hc => hf (h.ackFires_iff.1 hc)
    have hframes : resentFrames s = [] := if_neg hf
    rw [htest, if_pos (by rw [hframes]; exact Nat.zero_le _), ackTicked, if_neg hf, hframes]
    simp [countTick, dataEvents]

/-! ## The transmit timer's part -/

/-- The slot of the next entry holds none, so its ACKBIT is clear already (10_state.md R29). -/
theorem Window.clear_nextRear_ackBit {s : State} (h : Window s) (hroom : s.txq.size.toNat < s.cfg.w) :
    s.ackbits &&& ~~~(1#16 <<< s.txq.nextRear s.cfg.w) = s.ackbits := by
  refine BitVec.eq_of_getLsbD_eq fun i _ => ?_
  rw [getLsbD_clear_bit, Bool.and_eq_left_iff_imp, Bool.not_eq_true', decide_eq_false_iff_not]
  rintro hi rfl
  obtain ⟨-, j, hj, hidx⟩ := h.ackbits_held _ hi
  rw [Queue.nextRear_eq h.queues.txq] at hidx
  have := Queue.entryIndex_inj h.queues.txq (by omega) hroom hidx
  omega

/-- The new frame of the next tick. -/
def newFrame (s : State) : List (Byte × Half) := if newFrameDue s then [(s.nextSeq, s.sentCount)] else []

/-- The state `t` after the transmit timer's test, the window and the transmit timer being those of `s`. -/
def txTicked (s t : State) : State :=
  { t with
    txTimer := if txFires s then 0#16 else s.txTimer + 1#16
    nextSeq := if newFrameDue s then seqOfUnit s.cfg (s.sentCount.toNat + 1) else s.nextSeq
    sentCount := if newFrameDue s then s.sentCount + 1#16 else s.sentCount
    txq := if newFrameDue s then s.txq.pushed s.cfg.w s.nextSeq else s.txq
    draws := t.draws.drop (newFrame s).length
    events := t.events ++ dataEvents s.cfg.pData (newFrame s) t.draws }

theorem newFrameDue_eq (s : State) : newFrameDue s = (txFires s && canSend s) := by
  rw [newFrameDue, canSend, Bool.and_assoc]

theorem Window.sendNew_due {s : State} (h : Window s) (hc : canSend s = true) {u : Draw} {us : List Draw}
    (hd : s.draws = u :: us) : sendNew s = some { s with
      nextSeq := seqOfUnit s.cfg (s.sentCount.toNat + 1)
      sentCount := s.sentCount + 1#16
      txq := s.txq.pushed s.cfg.w s.nextSeq
      draws := us
      events := s.events ++ [.data s.nextSeq s.sentCount (dropped u s.cfg.pData)] } := by
  obtain ⟨hroom, -⟩ := (canSend_iff s).1 hc
  have hnext : nextSeqOf s.cfg s.nextSeq = seqOfUnit s.cfg (s.sentCount.toNat + 1) := by
    rw [h.next_seq, nextSeqOf_seqOfUnit h.cfg_valid]
  rw [sendNew_cons hd hroom.ne, h.clear_nextRear_ackBit hroom, hnext]

theorem Inv.txTimerTest_counted {s : State} (h : Inv s) (hs : s.fsm = .transmitting) (x : Half) (ds : List Draw)
    (ev : List Event) :
    txTimerTest { s with ackTimer := x, txTimer := s.txTimer + 1#16, draws := ds, events := ev } =
      if (newFrame s).length ≤ ds.length then
        some (txTicked s { s with ackTimer := x, txTimer := s.txTimer + 1#16, draws := ds, events := ev })
      else none := by
  unfold txTimerTest
  by_cases hf : txFires s = true
  · rw [if_pos (h.txFires_iff.2 hf)]
    by_cases hc : canSend s = true
    · have hdue : newFrameDue s = true := by rw [newFrameDue_eq, hf, hc]; rfl
      have hframe : newFrame s = [(s.nextSeq, s.sentCount)] := if_pos hdue
      rw [if_pos (by exact hc), hframe]
      cases ds with
      | nil => exact sendNew_nil rfl
      | cons u us =>
        have hcleared : Window { s with ackTimer := x, txTimer := 0#16, draws := u :: us, events := ev } :=
          (h.unchecked hs).window.timers _ _ _ _ _ _ _
        have hlen : [(s.nextSeq, s.sentCount)].length ≤ (u :: us).length := Nat.le_add_left 1 _
        rw [if_pos hlen]
        refine (hcleared.sendNew_due hc rfl).trans ?_
        simp [txTicked, hdue, hf, hframe, dataEvents, dropped]
    · have hdue : newFrameDue s = false := by rw [newFrameDue_eq, Bool.eq_false_iff.2 hc, Bool.and_false]
      have hframe : newFrame s = [] := by simp [newFrame, hdue]
      rw [if_neg (by exact hc), if_pos (by rw [hframe]; exact Nat.zero_le _)]
      simp [txTicked, hdue, hf, hframe, dataEvents]
  · have hdue : newFrameDue s = false := by rw [newFrameDue_eq, Bool.eq_false_iff.2 hf, Bool.false_and]
    have hframe : newFrame s = [] := by simp [newFrame, hdue]
    rw [if_neg fun hfire => hf (h.txFires_iff.1 hfire), if_pos (by rw [hframe]; exact Nat.zero_le _)]
    simp [txTicked, hdue, hf, hframe, dataEvents]

/-! ## The two parts together -/

theorem dataEvents_append (p : Nat) (fs gs : List (Byte × Half)) : ∀ us : List Draw, fs.length ≤ us.length →
    dataEvents p (fs ++ gs) us = dataEvents p fs us ++ dataEvents p gs (us.drop fs.length) := by
  induction fs with
  | nil => exact fun us _ => rfl
  | cons f fs ih =>
    intro us h
    cases us with
    | nil => exact absurd h (Nat.not_succ_le_zero _)
    | cons u us => exact congrArg (List.cons _) (ih us (Nat.le_of_succ_le_succ h))

theorem tickFrames_eq (s : State) : tickFrames s = resentFrames s ++ newFrame s := rfl

theorem tickFrames_length (s : State) : (tickFrames s).length = (resentFrames s).length + (newFrame s).length :=
  List.length_append

section
variable {s : State} (h : Inv s) (hs : s.fsm = .transmitting)
include h hs

theorem Inv.tick_tests : (ackTimerTest (countTick s)).bind txTimerTest =
    if (tickFrames s).length ≤ s.draws.length then some (txTicked s (ackTicked s)) else none := by
  have hlen := tickFrames_length s
  rw [h.ackTimerTest_countTick hs]
  by_cases hr : (resentFrames s).length ≤ s.draws.length
  · rw [if_pos hr, Option.bind_some, ackTicked, h.txTimerTest_counted hs, List.length_drop]
    exact if_congr (by omega) rfl rfl
  · rw [if_neg hr, if_neg (by omega)]
    rfl

/-- The draws, the events and the window size after the tick. -/
theorem Inv.txTicked_ackTicked (hd : (tickFrames s).length ≤ s.draws.length) :
    (txTicked s (ackTicked s)).draws = s.draws.drop (tickFrames s).length ∧
    (txTicked s (ackTicked s)).events = s.events ++ dataEvents s.cfg.pData (tickFrames s) s.draws ∧
    (txTicked s (ackTicked s)).txq.size.toNat = s.txq.size.toNat + if newFrameDue s then 1 else 0 := by
  have hlen := tickFrames_length s
  refine ⟨?_, ?_, ?_⟩
  · rw [hlen]
    exact List.drop_drop
  · rw [tickFrames_eq, dataEvents_append _ _ _ _ (by omega), ← List.append_assoc]
    rfl
  · show (if newFrameDue s then s.txq.pushed s.cfg.w s.nextSeq else s.txq).size.toNat = _
    by_cases hdue : newFrameDue s = true
    · have hc : canSend s = true := by rw [newFrameDue_eq, Bool.and_eq_true] at hdue; exact hdue.2
      rw [if_pos hdue, if_pos hdue]
      exact (h.unchecked hs).window.windowSent_size hc
    · rw [if_neg hdue, if_neg hdue]
      rfl

end

/-- Settles O47: both tests under the invariant, and the draws they take together. -/
theorem tickCountsThenFires : Obligations.TickCountsThenFires := by
  refine ⟨decodeOfEncode .arqTick, fun s hs => ?idle, fun s h hs hd => ?fired, fun s h hs hd => ?stalled⟩
  case idle =>
    have hexec : exec .arqTick s = .next (arqRsp s .idleIgnored s) := by simp only [exec, execArqTick, hs]
    rw [hexec, arqRsp_of_events (n := 0) (by rfl), hs]
  all_goals
    have hexec : exec .arqTick s =
        completing (((ackTimerTest (countTick s)).bind txTimerTest).map (arqRsp s .ok)) := by
      simp only [exec, execArqTick, hs]
  case fired =>
    obtain ⟨hdraws, hevents, hsize⟩ := h.txTicked_ackTicked hs hd
    have hcount : (txTicked s (ackTicked s)).events.length = s.events.length + (tickFrames s).length := by
      rw [hevents, List.length_append, dataEvents_length hd]
    have hfsm : (txTicked s (ackTicked s)).fsm = .transmitting := hs
    rw [hexec, h.tick_tests hs, if_pos hd, Option.map_some, completing_some, arqRsp_of_events hcount, hdraws, hevents, hsize,
      hfsm]
    simp only [hs]
    rfl
  case stalled =>
    rw [hexec, h.tick_tests hs, if_neg (Nat.not_le.2 hd)]
    rfl

end Sys2Proof.Machine

/-! The system commands (45_system.md R180 to R182): the word of each, the words of their OPC that are ILLEGAL, and the
whole next state, with REG.RD's register views as numbers. -/

namespace Sys2Proof

/-! ## Reserved bits (30_encoding.md R56) -/

/-- A word with a bit set among bits that its row checks, where the row's pattern has none, does not fit the row. -/
theorem OpcodeRow.fits_false_of_bits {row : OpcodeRow} {m w : Word} (hmask : row.mask &&& m = m)
    (hpattern : row.pattern &&& m = 0#32) (hw : w &&& m ≠ 0#32) : row.fits w = false := by
  refine Bool.eq_false_iff.2 fun hfits => hw ?_
  have hrow : w &&& row.mask = row.pattern := eq_of_beq hfits
  rw [← hmask, ← BitVec.and_assoc, hrow, hpattern]

theorem decode_regRd_word (r : Byte) : decode (0x50000000#32 ||| r.setWidth 32 <<< 16) = .ok (.regRd r) :=
  decode_of_encode_eq (packWord_zero_opd 0x50#8 r)

theorem decode_regClrerr_word (mask : BitVec 5) :
    decode (0x51000000#32 ||| mask.setWidth 32) = .ok (.regClrerr mask) :=
  decode_of_encode_eq (packWord_low_opd (by decide) 0x51#8 mask)

end Sys2Proof

namespace Sys2Proof.Machine

/-- A word with the OPC of a command that does not fit the command's row is ILLEGAL (30_encoding.md R56, R58). -/
theorem runWord_of_row_not_fits {α : Type} {fmt : Format α} {name : String} {o : Byte} {f : α → Instr}
    (h : fmt.Command name o f) {w : Word} (hopc : opcField w = o) (hfits : (fmt.row name o).fits w = false)
    (s : State) : runWord w s = .next (illegal s) := by
  have hpattern : opcField (fmt.row name o).pattern = o := packWord_opc o 0#8 0#16
  exact runWord_of_decode_error (h.row_decodes.rejects (hopc.trans hpattern.symm) hfits) s

/-! ## NOP (R180) -/

/-- Settles O16: all 32 bits of the NOP word are checked, and the command has no case. -/
theorem nopOnlyResponds : Obligations.NopOnlyResponds := by
  refine ⟨decodeOfEncode .nop, fun w hopc hw s => ?_, fun s => rfl⟩
  have hbits : w &&& BitVec.allOnes 32 ≠ 0x00000000#32 := BitVec.and_allOnes.symm ▸ hw
  have hfits := OpcodeRow.fits_false_of_bits (row := Format.bare.row "NOP" 0x00#8) (by decide) (by decide) hbits
  rw [runWord_of_row_not_fits nop_command hopc hfits, illegal_eq]

/-! ## REG.RD (R181) -/

/-- A field above a field of `i` bits does not overlap it, so the two together are their sum. -/
theorem ofNat_shiftLeft_or {w i a b : Nat} (hb : b < 2 ^ i) :
    BitVec.ofNat w a <<< i ||| BitVec.ofNat w b = BitVec.ofNat w (a * 2 ^ i + b) := by
  have hshift : BitVec.ofNat w a <<< i = BitVec.ofNat w (a <<< i) := BitVec.eq_of_toNat_eq (by
    simp only [BitVec.toNat_shiftLeft, BitVec.toNat_ofNat, Nat.shiftLeft_eq, Nat.mod_mul_mod])
  rw [hshift, ← BitVec.ofNat_or, ← Nat.shiftLeft_add_eq_or_of_lt hb, Nat.shiftLeft_eq]

theorem modeBits_toNat (m : Mode) : (modeBits m).toNat = modeNumber m := by cases m <;> rfl

theorem fsmBit_toNat (f : Fsm) : f.bit.toNat = fsmNumber f := by cases f <;> rfl

/-- STATUS holds FSM, EOM and MODE side by side. -/
theorem regVal_status (s : State) : regVal s .status = BitVec.ofNat 24 (regContent s 0x00) := by
  have heom : (eom s).toNat = if s.sentCount.toNat = s.cfg.m then 1 else 0 := by
    by_cases h : s.sentCount.toNat = s.cfg.m <;> simp [eom, h]
  have hlow : (eom s).toNat * 2 ^ 1 + s.fsm.bit.toNat < 2 ^ 2 := by have := (eom s).toNat_lt; omega
  simp only [regVal, ← BitVec.ofNat_toNat, BitVec.toNat_ofBool]
  rw [BitVec.or_assoc, ofNat_shiftLeft_or s.fsm.bit.isLt, ofNat_shiftLeft_or hlow, heom, modeBits_toNat, fsmBit_toNat,
    regContent]
  congr 1
  omega

/-- The view of ACKBIT keeps the C_TX lowest bits. -/
theorem ackBitsView_toNat {s : State} (hw : s.cfg.w ≤ 16) : (ackBitsView s).toNat = s.ackbits.toNat % 2 ^ s.cfg.w := by
  have hpow : 2 ^ s.cfg.w ≤ 2 ^ 16 := Nat.pow_le_pow_right (by decide) hw
  rw [ackBitsView, BitVec.toNat_and, BitVec.toNat_ofNat, Nat.mod_eq_of_lt (by omega), Nat.and_two_pow_sub_one_eq_mod]

/-- CFG_WIN holds W, LENM and BASE side by side; in a valid configuration each fits its bits. -/
theorem regVal_cfgWin {s : State} (hv : s.cfg.valid = true) :
    regVal s .cfgWin = BitVec.ofNat 24 (regContent s 0x0E) := by
  have hw := Cfg.valid_w hv
  have hl := Cfg.valid_lenm hv
  have hb := Cfg.valid_base hv
  rw [regVal, BitVec.setWidth_ofNat_of_le_of_lt (by decide) (by omega),
    BitVec.setWidth_ofNat_of_le_of_lt (by decide) (by omega), BitVec.setWidth_ofNat_of_le_of_lt (by decide) (by omega),
    BitVec.or_assoc, ofNat_shiftLeft_or (by omega), ofNat_shiftLeft_or (by omega), regContent]
  congr 1
  omega

/-- Each register view holds the content of its row of R181's table. -/
theorem regVal_eq_regContent {s : State} (hv : s.cfg.valid = true) (reg : Reg) :
    regVal s reg = BitVec.ofNat 24 (regContent s (regMap.idxOf reg)) := by
  have hd := Cfg.valid_d hv
  have hm := Cfg.valid_m hv
  have hl := Cfg.valid_dataLen hv
  cases reg with
  | status => exact regVal_status s
  | txqAckbits =>
    rw [regVal, ← BitVec.ofNat_toNat, ackBitsView_toNat (Cfg.valid_w hv).2]
    rfl
  | cfgWin => exact regVal_cfgWin hv
  | cfgRx => exact BitVec.setWidth_ofNat_of_le_of_lt (by decide) (by omega)
  | cfgMsg => exact BitVec.setWidth_ofNat_of_le_of_lt (by decide) (by omega)
  | cfgDatalen => exact BitVec.setWidth_ofNat_of_le_of_lt (by decide) (by omega)
  | err | nextSeq | sentCount | rxExp | ackTimer | txTimer | txqSize | txqFront | txqRear | rxqSize | rxqFront | rxqRear =>
    exact (BitVec.ofNat_toNat 24 _).symm

theorem regMap_nodup : regMap.Nodup := by decide

/-- A register stands in the map at its number. -/
theorem idxOf_of_regOfNumber {r : Byte} {reg : Reg} (h : regOfNumber r = some reg) : regMap.idxOf reg = r.toNat := by
  obtain ⟨hlt, rfl⟩ := List.getElem?_eq_some_iff.1 h
  exact regMap_nodup.idxOf_getElem r.toNat hlt

theorem exec_regRd_register {s : State} (hv : s.cfg.valid = true) {r : Byte} (hr : r ≤ 0x11#8) :
    exec (.regRd r) s = .next (respond .ok (BitVec.ofNat 24 (regContent s r.toNat)) s) := by
  obtain ⟨reg, hreg⟩ := regOfNumber_of_wellFormed (decide_eq_true hr)
  simp only [exec, execRegRd, hreg, regVal_eq_regContent hv, idxOf_of_regOfNumber hreg]

theorem exec_regRd_above {r : Byte} (hr : 0x11#8 < r) (s : State) : exec (.regRd r) s = .next (illegal s) := by
  simp only [exec, execRegRd, regOfNumber_none.2 hr]

/-- The ACKBIT of a slot that holds no entry is 0 (10_state.md R29). -/
theorem Inv.ackBit_of_not_holds {s : State} (h : Inv s) {i : Nat} (hi : ¬s.txq.holds s.cfg.w i) : ackBit s i = false :=
  Bool.eq_false_iff.2 fun hb => by
    obtain ⟨-, -, hheld⟩ := h.ackbits_held i hb
    exact hi hheld

/-- Bit `i` of TXQ_ACKBITS is `ACKBIT[i]` below C_TX and 0 from there on. -/
theorem testBit_txqAckbits (s : State) (i : Nat) :
    (regContent s 0x0A).testBit i = (decide (i < s.cfg.w) && ackBit s i) :=
  Nat.testBit_mod_two_pow _ _ _

/-- Settles O17: the table row by row, the numbers it does not list, and R29 for the slots that hold no entry. -/
theorem regReadAnswersTheRegister : Obligations.RegReadAnswersTheRegister := by
  refine ⟨decode_regRd_word, fun r s hv hr => exec_regRd_register hv hr, fun r s hr => ?_, fun i s h hi => ?_⟩
  · rw [exec_regRd_above hr, illegal_eq]
  · rw [testBit_txqAckbits, h.ackBit_of_not_holds hi, Bool.and_false]

/-! ## REG.CLRERR (R182) -/

/-- Settles O18: the command has no case, and its row checks SEL and the high bits of OPD. -/
theorem clrerrClearsTheMaskedBits : Obligations.ClrerrClearsTheMaskedBits := by
  refine ⟨decode_regClrerr_word, fun mask s => rfl, fun w s hopc hw => ?_⟩
  have hfits := OpcodeRow.fits_false_of_bits (row := (Format.low 5 11 rfl).row "REG.CLRERR" 0x51#8) (by decide)
    (by decide) hw
  rw [runWord_of_row_not_fits regClrerr_command hopc hfits, illegal_eq]

end Sys2Proof.Machine

/-! Every command to its end (60_exceptions.md R190, R193; 30_encoding.md R52): one relation says what a procedure of a command
may do to the ports, the configuration and ERR, and with how many draws it completes. Procedure by procedure it gives that
every command completes with one response, and which ERR bits a command may set. -/

namespace Sys2Proof.Machine

/-! ## What a procedure leaves to the state it ends in -/

/-- From `s` to `t` without a response: ERR is kept or gains the bits `b`, events are appended, at most `n` draws are taken
from the front, and the configuration and the input are kept. -/
structure Advance (b : BitVec 5) (n : Nat) (s t : State) : Prop where
  cfg : t.cfg = s.cfg
  inputs : t.inputs = s.inputs
  rsps : t.rsps = s.rsps
  err : t.err = s.err ∨ t.err = s.err ||| b
  events : ∃ evs, t.events = s.events ++ evs
  draws : ∃ k, k ≤ n ∧ t.draws = s.draws.drop k

section
variable {b : BitVec 5} {n m : Nat} {s t u : State}

/-- A change of the state that leaves ERR and the ports alone. -/
theorem Advance.quiet (hc : t.cfg = s.cfg := by rfl) (hi : t.inputs = s.inputs := by rfl) (hr : t.rsps = s.rsps := by rfl)
    (he : t.err = s.err := by rfl) (hev : t.events = s.events := by rfl) (hd : t.draws = s.draws := by rfl) :
    Advance b n s t :=
  ⟨hc, hi, hr, .inl he, ⟨[], by rw [hev, List.append_nil]⟩, 0, Nat.zero_le n, hd⟩

theorem Advance.refl (s : State) : Advance b n s s := .quiet

theorem Advance.trans (h : Advance b n s t) (h' : Advance b m t u) : Advance b (n + m) s u := by
  obtain ⟨evs, hev⟩ := h.events
  obtain ⟨evs', hev'⟩ := h'.events
  obtain ⟨k, hk, hd⟩ := h.draws
  obtain ⟨k', hk', hd'⟩ := h'.draws
  refine ⟨h'.cfg.trans h.cfg, h'.inputs.trans h.inputs, h'.rsps.trans h.rsps, ?_,
    ⟨evs ++ evs', by rw [hev', hev, List.append_assoc]⟩, k + k', Nat.add_le_add hk hk', by rw [hd', hd, List.drop_drop]⟩
  rcases h'.err with he' | he' <;> rw [he']
  · exact h.err
  · refine .inr ?_
    rcases h.err with he | he <;> rw [he]
    rw [BitVec.or_assoc, BitVec.or_self]

theorem Advance.mono (h : Advance b n s t) (hnm : n ≤ m) : Advance b m s t := by
  obtain ⟨k, hk, hd⟩ := h.draws
  exact { h with draws := ⟨k, hk.trans hnm, hd⟩ }

/-- The draws that are left. -/
theorem Advance.length_draws (h : Advance b n s t) : s.draws.length - n ≤ t.draws.length := by
  obtain ⟨k, hk, hd⟩ := h.draws
  rw [hd, List.length_drop]
  omega

theorem setErr_advance (e : ErrBit) (hb : 1#5 <<< e.number = b) (s : State) : Advance b n s (setErr e s) :=
  ⟨rfl, rfl, rfl, .inr (by rw [setErr_err, hb]), ⟨[], (List.append_nil _).symm⟩, 0, Nat.zero_le n, rfl⟩

/-! ## Procedures that may lack a draw -/

/-- The procedure completes with `n` draws at hand, and ends in an `Advance` that takes no more than these. -/
structure Proceeds (b : BitVec 5) (n : Nat) (s : State) (o : Option State) : Prop where
  advance : ∀ t, o = some t → Advance b n s t
  completes : n ≤ s.draws.length → ∃ t, o = some t

theorem Proceeds.of_advance (h : Advance b n s t) : Proceeds b n s (some t) :=
  ⟨fun _ ht => Option.some.inj ht ▸ h, fun _ => ⟨t, rfl⟩⟩

/-- One draw, and without it no end. -/
theorem Proceeds.of_draw {o : Option State} (hnil : s.draws = [] → o = none)
    (hcons : ∀ v vs, s.draws = v :: vs → ∃ t, o = some t ∧ Advance b 1 s t) : Proceeds b 1 s o := by
  cases hd : s.draws with
  | nil =>
    rw [hnil hd]
    exact ⟨nofun, fun h => by simp [hd] at h⟩
  | cons v vs =>
    obtain ⟨t, rfl, ht⟩ := hcons v vs hd
    exact .of_advance ht

theorem Proceeds.mono {o : Option State} (h : Proceeds b n s o) (hnm : n ≤ m) : Proceeds b m s o :=
  ⟨fun t ht => (h.advance t ht).mono hnm, fun hm => h.completes (hnm.trans hm)⟩

theorem Proceeds.bind {o : Option State} {f : State → Option State} (h : Proceeds b n s o)
    (hf : ∀ t, Proceeds b m t (f t)) : Proceeds b (n + m) s (o.bind f) := by
  constructor
  · intro u hu
    obtain ⟨t, ht, hfu⟩ := Option.bind_eq_some_iff.1 hu
    exact (h.advance t ht).trans ((hf t).advance u hfu)
  · intro hlen
    obtain ⟨t, rfl⟩ := h.completes (by omega)
    have hleft := (h.advance t rfl).length_draws
    exact (hf t).completes (by omega)

/-- After a change that takes no draw. -/
theorem Proceeds.after {o : Option State} (h : Advance b 0 s t) (ho : Proceeds b n t o) : Proceeds b n s o :=
  ⟨fun u hu => (h.trans (ho.advance u hu)).mono (Nat.zero_add n).le,
    fun hlen => ho.completes (by have := h.length_draws; omega)⟩

/-- Before a change that takes no draw. -/
theorem Proceeds.map {o : Option State} {g : State → State} (h : Proceeds b n s o) (hg : ∀ t, Advance b 0 t (g t)) :
    Proceeds b n s (o.map g) := by
  rw [Option.map_eq_bind]
  exact h.bind fun t => .of_advance (hg t)

end

/-! ## The queue primitives (40_queue.md R80 to R82) -/

theorem qenq_advance {n : Nat} (q : QSel) (v : Byte) (s : State) : Advance 0b00010#5 n s (qenq q v s).2 := by
  by_cases h : (s.queue q).size.toNat = capacity s.cfg q
  · rw [qenq_full h]
    exact setErr_advance .qFull rfl s
  · rw [qenq_ok h]
    cases q <;> exact .quiet

theorem qdeq_advance {n : Nat} (q : QSel) (s : State) : Advance 0b00100#5 n s (qdeq q s).2 := by
  by_cases h : (s.queue q).size = 0#8
  · rw [qdeq_empty h]
    exact setErr_advance .qEmpty rfl s
  · rw [qdeq_ok h]
    cases q <;> exact .quiet

theorem qfront_advance {n : Nat} (q : QSel) (s : State) : Advance 0b00100#5 n s (qfront q s).2 := by
  by_cases h : (s.queue q).size = 0#8
  · rw [qfront_empty h]
    exact setErr_advance .qEmpty rfl s
  · rw [qfront_value h]
    exact .refl s

theorem qrear_advance {n : Nat} (q : QSel) (s : State) : Advance 0b00100#5 n s (qrear q s).2 := by
  by_cases h : (s.queue q).size = 0#8
  · rw [qrear_empty h]
    exact setErr_advance .qEmpty rfl s
  · rw [qrear_value h]
    exact .refl s

theorem qclear_advance {b : BitVec 5} {n : Nat} (q : QSel) (s : State) : Advance b n s (qclear q s) := by
  cases q <;> exact .quiet

/-! ## The ARQ procedures: none of them sets an ERR bit -/

section
variable {b : BitVec 5} {n : Nat} {s : State}

theorem checkDone_advance (s : State) : Advance b n s (checkDone s) := by
  by_cases h : s.fsm = .transmitting ∧ s.sentCount.toNat = s.cfg.m ∧ s.txq.size = 0#8
  · rw [checkDone_done h]
    exact .quiet
  · rw [checkDone_not h]
    exact .refl s

/-- There is room for the frame, so its enqueue is not refused (R134). -/
theorem sendNew_proceeds (h : canSend s = true) : Proceeds b 1 s (sendNew s) := by
  have hroom := ((canSend_iff s).1 h).1
  exact .of_draw sendNew_nil fun v vs hd =>
    ⟨_, sendNew_cons hd hroom.ne, rfl, rfl, rfl, .inl rfl, ⟨_, rfl⟩, 1, Nat.le_refl 1, by rw [hd]; rfl⟩

theorem fillLoop_proceeds (n : Nat) : ∀ s : State, Proceeds b n s (fillLoop n s) := by
  induction n with
  | zero => exact fun s => .of_advance (.refl s)
  | succ n ih =>
    intro s
    rw [fillLoop_succ]
    split
    · rename_i h
      exact ((sendNew_proceeds h).bind ih).mono (Nat.add_comm 1 n).le
    · exact .of_advance (.refl s)

/-- At most one draw an entry (R136). -/
theorem retransmit_proceeds (s : State) : Proceeds b s.txq.size.toNat s (retransmit s) := by
  have hframes := resendFrames_length_le s
  rw [retransmit_eq]
  split
  · exact .of_advance ⟨rfl, rfl, rfl, .inl rfl, ⟨_, rfl⟩, _, hframes, rfl⟩
  · exact ⟨nofun, fun _ => by omega⟩

/-- RXQ is not empty, so its dequeue is not refused (R138). -/
theorem emitAck_proceeds (h : s.rxq.size ≠ 0#8) : Proceeds b 1 s (emitAck s) :=
  .of_draw emitAck_nil fun v vs hd =>
    ⟨_, emitAck_cons hd h, rfl, rfl, rfl, .inl rfl, ⟨_, rfl⟩, 1, Nat.le_refl 1, by rw [hd]; rfl⟩

theorem drainLoop_proceeds (n : Nat) : ∀ s : State, Proceeds b n s (drainLoop n s) := by
  induction n with
  | zero => exact fun s => .of_advance (.refl s)
  | succ n ih =>
    intro s
    rw [drainLoop_succ]
    split
    · exact .of_advance (.refl s)
    · rename_i h
      exact ((emitAck_proceeds h).bind ih).mono (Nat.add_comm 1 n).le

/-- D is at least 1, so an ACK is due only with an entry to acknowledge (R155). -/
theorem ackWhenDeep_proceeds (hd : 1 ≤ s.cfg.d) : Proceeds b 1 s (ackWhenDeep s) := by
  unfold ackWhenDeep
  split
  · exact emitAck_proceeds (toNat_ne_zero8.2 (by omega))
  · exact .of_advance (.refl s)

theorem ackTimerTest_proceeds (s : State) : Proceeds b s.txq.size.toNat s (ackTimerTest s) := by
  have hstopped : Advance b 0 s { s with ackTimer := 0#16 } := .quiet
  unfold ackTimerTest
  split
  · exact .after hstopped (retransmit_proceeds { s with ackTimer := 0#16 })
  · exact .of_advance (.refl s)

theorem txTimerTest_proceeds (s : State) : Proceeds b 1 s (txTimerTest s) := by
  have hstopped : Advance b 0 s { s with txTimer := 0#16 } := .quiet
  unfold txTimerTest
  split
  · split
    · rename_i h
      exact .after hstopped (sendNew_proceeds h)
    · exact .of_advance (hstopped.mono (Nat.zero_le 1))
  · exact .of_advance (.refl s)

end

/-! ## One response -/

/-- A command's next state: what its procedure ends in, and one response. -/
def Responds (b : BitVec 5) (n : Nat) (s t : State) : Prop :=
  ∃ st d u, Advance b n s u ∧ t = respond st d u

section
variable {b : BitVec 5} {n : Nat} {s u : State}

theorem Advance.respond (h : Advance b n s u) (st : Status) (d : BitVec 24) : Responds b n s (respond st d u) :=
  ⟨st, d, u, h, rfl⟩

theorem Advance.arqRsp (h : Advance b n s u) (s0 : State) (st : Status) : Responds b n s (arqRsp s0 st u) :=
  h.respond st _

theorem peekResponse_responds : ∀ {p : PeekResult × State}, Advance b n s p.2 → Responds b n s (peekResponse p)
  | (.value v, _), h => h.respond .ok (v.setWidth 24)
  | (.empty, _), h => h.respond .qEmpty 0#24

/-- The match pops no empty window, so ACK progress sets no ERR bit (R145). -/
theorem ackProgress_advance {x : Byte} {t : State} (h : takeAck x u = .progress t) : Advance b n u (ackProgress t) := by
  obtain ⟨q, a, rfl⟩ := takeAck_rest h
  have hpopped : Advance b n u { u with txq := q, ackbits := a, ackTimer := 0#16 } := .quiet
  exact hpopped.trans (checkDone_advance (n := 0) _)

theorem deliverAck_responds (h : Advance b n s u) (x m : Byte) (s0 : State) : Responds b n s (deliverAck x m s0 u) := by
  unfold deliverAck
  split
  · exact h.arqRsp s0 .ackBadmark
  · split
    · exact h.arqRsp s0 .ackNomatch
    · exact h.arqRsp s0 .ackDuplicate
    · rename_i t ht
      exact (h.trans (ackProgress_advance (n := 0) ht)).arqRsp s0 .ok

end

/-- The command completes with 256 draws at hand; completing, it answers one response and sets no ERR bit but its own. -/
structure Answers (i : Instr) (s : State) : Prop where
  responds : ∀ t, exec i s = .next t → Responds (errBitsOf i) 256 s t
  completes : 256 ≤ s.draws.length → ∃ t, exec i s = .next t

section
variable {i : Instr} {s : State}

/-- A command that lacks no draw. -/
theorem Answers.of_next {t : State} (he : exec i s = .next t) (h : Responds (errBitsOf i) 256 s t) : Answers i s :=
  ⟨fun _ ht => Host.Outcome.next.inj (he.symm.trans ht) ▸ h, fun _ => ⟨t, he⟩⟩

/-- An ARQ command whose procedure may lack a draw. -/
theorem Answers.of_completing {o : Option State} {st : Status} {n : Nat} (he : exec i s = completing (o.map (arqRsp s st)))
    (h : Proceeds (errBitsOf i) n s o) (hn : n ≤ 256) : Answers i s := by
  constructor
  · intro t ht
    rw [he] at ht
    obtain ⟨u, hu, rfl⟩ := completing_map_next.1 ht
    exact ((h.advance u hu).mono hn).arqRsp s st
  · intro hlen
    obtain ⟨u, rfl⟩ := h.completes (hn.trans hlen)
    exact ⟨_, he⟩

/-- The BUSY guard (40_queue.md R86) responds in place of the command. -/
theorem Answers.of_unlessBusy {f : State → State} (he : exec i s = .next (unlessBusy f s))
    (h : Responds (errBitsOf i) 256 s (f s)) : Answers i s := by
  refine .of_next he ?_
  cases hs : s.fsm with
  | idle =>
    rw [unlessBusy_idle hs]
    exact h
  | transmitting =>
    rw [unlessBusy_busy hs]
    exact (Advance.refl s).respond .busy 0#24

end

/-! ## Command by command -/

section
variable (s : State)

theorem fecCor_answers (cw : Codeword) : Answers (.fecCor cw) s := by
  cases h : cor s.cfg.code cw with
  | clean c => exact .of_next (exec_fecCor_clean h) ((Advance.refl s).respond _ _)
  | fixed c p => exact .of_next (exec_fecCor_fixed h) ((Advance.refl s).respond _ _)
  | uncorrectable => exact .of_next (exec_fecCor_uncorrectable h) ((setErr_advance .fecFault rfl s).respond _ _)

theorem frmClass_answers (len : Half) : Answers (.frmClass len) s := by
  cases h : classify s.cfg len.toNat with
  | ambiguous => exact .of_next (exec_frmClass_ambiguous h) ((setErr_advance .ambig rfl s).respond _ _)
  | dataFrames n => exact .of_next (exec_frmClass_dataFrames h) ((Advance.refl s).respond _ _)
  | ackFrames n => exact .of_next (exec_frmClass_ackFrames h) ((Advance.refl s).respond _ _)
  | unclassified => exact .of_next (exec_frmClass_unclassified h) ((Advance.refl s).respond _ _)

theorem qEnq_answers (q : QSel) (v : Byte) : Answers (.qEnq q v) s := by
  obtain ⟨st, d, he⟩ := enqCommand_cases q v s
  exact .of_unlessBusy rfl (he ▸ (qenq_advance q v s).respond st d)

theorem qDeq_answers (q : QSel) : Answers (.qDeq q) s := by
  obtain ⟨st, d, he⟩ := deqCommand_cases q s
  exact .of_unlessBusy rfl (he ▸ (qdeq_advance q s).respond st d)

theorem regRd_answers (r : Byte) : Answers (.regRd r) s := by
  cases h : regOfNumber r with
  | none => exact .of_next (exec_regRd_above (regOfNumber_none.1 h) s) ((setErr_advance .illegal rfl s).respond _ _)
  | some reg => exact .of_next (by rw [exec, execRegRd, h]) ((Advance.refl s).respond _ _)

/-- The window has at most 16 entries, a draw each (R140). -/
theorem arqCtrl_answers (hw : s.cfg.w ≤ 16) (b0 b1 : Byte) : Answers (.arqCtrl b0 b1) s := by
  by_cases hb : b0 = startByte0 ∧ b1 = startByte1
  · have hstart : Advance (errBitsOf (.arqCtrl b0 b1)) 0 s (startSession s) := .quiet
    refine .of_completing (st := .ok) ?_ (.after hstart ((fillLoop_proceeds s.cfg.w _).map checkDone_advance)) (by omega)
    rw [exec, execArqCtrl, if_pos hb, Option.map_map]
    rfl
  · exact .of_next (if_neg hb) ((Advance.refl s).arqRsp s .ctrlIgnored)

theorem arqRxdata_answers (hd : 1 ≤ s.cfg.d) (x : Byte) : Answers (.arqRxdata x) s := by
  by_cases hx : x = s.rxExp
  · subst hx
    have haccept : Advance (errBitsOf (.arqRxdata s.rxExp)) 0 s (acceptFrame s.rxExp s) :=
      ⟨rfl, rfl, rfl, .inl rfl, ⟨_, rfl⟩, 0, Nat.le_refl 0, rfl⟩
    have hqueued := haccept.trans (qenq_advance (n := 0) .rxq s.rxExp (acceptFrame s.rxExp s))
    refine .of_completing (execArqRxdata_in_order s) (.after hqueued (ackWhenDeep_proceeds ?_)) (by omega)
    rw [qenq_cfg]
    exact hd
  · exact .of_next (execArqRxdata_out_of_order hx) ((Advance.refl s).arqRsp s .rxOutOfOrder)

theorem arqRxack_answers (x m : Byte) : Answers (.arqRxack x m) s := by
  cases hs : s.fsm with
  | idle => exact .of_next (exec_arqRxack_idle hs x m) ((Advance.refl s).arqRsp s .idleIgnored)
  | transmitting =>
    cases hd : s.draws with
    | nil =>
      have hstall := exec_arqRxack_stalled hs hd x m
      exact ⟨fun t ht => (nomatch hstall.symm.trans ht), fun h => by simp [hd] at h⟩
    | cons u us =>
      have hdrawn : Advance (errBitsOf (.arqRxack x m)) 256 s { s with draws := us } :=
        ⟨rfl, rfl, rfl, .inl rfl, ⟨[], by simp⟩, 1, by omega, by rw [hd]; rfl⟩
      by_cases hu : u.toNat < s.cfg.pAckIn
      · exact .of_next (exec_arqRxack_dropped hs hd hu x m) (hdrawn.arqRsp s .ackDropped)
      · exact .of_next (exec_arqRxack_delivered hs hd (Nat.not_lt.1 hu) x m) (deliverAck_responds hdrawn x m s)

/-- One draw an entry and one for the new frame: a queue's size is a byte, so 256 draws suffice in every state (R150). -/
theorem arqTick_answers : Answers .arqTick s := by
  cases hs : s.fsm with
  | idle =>
    refine .of_next ?_ ((Advance.refl s).arqRsp s .idleIgnored)
    rw [exec, execArqTick, hs]
  | transmitting =>
    have hcount : Advance (errBitsOf .arqTick) 0 s (countTick s) := .quiet
    have hsize := s.txq.size.isLt
    refine .of_completing (st := .ok) ?_
      (.after hcount ((ackTimerTest_proceeds (countTick s)).bind txTimerTest_proceeds)) ?_
    · rw [exec, execArqTick, hs]
    · exact hsize

theorem arqEom_answers : Answers .arqEom s :=
  .of_completing rfl (drainLoop_proceeds s.rxq.size.toNat s) s.rxq.size.isLt.le

theorem arqDisc_answers : Answers .arqDisc s :=
  have hreset : Advance (errBitsOf .arqDisc) 256 s { resetSession s with fsm := .idle } :=
    .quiet
  .of_next rfl (hreset.arqRsp s .ok)

end

/-- All commands but REG.CLRERR, which clears ERR bits (45_system.md R182). -/
theorem exec_answers {i : Instr} {s : State} (hv : s.cfg.valid = true) (hi : ∀ mask, i ≠ .regClrerr mask) :
    Answers i s := by
  cases i with
  | nop | fecEnc | fecSyn | fecDec | qSize => exact .of_next rfl ((Advance.refl s).respond _ _)
  | fecCor cw => exact fecCor_answers s cw
  | qEnq q v => exact qEnq_answers s q v
  | qDeq q => exact qDeq_answers s q
  | qFront q => exact .of_next rfl (peekResponse_responds (qfront_advance q s))
  | qRear q => exact .of_next rfl (peekResponse_responds (qrear_advance q s))
  | qClear q => exact .of_unlessBusy rfl ((qclear_advance q s).respond .ok 0#24)
  | frmClass len => exact frmClass_answers s len
  | arqCtrl b0 b1 => exact arqCtrl_answers s (Cfg.valid_w hv).2 b0 b1
  | arqRxdata x => exact arqRxdata_answers s (Cfg.valid_d hv).1 x
  | arqRxack x m => exact arqRxack_answers s x m
  | arqTick => exact arqTick_answers s
  | arqEom => exact arqEom_answers s
  | arqDisc => exact arqDisc_answers s
  | regRd r => exact regRd_answers s r
  | regClrerr mask => exact absurd rfl (hi mask)

/-! ## Completion (60_exceptions.md R193) -/

/-- Settles O13: REG.CLRERR completes whatever the state, and of the other commands `Answers` says it. -/
theorem everyCommandCompletesWithOneResponse : Obligations.EveryCommandCompletesWithOneResponse := by
  intro i s hv hdraws
  by_cases hi : ∃ mask, i = .regClrerr mask
  · obtain ⟨mask, rfl⟩ := hi
    exact ⟨_, _, [], 0, rfl, rfl, (List.append_nil _).symm, rfl, Nat.zero_le 256, rfl, rfl⟩
  · have hanswers := exec_answers hv (not_exists.1 hi)
    obtain ⟨t, ht⟩ := hanswers.completes hdraws
    obtain ⟨st, d, u, h, rfl⟩ := hanswers.responds t ht
    obtain ⟨evs, hev⟩ := h.events
    obtain ⟨k, hk, hd⟩ := h.draws
    exact ⟨_, ⟨st, d⟩, evs, k, ht, by rw [respond_rsps, h.rsps], hev, hd, hk, h.cfg, h.inputs⟩

/-! ## The ERR bits (60_exceptions.md R190) -/

/-- Adding the bits `b` keeps every bit set, and sets none outside `b`. -/
theorem sticky_and_owned {w : Nat} {a b e : BitVec w} (h : e = a ∨ e = a ||| b) :
    a &&& e = a ∧ e &&& ~~~(a ||| b) = 0#w := by
  rcases h with rfl | rfl
  · refine ⟨BitVec.and_self, ?_⟩
    ext i hi
    simp +contextual
  · refine ⟨?_, BitVec.and_not_self _⟩
    ext i hi
    simp +contextual

/-- Settles O58: a command keeps ERR or adds the bit of its own, by `Answers`. -/
theorem errBitsAreStickyAndOwned : Obligations.ErrBitsAreStickyAndOwned := by
  intro i s t hv hi ht
  obtain ⟨st, d, u, h, rfl⟩ := (exec_answers hv hi).responds t ht
  exact sticky_and_owned h.err

end Sys2Proof.Machine

/-! Reset and hazards (70_reset_and_hazards.md): the reset values, the double errors of the default code, a duplicate data
frame, and what a hardware reset leaves of a command that it abandons. -/

namespace Sys2Proof.Machine

/-! ## Steps that take no command (R201, R210) -/

section
variable {s : State} {rest : List Input}

theorem step_without_input (hv : s.cfg.valid = true) (hi : s.inputs = []) : step s = .next s := by
  simp only [step, nextInput_nil hi, ifValid_valid hv]

theorem step_hardReset (hv : s.cfg.valid = true) (hi : s.inputs = .hardReset :: rest) :
    step s = .next (hardReset { s with inputs := rest }) := by
  simp only [step, nextInput_cons hi, ifValid_valid hv]

theorem step_abandoned (hv : s.cfg.valid = true) {w : Word} {nEvents nDraws : Nat}
    (hi : s.inputs = .abandoned w nEvents nDraws :: rest) :
    step s = .next (abandon w nEvents nDraws { s with inputs := rest }) := by
  simp only [step, nextInput_cons hi, ifValid_valid hv]

/-- Between commands or abandoning one, a hardware reset resets a state of the same block. -/
theorem step_resets (hv : s.cfg.valid = true)
    (hi : s.inputs = .hardReset :: rest ∨ ∃ w nEvents nDraws, s.inputs = .abandoned w nEvents nDraws :: rest) :
    ∃ u, step s = .next (hardReset u) ∧ u.cfg = s.cfg := by
  rcases hi with hi | ⟨w, nEvents, nDraws, hi⟩
  · exact ⟨_, step_hardReset hv hi, rfl⟩
  · obtain ⟨k, evs, habandon, -⟩ := abandon_cases w nEvents nDraws { s with inputs := rest }
    exact ⟨_, (step_abandoned hv hi).trans (congrArg _ habandon), rfl⟩

end

/-! ## The reset state (R212) -/

/-- Settles O12: every reset is `hardReset` of a state of the same block, and R9 makes the reset values fit their
registers. -/
theorem hardwareResetState : Obligations.HardwareResetState := by
  intro s rest hv hi
  obtain ⟨u, hstep, hcfg⟩ := step_resets hv hi
  have hbase := Cfg.valid_base hv
  have hw := Cfg.valid_w hv
  have hd := Cfg.valid_d hv
  have hseq : (BitVec.ofNat 8 u.cfg.base).toNat = s.cfg.base := by rw [hcfg, toNat_ofNat8 (by omega)]
  have htx : (BitVec.ofNat 8 (u.cfg.w - 1)).toNat = s.cfg.w - 1 := by rw [hcfg, toNat_ofNat8 (by omega)]
  have hrx : (BitVec.ofNat 8 (u.cfg.d - 1)).toNat = s.cfg.d - 1 := by rw [hcfg, toNat_ofNat8 (by omega)]
  exact ⟨_, hstep, rfl, hseq, rfl, hseq, rfl, rfl, rfl, htx, rfl, fun _ => BitVec.getLsbD_zero, rfl, hrx, rfl, rfl, hcfg⟩

/-! ## Double errors on the default code (R222) -/

/-- An error that SYNTAB covers is flipped at the position SYNTAB gives. -/
theorem cor_enc_xor_covered {k : Code} (hk : k.valid = true) (m : Symbol) {e : Codeword} {p : Fin 6}
    (h : (syn k e, p) ∈ k.synTab) : cor k (enc k m ^^^ e) = .fixed (enc k m ^^^ e ^^^ (1#6 <<< p.val)) p :=
  cor_of_covered hk (by rwa [syn_enc_xor hk])

/-- The flip undoes the error only when the error is that one bit. -/
theorem flip_eq_codeword_iff (c e b : Codeword) : c ^^^ e ^^^ b = c ↔ e = b := by
  rw [BitVec.xor_assoc]
  constructor
  · intro h
    have hz : e ^^^ b = 0#6 := by simpa [← BitVec.xor_assoc] using congrArg (c ^^^ ·) h
    simpa [BitVec.xor_assoc] using congrArg (· ^^^ b) hz
  · rintro rfl
    rw [BitVec.xor_self, BitVec.xor_zero]

/-- SYNTAB of the default code has an entry for every error syndrome but 0b111. -/
theorem standard_covers_iff : ∀ x : Syndrome, x ≠ 0#3 → ((∃ p, (x, p) ∈ Code.standard.synTab) ↔ x ≠ 0b111#3) := by
  decide

theorem cor_standard_uncorrectable_iff (m : Symbol) {e : Codeword} (he : syn Code.standard e ≠ 0#3) :
    cor Code.standard (enc Code.standard m ^^^ e) = .uncorrectable ↔ syn Code.standard e = 0b111#3 := by
  by_cases hx : syn Code.standard e = 0b111#3
  · have hnone : ∀ p : Fin 6, (syn Code.standard e, p) ∉ Code.standard.synTab := fun p hp =>
      (standard_covers_iff _ he).1 ⟨p, hp⟩ hx
    rw [← syn_enc_xor Code.standard_valid m] at he hnone
    exact iff_of_true (cor_of_uncovered he hnone) hx
  · obtain ⟨p, hp⟩ := (standard_covers_iff _ he).2 hx
    rw [cor_enc_xor_covered Code.standard_valid m hp]
    exact iff_of_false nofun hx

/-- The two-bit error patterns, as the statement lists them. -/
def doubleErrors : List Codeword := (List.range 64).map (BitVec.ofNat 6) |>.filter fun e =>
  ((List.range 6).filter fun j => e.getLsbD j).length == 2

/-- The distance 3 of the default code, on its syndromes. -/
theorem syn_doubleErrors_ne_zero : ∀ e ∈ doubleErrors, syn Code.standard e ≠ 0#3 := by decide

theorem oneBit_not_mem_doubleErrors : ∀ p : Fin 6, 1#6 <<< p.val ∉ doubleErrors := by decide

/-- Settles O26: the syndrome of a double error is not 0, so it is 0b111, which SYNTAB lacks, or it has an entry, whose flip
does not undo two bits. -/
theorem defaultCodeMiscorrectsTwelveDoubleErrors : Obligations.DefaultCodeMiscorrectsTwelveDoubleErrors := by
  show doubleErrors.length = 15 ∧ ∀ m : Symbol,
    (doubleErrors.filter fun e => cor Code.standard (enc Code.standard m ^^^ e) == .uncorrectable).length = 3 ∧
    ∀ e ∈ doubleErrors, _
  refine ⟨by decide, fun m => ⟨?_, fun e he => ⟨?_, fun hx => ?_⟩⟩⟩
  · have hfilter : (doubleErrors.filter fun e => cor Code.standard (enc Code.standard m ^^^ e) == .uncorrectable) =
        doubleErrors.filter fun e => syn Code.standard e == 0b111#3 :=
      List.filter_congr fun e he => Bool.eq_iff_iff.2 (by
        rw [beq_iff_eq, beq_iff_eq]
        exact cor_standard_uncorrectable_iff m (syn_doubleErrors_ne_zero e he))
    rw [hfilter]
    decide
  · exact cor_standard_uncorrectable_iff m (syn_doubleErrors_ne_zero e he)
  · obtain ⟨p, hp⟩ := (standard_covers_iff _ (syn_doubleErrors_ne_zero e he)).2 hx
    exact ⟨_, p, cor_enc_xor_covered Code.standard_valid m hp, fun hc =>
      oneBit_not_mem_doubleErrors p ((flip_eq_codeword_iff _ _ _).1 hc ▸ he)⟩

/-! ## A duplicate data frame (R155, R223) -/

/-- A sequence space of two numbers or more (R9): `nextseq` moves. -/
theorem nextSeqOf_ne {c : Cfg} (hv : c.valid = true) (x : Byte) : nextSeqOf c x ≠ x := by
  have hb := Cfg.valid_base hv
  have hl := Cfg.valid_lenm hv
  unfold nextSeqOf
  split
  · rename_i hlast
    intro h
    have hbase := congrArg BitVec.toNat h
    rw [toNat_ofNat8 (by omega)] at hbase
    omega
  · simp

theorem execArqRxdata_accepted_rxExp {s t : State} (he : execArqRxdata s.rxExp s = .next t) :
    t.rxExp = nextSeqOf s.cfg s.rxExp := by
  rw [execArqRxdata_in_order] at he
  obtain ⟨u, hu, rfl⟩ := completing_map_next.1 he
  have hqueued := (qenq_queueChange .rxq s.rxExp (acceptFrame s.rxExp s)).sameRegisters
  exact (hqueued.trans (ackWhenDeep_sameRegisters hu)).rxExp

/-- Settles O42: accepting the frame moves RX_EXP off its number. -/
theorem duplicateFrameIsNotAcknowledged : Obligations.DuplicateFrameIsNotAcknowledged := by
  rintro s t x hv - rfl he
  have hne : s.rxExp ≠ t.rxExp := by
    rw [execArqRxdata_accepted_rxExp he]
    exact (nextSeqOf_ne hv _).symm
  rw [exec, execArqRxdata_out_of_order hne, arqRsp_of_events (n := 0) (by rfl)]

end Sys2Proof.Machine

/-! What a step leaves that completes no command (70_reset_and_hazards.md R210, R220): whether a command stalls does not
depend on the inputs to come, an abandoned command is read from any run of it that completes, and a stalled one has taken
every draw. -/

namespace Sys2Proof.Machine

/-! ## The inputs to come do not decide a stall (R220) -/

/-- The state with other inputs to come. -/
def withInputs (is : List Input) (s : State) : State := { s with inputs := is }

/-- The operation neither reads nor changes the inputs to come. -/
def IgnoresInputs (f : State → Option State) : Prop := ∀ is s, f (withInputs is s) = (f s).map (withInputs is)

section
variable {f g : State → Option State} {p : State → Prop} [DecidablePred p]

theorem IgnoresInputs.some : IgnoresInputs some := fun _ _ => rfl

theorem IgnoresInputs.bind (hf : IgnoresInputs f) (hg : IgnoresInputs g) : IgnoresInputs fun s => (f s).bind g := by
  intro is s
  show (f (withInputs is s)).bind g = ((f s).bind g).map _
  rw [hf]
  cases f s with
  | none => rfl
  | some t => exact hg is t

/-- A change before the operation that does not touch the inputs. -/
theorem IgnoresInputs.comp (hf : IgnoresInputs f) {c : State → State} (hc : ∀ is s, c (withInputs is s) = withInputs is (c s)) :
    IgnoresInputs fun s => f (c s) :=
  fun is s => (congrArg f (hc is s)).trans (hf is (c s))

theorem IgnoresInputs.ite (hf : IgnoresInputs f) (hg : IgnoresInputs g) (hp : ∀ is s, p (withInputs is s) ↔ p s) :
    IgnoresInputs fun s => if p s then f s else g s := by
  intro is s
  show (if p (withInputs is s) then f (withInputs is s) else g (withInputs is s)) = (if p s then f s else g s).map _
  by_cases h : p s
  · rw [if_pos ((hp is s).2 h), if_pos h]
    exact hf is s
  · rw [if_neg (mt (hp is s).1 h), if_neg h]
    exact hg is s

end

theorem withInputs_queue (is : List Input) (s : State) (q : QSel) : (withInputs is s).queue q = s.queue q := by
  cases q <;> rfl

theorem qenq_withInputs (q : QSel) (v : Byte) (is : List Input) (s : State) :
    qenq q v (withInputs is s) = ((qenq q v s).1, withInputs is (qenq q v s).2) := by
  by_cases h : (s.queue q).size.toNat = capacity s.cfg q
  · rw [qenq_full h, qenq_full (s := withInputs is s) (by rw [withInputs_queue]; exact h)]
    rfl
  · rw [qenq_ok h, qenq_ok (s := withInputs is s) (by rw [withInputs_queue]; exact h), withInputs_queue]
    cases q <;> rfl

theorem qdeq_withInputs (q : QSel) (is : List Input) (s : State) :
    qdeq q (withInputs is s) = ((qdeq q s).1, withInputs is (qdeq q s).2) := by
  by_cases h : (s.queue q).size = 0#8
  · rw [qdeq_empty h, qdeq_empty (s := withInputs is s) (by rw [withInputs_queue]; exact h)]
    rfl
  · rw [qdeq_ok h, qdeq_ok (s := withInputs is s) (by rw [withInputs_queue]; exact h), withInputs_queue]
    cases q <;> rfl

theorem emitData_ignoresInputs (x : Byte) (u : Half) : IgnoresInputs (emitData x u) := by
  intro is s
  cases hd : s.draws with
  | nil => rw [emitData_nil hd, emitData_nil (s := withInputs is s) hd]; rfl
  | cons d ds => rw [emitData_cons hd, emitData_cons (s := withInputs is s) hd]; rfl

theorem sendNew_ignoresInputs : IgnoresInputs sendNew := by
  intro is s
  have hemit := emitData_ignoresInputs s.nextSeq s.sentCount is s
  rw [sendNew_eq_map, sendNew_eq_map]
  show (emitData s.nextSeq s.sentCount (withInputs is s)).map _ = _
  rw [hemit, Option.map_map, Option.map_map]
  exact congrArg (Option.map · _) (funext fun t => by simp only [Function.comp_apply, qenq_withInputs]; rfl)

theorem fillLoop_ignoresInputs (n : Nat) : IgnoresInputs (fillLoop n) := by
  induction n with
  | zero => exact .some
  | succ n ih =>
    rw [funext (fillLoop_succ n)]
    exact (sendNew_ignoresInputs.bind ih).ite .some fun _ _ => Iff.rfl

theorem fill_ignoresInputs : IgnoresInputs fill := fun is s => fillLoop_ignoresInputs s.cfg.w is s

theorem emitAck_ignoresInputs : IgnoresInputs emitAck := by
  intro is s
  cases hd : s.draws with
  | nil => rw [emitAck_nil hd, emitAck_nil (s := withInputs is s) hd]; rfl
  | cons u us =>
    simp only [emitAck, drawLoss_cons hd, drawLoss_cons (s := withInputs is s) hd]
    exact congrArg (fun p => some p.2) (qdeq_withInputs .rxq is
      (emit (.ack (s.rxq.slotAt s.rxq.front.toNat) (dropped u s.cfg.pAckOut)) { s with draws := us }))

theorem drainLoop_ignoresInputs (n : Nat) : IgnoresInputs (drainLoop n) := by
  induction n with
  | zero => exact .some
  | succ n ih =>
    rw [funext (drainLoop_succ n)]
    exact IgnoresInputs.some.ite (emitAck_ignoresInputs.bind ih) fun _ _ => Iff.rfl

theorem drain_ignoresInputs : IgnoresInputs drain := fun is s => drainLoop_ignoresInputs s.rxq.size.toNat is s

theorem ackWhenDeep_ignoresInputs : IgnoresInputs ackWhenDeep := emitAck_ignoresInputs.ite .some fun _ _ => Iff.rfl

theorem retransmit_ignoresInputs : IgnoresInputs retransmit := by
  rw [funext retransmit_eq]
  exact IgnoresInputs.ite (fun _ _ => rfl) (fun _ _ => rfl) fun _ _ => Iff.rfl

theorem ackTimerTest_ignoresInputs : IgnoresInputs ackTimerTest :=
  (retransmit_ignoresInputs.comp (c := fun s => { s with ackTimer := 0#16 }) fun _ _ => rfl).ite .some fun _ _ => Iff.rfl

theorem txTimerTest_ignoresInputs : IgnoresInputs txTimerTest :=
  have hsend := sendNew_ignoresInputs.comp (c := fun s => { s with txTimer := 0#16 }) fun _ _ => rfl
  have hstop := IgnoresInputs.some.comp (c := fun s => { s with txTimer := 0#16 }) fun _ _ => rfl
  (hsend.ite hstop fun _ _ => Iff.rfl).ite .some fun _ _ => Iff.rfl

/-- A procedure that lacks a draw lacks it whatever the inputs to come, and whatever would have followed. -/
theorem IgnoresInputs.stalls {f : State → Option State} (hf : IgnoresInputs f) {s : State} {g : State → State} {e : Fault}
    (h : completing ((f s).map g) = .fault e) (is : List Input) (g' : State → State) :
    completing ((f (withInputs is s)).map g') = .fault .drawStall := by
  rw [hf, Option.map_eq_none_iff.1 (completing_fault h)]
  rfl

theorem exec_arqRxack_fault {x m : Byte} {s : State} {e : Fault} (hs : s.fsm = .transmitting)
    (h : exec (.arqRxack x m) s = .fault e) : s.draws = [] := by
  obtain ⟨core, hexec⟩ := exec_rxack x m s hs
  have hrun := (hexec s.draws s.events).symm.trans h
  cases hd : s.draws with
  | nil => rfl
  | cons u us => rw [hd] at hrun; cases hrun

/-- A frame in order, enqueued: what ARQ.RXDATA does before it may need a draw (R155). -/
def frameEnqueued (s : State) : State := (qenq .rxq s.rxExp (acceptFrame s.rxExp s)).2

theorem frameEnqueued_withInputs (is : List Input) (s : State) :
    frameEnqueued (withInputs is s) = withInputs is (frameEnqueued s) :=
  congrArg Prod.snd (qenq_withInputs .rxq s.rxExp is (acceptFrame s.rxExp s))

/-- A command that stalls, stalls whatever the inputs to come: each of the five that can. -/
theorem exec_stalls_withInputs {i : Instr} {s : State} {e : Fault} (h : exec i s = .fault e) (is : List Input) :
    exec i (withInputs is s) = .fault .drawStall := by
  obtain ⟨-, hi⟩ := onlyDrawingCommandsStall.2 i s e h
  rcases hi with hctrl | ⟨hrxdata, -⟩ | ⟨⟨x, m, hrxack⟩, hs⟩ | ⟨htick, hs⟩ | ⟨heom, -⟩
  · subst hctrl
    exact (fill_ignoresInputs.comp (c := startSession) fun _ _ => rfl).stalls h is _
  · subst hrxdata
    have hin := execArqRxdata_in_order (withInputs is s)
    exact hin.trans ((ackWhenDeep_ignoresInputs.comp frameEnqueued_withInputs).stalls
      ((execArqRxdata_in_order s).symm.trans h) is _)
  · subst hrxack
    have hd : s.draws = [] := exec_arqRxack_fault hs h
    exact exec_arqRxack_stalled (s := withInputs is s) hs hd x m
  · subst htick
    have hs' : (withInputs is s).fsm = .transmitting := hs
    simp only [exec, execArqTick, hs] at h
    simp only [exec, execArqTick, hs']
    exact ((ackTimerTest_ignoresInputs.comp (c := countTick) fun _ _ => rfl).bind txTimerTest_ignoresInputs).stalls h is _
  · subst heom
    exact drain_ignoresInputs.stalls h is _

theorem runWord_stalls_withInputs {w : Word} {s : State} {e : Fault} (h : runWord w s = .fault e) (is : List Input) :
    runWord w (withInputs is s) = .fault .drawStall := by
  unfold runWord at h ⊢
  split at h
  · rename_i i _
    exact exec_stalls_withInputs h is
  · cases h

/-! ## The runs of a command that complete -/

theorem runWord_completes {s : State} (hv : s.cfg.valid = true) (hd : 256 ≤ s.draws.length) (w : Word) :
    ∃ u, runWord w s = .next u := by
  unfold runWord
  cases decode w with
  | error e => exact ⟨_, rfl⟩
  | ok i =>
    obtain ⟨u, -, -, -, hu, -⟩ := everyCommandCompletesWithOneResponse i s hv hd
    exact ⟨u, hu⟩

theorem answering_draws_length (s : State) : (answering s).draws.length = s.draws.length + 256 := by
  rw [answering, List.length_append, List.length_replicate]

/-- `answering` gives any command draws enough. -/
theorem runWord_answering {s : State} (hv : s.cfg.valid = true) (w : Word) : ∃ u, runWord w (answering s) = .next u :=
  runWord_completes (s := answering s) hv (by rw [answering_draws_length]; omega) w

theorem runWord_appends_events {w : Word} {s u : State} (h : runWord w s = .next u) : ∃ out, u.events = s.events ++ out := by
  unfold runWord at h
  split at h
  · rename_i i _
    obtain ⟨-, out, -, -, -, hout, -⟩ := drawsTakenDoNotDependOnTheirValues i s u u s.draws s.draws h h
    exact ⟨out, hout⟩
  · exact ⟨[], Host.Outcome.next.inj h ▸ (List.append_nil _).symm⟩

/-! ## An abandoned command (R210, log entry 6) -/

section
variable {w : Word} {s u : State} {vs : List Draw}

/-- What an abandoned command leaves is read from any run of it that completes: the run that `abandon` looks at takes as
many draws and has the same events presented. -/
theorem abandon_eq_of_run (hv : s.cfg.valid = true) (hu : runWord w (moreDraws vs s) = .next u) (nEvents nDraws : Nat)
    {k : Nat} (hk : k = min nDraws (min (s.draws.length + vs.length - u.draws.length) s.draws.length)) :
    abandon w nEvents nDraws s = hardReset { s with
      draws := s.draws.drop k
      events := s.events ++ (presentable k (u.events.drop s.events.length)).take nEvents } := by
  obtain ⟨t, ht⟩ := runWord_answering hv w
  obtain ⟨htaken, hpresented⟩ := runWord_presented (n := k) (by omega) ht hu
  have hlen := answering_draws_length s
  have hk' : min nDraws (min ((answering s).draws.length - t.draws.length) s.draws.length) = k := by
    rw [List.length_replicate] at htaken
    omega
  simp only [abandon, ht, hk', hpresented]

/-- The events that the host took are some first ones of the run, and at most `k` of them depend on a draw. -/
theorem presented_split (hu : runWord w (moreDraws vs s) = .next u) (nEvents k : Nat) :
    (∃ more, u.events = s.events ++ (presentable k (u.events.drop s.events.length)).take nEvents ++ more) ∧
    (((presentable k (u.events.drop s.events.length)).take nEvents).filter Event.lossy).length ≤ k := by
  obtain ⟨out, hout⟩ := runWord_appends_events hu
  have hdrop : u.events.drop s.events.length = out := by rw [hout]; exact List.drop_left
  obtain ⟨hprefix, hlossy⟩ := presentable_spec out k
  obtain ⟨more, hmore⟩ := (List.take_prefix nEvents _).trans hprefix
  rw [hdrop]
  exact ⟨⟨more, by rw [List.append_assoc, hmore]; exact hout⟩,
    ((List.take_sublist _ _).filter _).length_le.trans hlossy⟩

/-- A command that waits has taken every draw, and the host every event that it can have presented (log entry 6). -/
theorem abandon_stalled (hv : s.cfg.valid = true) (hstall : runWord w s = .fault .drawStall)
    (hu : runWord w (moreDraws vs s) = .next u) :
    abandon w (s.draws.length + 1) s.draws.length s = hardReset { s with
      draws := []
      events := s.events ++ presentable s.draws.length (u.events.drop s.events.length) } := by
  obtain ⟨hleft, hfew⟩ := runWord_stalled hstall hu
  rw [abandon_eq_of_run hv hu _ _ (k := s.draws.length) (by omega), List.take_of_length_le (hfew _), List.drop_length]

end

/-- A command that waits is abandoned when a hardware reset is next. -/
theorem step_stalled {s : State} {w : Word} {rest : List Input} (hv : s.cfg.valid = true)
    (hi : s.inputs = .command w :: .hardReset :: rest)
    (h : runWord w { s with inputs := .hardReset :: rest } = .fault .drawStall) :
    step s = .next (abandon w (s.draws.length + 1) s.draws.length { s with inputs := rest }) := by
  rw [step_command hv hi, runCommand, h]
  rfl

/-- Settles O11: waiting, refusing and resetting are the step's own cases; an abandoned command, and one that waits, is
read from any run of it that completes, and 256 further draws give such a run. -/
theorem stepsThatRunNoCommand : Obligations.StepsThatRunNoCommand := by
  refine ⟨fun s => step_without_input, fun s => step_invalid, fun s rest hv hi => ?reset,
    fun s rest w nEvents nDraws hv hi => ?abandoned, fun s rest w hv hi hstall => ?stalled⟩
  case reset => exact ⟨_, step_hardReset hv hi, rfl, rfl, rfl, rfl, rfl, rfl⟩
  case abandoned =>
    refine ⟨⟨_, runWord_answering (s := { s with inputs := rest }) hv w⟩, fun vs u hu => ?_⟩
    obtain ⟨⟨more, hmore⟩, hlossy⟩ := presented_split (s := { s with inputs := rest }) hu nEvents _
    exact ⟨_, _, more, rfl, rfl, hmore, hlossy, (step_abandoned hv hi).trans
      (congrArg _ (abandon_eq_of_run (s := { s with inputs := rest }) hv hu nEvents nDraws rfl))⟩
  case stalled =>
    refine ⟨⟨_, runWord_answering (s := { s with inputs := rest }) hv w⟩, fun vs u hu => ?_⟩
    have hwaits : runWord w { s with inputs := rest } = .fault .drawStall := runWord_stalls_withInputs hstall rest
    obtain ⟨-, hfew⟩ := runWord_stalled (s := { s with inputs := rest }) hwaits hu
    obtain ⟨⟨more, hmore⟩, hlossy⟩ :=
      presented_split (s := { s with inputs := rest }) hu (s.draws.length + 1) s.draws.length
    rw [List.take_of_length_le (hfew _)] at hmore hlossy
    exact ⟨_, more, rfl, hmore, hlossy, (step_stalled hv hi hstall).trans
      (congrArg _ (abandon_stalled (s := { s with inputs := rest }) hv hwaits hu))⟩

end Sys2Proof.Machine
